-- ==== Sys2Proof/Word.lean ====
section
/-! DEFINITION. The two word types of SCODEC: the 64-bit register (00_scope.md R7) and the byte of a payload or of a
frame line (20_memory.md R86, R89). -/

namespace Sys2Proof

/-- A 64-bit register, or a u64 of the spec's pseudocode (00_scope.md R7, R9). Bit 0 is the least significant (R8). -/
abbrev Word := BitVec 64

/-- One byte of a payload or of a frame line. -/
abbrev Byte := BitVec 8

end Sys2Proof
end

