-- ==== Sys2Proof/Config.lean ====
section
/-! DEFINITION. What an integrator fixes: the two parameters a model takes as arguments, HAS_FSER and MOTO_SWAP
(00_scope.md R5, R6; 93_implementation_defined.md P1, P2), and the platform's window base (P3). -/

namespace Sys2Proof

/-- The parameter MOTO_SWAP (00_scope.md R6): which data types have their word byte-reversed in Motorola forward.
There is no fourth value: code 3 is not a legal configuration. -/
inductive MotoSwap where
  /-- NONE, code 0 -/
  | none
  /-- FLOAT_ONLY, code 1, the spec's default -/
  | floatOnly
  /-- ALL_MULTIBYTE, code 2 -/
  | allMultibyte
  deriving DecidableEq, Repr

/-- The parameters of one build of the block; they are what the constant register CAPS reports (10_state.md R34). -/
structure Params where
  /-- HAS_FSER: the optional frame serializer and parser is present (00_scope.md R5). -/
  hasFser : Bool
  /-- MOTO_SWAP (00_scope.md R6). -/
  motoSwap : MotoSwap
  deriving DecidableEq, Repr

/-- The spec's defaults: HAS_FSER = 1 and MOTO_SWAP = FLOAT_ONLY (93_implementation_defined.md P1, P2).
DESIGN CHOICE, unsafe: State.reset is the reset state of a build with these parameters (log entry 1). -/
def Params.default : Params := { hasFser := true, motoSwap := .floatOnly }

/-- The platform's choice of where the window sits (20_memory.md R80, 93_implementation_defined.md P3), in units of
256 bytes, since BASE is aligned to 256. It has no body: no rule depends on it (log entry 5). -/
opaque Config.basePage : Nat

/-- BASE, the host address of window offset 0 (20_memory.md R80). -/
def Config.base : Nat := 256 * Config.basePage

end Sys2Proof
end

