-- ==== Sys2Proof/Syntax.lean ====
section
/-! DEFINITION. The commands of the opcode table, and what a host access names: the registers of the window, the data
types and endiannesses of a signal, the accesses themselves. -/

namespace Sys2Proof

/-- The six commands of spec/opcode_table.json (30_encoding.md R112). No command has an operand field: its operands
are fixed registers (10_state.md R32). -/
inductive Instr where
  /-- ENCODE, OP 0x01 (41_codec_commands.md R191) -/
  | encode
  /-- DECODE, OP 0x02 (41_codec_commands.md R192) -/
  | decode
  /-- ENCODE_FRAME, OP 0x03 (41_codec_commands.md R193) -/
  | encodeFrame
  /-- DECODE_FRAME, OP 0x04 (41_codec_commands.md R194) -/
  | decodeFrame
  /-- FRAME_SERIALIZE, OP 0x10 (42_frame_serializer.md R236) -/
  | frameSerialize
  /-- FRAME_PARSE, OP 0x11 (42_frame_serializer.md R238) -/
  | frameParse
  deriving DecidableEq, Repr

/-- Why a CMD value selects no command, whatever the build (30_encoding.md R111, R113). -/
inductive IllegalCmd where
  /-- RSV is not 0 (R111): INFO 2 -/
  | reservedBits
  /-- RSV is 0 and OP is not assigned (R113): INFO 1 -/
  | unassignedOp
  deriving DecidableEq, Repr

/-- The eleven data types of a signal (30_encoding.md R115). -/
inductive DataType where
  | flag | u8 | s8 | u16 | s16 | u32 | s32 | u64 | s64 | f32 | f64
  deriving DecidableEq, Repr

/-- The two endiannesses of a signal (30_encoding.md R117). -/
inductive Endian where
  /-- CFG.ENDIAN = 0 -/
  | intel
  /-- CFG.ENDIAN = 1, Motorola forward -/
  | motorola
  deriving DecidableEq, Repr

/-- The 24 registers of the register map, each under its own name (10_state.md R30, R33). -/
inductive Reg where
  | caps | cmd | status | cfg | value | payloadIn | payloadOut | resultWord | resultValue | tsIn
  | frameId | frameCtl | frameData | frameTs | txLen | rxLen
  | txLine0 | txLine1 | txLine2 | txLine3 | rxLine0 | rxLine1 | rxLine2 | rxLine3
  deriving DecidableEq, Repr

/-- What the outside does to the block in one step: a read or a write on the host port, of `bits` bits at window
offset `off` (20_memory.md R82; the offset is relative to BASE, R80), or a pulse of the reset input
(70_reset_and_hazards.md R303). Accesses of every width and offset can be named; R82 says which have a meaning. -/
inductive HostAccess where
  | read (bits off : Nat)
  | write (bits off : Nat) (v : Word)
  | reset
  deriving DecidableEq, Repr

end Sys2Proof
end

