-- ==== Sys2Proof/WellFormed.lean ====
section
/-! DEFINITION. Well-formed commands and well-formed host accesses. -/

namespace Sys2Proof

/-- Every command is well formed: a command has no operand field that could be ill formed (30_encoding.md R110). -/
def Instr.wellFormed (i : Instr) : Bool :=
  match i with
  | .encode => true
  | .decode => true
  | .encodeFrame => true
  | .decodeFrame => true
  | .frameSerialize => true
  | .frameParse => true

/-- The accesses the block defines: 64 bits wide, at an offset that is a multiple of 8, below 0x100
(20_memory.md R82). Reset names no offset (70_reset_and_hazards.md R303). -/
def HostAccess.wellFormed (a : HostAccess) : Bool :=
  match a with
  | .read bits off => bits == 64 && off % 8 == 0 && decide (off < 0x100)
  | .write bits off _ => bits == 64 && off % 8 == 0 && decide (off < 0x100)
  | .reset => true

end Sys2Proof
end

