-- ==== Sys2Proof/Decode.lean ====
section
/-! DEFINITION. Decoding and encoding: the value of a CMD write to a command and back (30_encoding.md R110 to R114),
and a window offset to a register and back (10_state.md R33). Both decoders are total. -/

namespace Sys2Proof

/-- The OP field of a CMD value, bits 7:0 (30_encoding.md R110). -/
def opField (v : Word) : Byte := v.extractLsb' 0 8

/-- The RSV field of a CMD value, bits 63:8 (30_encoding.md R110). -/
def rsvField (v : Word) : BitVec 56 := v.extractLsb' 8 56

/-- The opcode map (30_encoding.md R112). -/
def opcodeOf (i : Instr) : Byte :=
  match i with
  | .encode => 0x01
  | .decode => 0x02
  | .encodeFrame => 0x03
  | .decodeFrame => 0x04
  | .frameSerialize => 0x10
  | .frameParse => 0x11

/-- The command an OP value selects, if it is assigned (30_encoding.md R112, R113). -/
def instrOfOp (op : Byte) : Option Instr :=
  match op.toNat with
  | 0x01 => some .encode
  | 0x02 => some .decode
  | 0x03 => some .encodeFrame
  | 0x04 => some .decodeFrame
  | 0x10 => some .frameSerialize
  | 0x11 => some .frameParse
  | _ => none

/-- The command a CMD value selects. RSV is looked at first (30_encoding.md R111: "whatever OP holds";
60_exceptions.md R279), then OP. Whether FSER is present is not the decoder's question: an FSER command of a build
without it is decoded, and raises when it runs (60_exceptions.md R272, third cause). -/
def decode (v : Word) : Except IllegalCmd Instr :=
  if rsvField v ≠ 0 then .error .reservedBits
  else
    match instrOfOp (opField v) with
    | some i => .ok i
    | none => .error .unassignedOp

/-- The CMD value that selects a command: OP with RSV = 0 (30_encoding.md R112). -/
def encode (i : Instr) : Word := (opcodeOf i).setWidth 64

/-- The command the decoder reads from an instruction whose bits are `w` and whose table row has `nbits` bits. A CMD
value is one 64-bit word, so its bits are the register's own (30_encoding.md R110); a longer row is no command. -/
def decodeTableWord (nbits w : Nat) : Option Instr :=
  if 2 ^ 64 ≤ w % 2 ^ nbits then none
  else
    match decode (BitVec.ofNat 64 (w % 2 ^ nbits)) with
    | .ok i => some i
    | .error _ => none

/-- The byte offset of a register in the window (10_state.md R33). -/
def Reg.offset (r : Reg) : Nat :=
  match r with
  | .caps => 0x00
  | .cmd => 0x08
  | .status => 0x10
  | .cfg => 0x18
  | .value => 0x20
  | .payloadIn => 0x28
  | .payloadOut => 0x30
  | .resultWord => 0x38
  | .resultValue => 0x40
  | .tsIn => 0x48
  | .frameId => 0x50
  | .frameCtl => 0x58
  | .frameData => 0x60
  | .frameTs => 0x68
  | .txLen => 0x70
  | .rxLen => 0x78
  | .txLine0 => 0x80
  | .txLine1 => 0x88
  | .txLine2 => 0x90
  | .txLine3 => 0x98
  | .rxLine0 => 0xA0
  | .rxLine1 => 0xA8
  | .rxLine2 => 0xB0
  | .rxLine3 => 0xB8

/-- The register at a window offset; `none` is a reserved slot (10_state.md R33, 20_memory.md R83), or an offset the
block does not define (R82), which the host port refuses before it asks. -/
def regAt (off : Nat) : Option Reg :=
  match off with
  | 0x00 => some .caps
  | 0x08 => some .cmd
  | 0x10 => some .status
  | 0x18 => some .cfg
  | 0x20 => some .value
  | 0x28 => some .payloadIn
  | 0x30 => some .payloadOut
  | 0x38 => some .resultWord
  | 0x40 => some .resultValue
  | 0x48 => some .tsIn
  | 0x50 => some .frameId
  | 0x58 => some .frameCtl
  | 0x60 => some .frameData
  | 0x68 => some .frameTs
  | 0x70 => some .txLen
  | 0x78 => some .rxLen
  | 0x80 => some .txLine0
  | 0x88 => some .txLine1
  | 0x90 => some .txLine2
  | 0x98 => some .txLine3
  | 0xA0 => some .rxLine0
  | 0xA8 => some .rxLine1
  | 0xB0 => some .rxLine2
  | 0xB8 => some .rxLine3
  | _ => none

end Sys2Proof
end

