-- ==== Sys2Proof/Machine/Float.lean ====
section
/-! DEFINITION. The IEEE 754 conversions of the codec (00_scope.md R15, R17; 40_codec_datapath.md R145, R147, R148,
R165, R166, R170), in exact integer arithmetic. -/

namespace Sys2Proof.Machine

/-- A binary interchange format: the number of fraction bits and of exponent bits (00_scope.md R17). -/
structure Format where
  fracBits : Nat
  expBits : Nat
  deriving DecidableEq, Repr

/-- binary32: sign bit 31, exponent bits 30:23, fraction bits 22:0 (00_scope.md R17). -/
def binary32 : Format := { fracBits := 23, expBits := 8 }

/-- binary64: sign bit 63, exponent bits 62:52, fraction bits 51:0 (00_scope.md R17). -/
def binary64 : Format := { fracBits := 52, expBits := 11 }

/-- The exponent bias: 127 for binary32, 1023 for binary64 (00_scope.md R17). -/
def Format.bias (f : Format) : Nat := 2 ^ (f.expBits - 1) - 1

/-- The exponent field of all ones. -/
def Format.expOnes (f : Format) : Nat := 2 ^ f.expBits - 1

/-- The sign bit of an encoding. -/
def Format.signOf (f : Format) (b : Nat) : Bool := b.testBit (f.fracBits + f.expBits)

/-- The biased exponent field of an encoding. -/
def Format.expOf (f : Format) (b : Nat) : Nat := b / 2 ^ f.fracBits % 2 ^ f.expBits

/-- The fraction field of an encoding. -/
def Format.fracOf (f : Format) (b : Nat) : Nat := b % 2 ^ f.fracBits

/-- A NaN: exponent all ones, fraction not zero (00_scope.md R17). -/
def Format.isNaN (f : Format) (b : Nat) : Bool := f.expOf b == f.expOnes && f.fracOf b != 0

/-- An infinity: exponent all ones, fraction zero (00_scope.md R17). -/
def Format.isInf (f : Format) (b : Nat) : Bool := f.expOf b == f.expOnes && f.fracOf b == 0

/-- The exact number ±mant·2^exp. -/
structure Exact where
  neg : Bool
  mant : Nat
  exp : Int
  deriving DecidableEq, Repr

/-- `real(b)` of a finite encoding (00_scope.md R17): with exponent field 0 the fraction alone at the lowest exponent (a
zero or a subnormal), else the fraction with its hidden one. -/
def Format.exactOf (f : Format) (b : Nat) : Exact where
  neg := f.signOf b
  mant := if f.expOf b = 0 then f.fracOf b else 2 ^ f.fracBits + f.fracOf b
  exp := (max (f.expOf b) 1 : Int) - f.bias - f.fracBits

/-- `roundHalfAway` of ±m·2^k (00_scope.md R15): floor(|x| + 1/2) with x's sign, in exact arithmetic. -/
def roundHalfAway (x : Exact) : Int :=
  let mag : Nat :=
    if 0 ≤ x.exp then x.mant * 2 ^ x.exp.toNat
    else (x.mant + 2 ^ ((-x.exp).toNat - 1)) / 2 ^ (-x.exp).toNat
  if x.neg then -(mag : Int) else mag

/-- `rte` of 40_codec_datapath.md R170: the integer nearest m·2^k, and of two equally near the even one. -/
def roundEven (m : Nat) (k : Int) : Nat :=
  if 0 ≤ k then m * 2 ^ k.toNat
  else
    let d := 2 ^ (-k).toNat
    let q := m / d
    let r := m % d
    if 2 * r < d then q
    else if d < 2 * r then q + 1
    else q + q % 2

/-- The encoding, without its sign bit, of the positive number m·2^k (of 0, when m = 0) in a format, rounded to nearest,
ties to even: the algorithm of 40_codec_datapath.md R170, with the format's own bias and fraction width. For binary32
it is R170 word for word; for binary64 it is R165's "round-to-nearest, ties to even" and R166's exact widening
(DEDUCED, log entry 8). -/
def Format.roundTo (f : Format) (m : Nat) (k : Int) : Nat :=
  if m = 0 then 0
  else
    let e : Int := (Nat.log2 m : Int) + k
    let emin : Int := 1 - (f.bias : Int)
    if e < emin then roundEven m (k - (emin - f.fracBits))
    else
      let r := roundEven m (k - (e - f.fracBits))
      let carry := r = 2 ^ (f.fracBits + 1)
      let e' := if carry then e + 1 else e
      let r' := if carry then 2 ^ f.fracBits else r
      if (f.bias : Int) < e' then f.expOnes * 2 ^ f.fracBits
      else (e' + f.bias).toNat * 2 ^ f.fracBits + (r' - 2 ^ f.fracBits)

/-- An encoding from its sign and the rest. -/
def Format.signed (f : Format) (neg : Bool) (rest : Nat) : Nat :=
  (if neg then 2 ^ (f.fracBits + f.expBits) else 0) + rest

/-- The NaN narrowing of 40_codec_datapath.md R148: x[63]·2^31 + 0x7F80_0000 + (x[51:29] | 0x40_0000). -/
def nan64to32 (x : Word) : Word :=
  ((bif x.getLsbD 63 then 0x80000000 else 0) + 0x7F800000) + ((x.extractLsb' 29 23).setWidth 64 ||| 0x400000)

/-- The type-width word of F32 (40_codec_datapath.md R147, R148, R170), in bits 31:0 of a word. -/
def narrow32 (x : Word) : Word :=
  if binary64.isNaN x.toNat then nan64to32 x
  else if binary64.isInf x.toNat then
    BitVec.ofNat 64 (binary32.signed (binary64.signOf x.toNat) (binary32.expOnes * 2 ^ binary32.fracBits))
  else
    let v := binary64.exactOf x.toNat
    BitVec.ofNat 64 (binary32.signed v.neg (binary32.roundTo v.mant v.exp))

/-- The binary64 encoding of an integer, rounded to nearest, ties to even; 0 gives +0.0 (40_codec_datapath.md R165). -/
def toBinary64 (n : Int) : Word :=
  BitVec.ofNat 64 (binary64.signed (decide (n < 0)) (binary64.roundTo n.natAbs 0))

/-- A binary32 pattern (bits 31:0 of `w`) widened to binary64 (40_codec_datapath.md R166): a NaN keeps its sign, its
fraction moves to the top and its quiet bit is set; an infinity stays one; a finite value is exact. -/
def widen32 (w : Word) : Word :=
  if binary32.isNaN w.toNat then
    ((bif w.getLsbD 31 then 0x8000000000000000 else 0) + 0x7FF0000000000000)
      + (((w.extractLsb' 0 23).setWidth 64 <<< 29) ||| 0x8000000000000)
  else if binary32.isInf w.toNat then
    BitVec.ofNat 64 (binary64.signed (binary32.signOf w.toNat) (binary64.expOnes * 2 ^ binary64.fracBits))
  else
    let v := binary32.exactOf w.toNat
    BitVec.ofNat 64 (binary64.signed v.neg (binary64.roundTo v.mant v.exp))

end Sys2Proof.Machine
end

