-- ==== Sys2Proof/Machine/Bits.lean ====
section
/-! DEFINITION. Bit-field, byte-order and sign helpers (00_scope.md R8, R9, R10, R16; 20_memory.md R86). -/

namespace Sys2Proof.Machine

/-- The word of `n` one-bits at bits n−1:0, 2^n − 1 (40_codec_datapath.md R154). -/
def lowMask (n : Nat) : Word := BitVec.ofNat 64 (2 ^ n - 1)

/-- A flag as one bit. -/
def bit (b : Bool) : BitVec 1 := BitVec.ofBool b

/-- A field of a register at its place: bit 0 of `x` at bit `pos` of the word, every other bit 0 (00_scope.md R8). -/
def fieldAt {n : Nat} (pos : Nat) (x : BitVec n) : Word := x.setWidth 64 <<< pos

/-- The first `n` bytes of a word, byte k being bits 8k+7:8k (20_memory.md R86). -/
def bytesOf : Nat → Word → List Byte
  | 0, _ => []
  | n + 1, w => w.setWidth 8 :: bytesOf n (w >>> 8)

/-- The word whose byte k, bits 8k+7:8k, is the k-th byte of the list; bytes the list does not give are 0, and bytes
past the eighth are dropped (20_memory.md R86). -/
def wordOf : List Byte → Word
  | [] => 0
  | b :: bs => b.setWidth 64 ||| (wordOf bs <<< 8)

/-- `bswap_N(v)` for N = 8·n: the order of the first `n` bytes reversed, the bits above them 0 (00_scope.md R16). -/
def bswap (n : Nat) (v : Word) : Word := wordOf (bytesOf n v).reverse

/-- `sext_64(v, N)` (00_scope.md R10). -/
def sext64 (v : Word) (n : Nat) : Word :=
  if v.getLsbD (n - 1) then v + BitVec.ofNat 64 (2 ^ 64 - 2 ^ n) else v

/-- `signed_N(v)`: the integer whose N-bit two's complement is `v` (00_scope.md R10). -/
def signedOf (v : Word) (n : Nat) : Int :=
  if v.getLsbD (n - 1) then (v.toNat : Int) - 2 ^ n else v.toNat

end Sys2Proof.Machine
end

