-- ==== Sys2Proof/Machine/State.lean ====
section
/-! DEFINITION. The state of SCODEC: the registers of 10_state.md R30, and the model's view of the host port. Plain
data. A register with reserved bits is held as its fields alone: reserved bits read 0 and ignore writes, so they have
no storage (10_state.md R40, R47, R54, R57, R61, R62; DEDUCED, safe, log entry 4). -/

namespace Sys2Proof.Machine

/-- STATUS (10_state.md R36 to R40). -/
structure Status where
  /-- CODE, bits 3:0 (R36) -/
  code : BitVec 4
  /-- INFO, bits 15:8 (R37) -/
  info : Byte
  /-- LAST_OP, bits 23:16 (R38) -/
  lastOp : Byte
  /-- STICKY, bit 24 (R39) -/
  sticky : Bool
  deriving DecidableEq, Repr

/-- CFG, the signal descriptor (10_state.md R41 to R47). Values outside the legal ranges are held as written
(93_implementation_defined.md T14). -/
structure Cfg where
  /-- TYPE, bits 3:0 (R41) -/
  dtype : BitVec 4
  /-- ENDIAN, bit 4 (R42) -/
  endian : Endian
  /-- START, bits 15:8 (R43) -/
  start : Byte
  /-- LEN, bits 23:16 (R44) -/
  len : Byte
  /-- SIG_EXT, bit 31 (R45) -/
  sigExt : Bool
  /-- SIG_ID, bits 60:32 (R46) -/
  sigId : BitVec 29
  deriving DecidableEq, Repr

/-- FRAME_CTL (10_state.md R55 to R57). -/
structure FrameCtl where
  /-- DLC, bits 3:0 (R55) -/
  dlc : BitVec 4
  /-- EXT, bit 8 (R56) -/
  ext : Bool
  /-- RTR, bit 9 (R57) -/
  rtr : Bool
  deriving DecidableEq, Repr

/-- A 32-byte line buffer, TXLINE0 to TXLINE3 or RXLINE0 to RXLINE3 (10_state.md R63, R64). -/
structure LineBuf where
  w0 : Word
  w1 : Word
  w2 : Word
  w3 : Word
  deriving DecidableEq, Repr

/-- The block never faults: an error is a status code and the machine goes on (60_exceptions.md R270), and "No
behaviour of the block is `any value`" (93_implementation_defined.md section 2). Safe: there is no constructor, so
nobody raises one (DEDUCED, log entry 6). -/
inductive Fault where
  deriving DecidableEq, Repr

/-- The host steps that have no successor. -/
inductive Refusal where
  /-- A command of the table that has no meaning yet; raised by an arm of exec. Safe: the model stops. No arm of this
  model raises it. -/
  | notModelled (mnemonic : String)
  /-- A host access that is not 64 bits wide (20_memory.md R82); raised by the host port. Safe: the spec gives such an
  access no meaning and no successor. -/
  | accessWidth (bits : Nat)
  /-- A 64-bit host access at an offset of 0x100 or more (20_memory.md R82); raised by the host port. Safe: the spec
  gives it no successor. -/
  | accessOutsideWindow (off : Nat)
  /-- A 64-bit host access inside the window at an offset that is not a multiple of 8 (20_memory.md R82); raised by
  the host port. Safe: the spec gives it no successor. -/
  | accessMisaligned (off : Nat)
  deriving DecidableEq, Repr

/-- The machine. CMD holds no value, so it has no field (10_state.md R30, R35). -/
structure State where
  /-- CAPS: the parameters, constant (10_state.md R34) -/
  params : Params
  /-- STATUS (10_state.md R36 to R40) -/
  status : Status
  /-- CFG (10_state.md R41 to R47) -/
  cfg : Cfg
  /-- VALUE (10_state.md R48) -/
  value : Word
  /-- PAYLOAD_IN (10_state.md R49) -/
  payloadIn : Word
  /-- PAYLOAD_OUT (10_state.md R50) -/
  payloadOut : Word
  /-- RESULT_WORD (10_state.md R51) -/
  resultWord : Word
  /-- RESULT_VALUE (10_state.md R52) -/
  resultValue : Word
  /-- TS_IN (10_state.md R53) -/
  tsIn : Word
  /-- FRAME_ID.ID, bits 28:0 (10_state.md R54) -/
  frameId : BitVec 29
  /-- FRAME_CTL (10_state.md R55 to R57) -/
  frameCtl : FrameCtl
  /-- FRAME_DATA (10_state.md R58) -/
  frameData : Word
  /-- FRAME_TS (10_state.md R59) -/
  frameTs : Word
  /-- TXLEN, bits 7:0 (10_state.md R61) -/
  txLen : Byte
  /-- RXLEN, bits 7:0 (10_state.md R62) -/
  rxLen : Byte
  /-- TXLINE0 to TXLINE3 (10_state.md R63) -/
  txLine : LineBuf
  /-- RXLINE0 to RXLINE3 (10_state.md R64) -/
  rxLine : LineBuf
  /-- The MODEL's own: the host's accesses still to be performed, the next one first (DESIGN CHOICE, safe, log entry
  2). The block holds no such queue (10_state.md R67): it stands for the host. -/
  hostQueue : List HostAccess
  /-- The MODEL's own: what the host port answered to the most recent access, `none` after a write or a reset (DESIGN
  CHOICE, safe, log entry 2). -/
  hostData : Option Word
  deriving DecidableEq, Repr

/-- The machine right after reset (10_state.md R68, 70_reset_and_hazards.md R300): every register 0, and CAPS the
constant of the spec's default parameters (log entry 1). The host has issued nothing yet (log entry 2). -/
def State.reset : State where
  params := Params.default
  status := { code := 0, info := 0, lastOp := 0, sticky := false }
  cfg := { dtype := 0, endian := .intel, start := 0, len := 0, sigExt := false, sigId := 0 }
  value := 0
  payloadIn := 0
  payloadOut := 0
  resultWord := 0
  resultValue := 0
  tsIn := 0
  frameId := 0
  frameCtl := { dlc := 0, ext := false, rtr := false }
  frameData := 0
  frameTs := 0
  txLen := 0
  rxLen := 0
  txLine := { w0 := 0, w1 := 0, w2 := 0, w3 := 0 }
  rxLine := { w0 := 0, w1 := 0, w2 := 0, w3 := 0 }
  hostQueue := []
  hostData := none

end Sys2Proof.Machine
end

