-- ==== Sys2Proof/Machine/Flags.lean ====
section
/-! DEFINITION. STATUS, the block's only flags (10_state.md R69): the status codes, what a command that completes and
a command that raises write, the write-1-to-clear bit, and the register's word. -/

namespace Sys2Proof.Machine

/-- The six error conditions (60_exceptions.md R271). -/
inductive ErrorCode where
  | invalidFieldSpec
  | valueNotFinite
  | illegalCommand
  | frameInvalid
  | frameUnsupported
  | lineMalformed
  deriving DecidableEq, Repr

/-- The number of an error condition in STATUS.CODE (60_exceptions.md R271). -/
def ErrorCode.number (c : ErrorCode) : BitVec 4 :=
  match c with
  | .invalidFieldSpec => 1
  | .valueNotFinite => 2
  | .illegalCommand => 3
  | .frameInvalid => 4
  | .frameUnsupported => 5
  | .lineMalformed => 6

/-- An error a command raises: `raise CODE(info)` (00_scope.md R13). -/
structure Raised where
  code : ErrorCode
  info : Byte
  deriving DecidableEq, Repr

/-- STATUS after `complete` (00_scope.md R13): CODE 0, INFO 0, LAST_OP the command's OP, STICKY unchanged. -/
def Status.completed (st : Status) (op : Byte) : Status :=
  { code := 0, info := 0, lastOp := op, sticky := st.sticky }

/-- STATUS after `raise` (00_scope.md R13, 60_exceptions.md R275): CODE, INFO, LAST_OP, and STICKY set. It depends on
nothing STATUS held before (60_exceptions.md R281). -/
def Status.raised (op : Byte) (e : Raised) : Status :=
  { code := e.code.number, info := e.info, lastOp := op, sticky := true }

/-- STATUS after a host write of `v`: bit 24 clears STICKY, everything else is ignored (10_state.md R39, R40). -/
def Status.hostWritten (st : Status) (v : Word) : Status :=
  { st with sticky := st.sticky && !v.getLsbD 24 }

/-- STATUS as the host reads it (10_state.md R36 to R40). -/
def Status.word (st : Status) : Word :=
  fieldAt 0 st.code ||| fieldAt 8 st.info ||| fieldAt 16 st.lastOp ||| fieldAt 24 (bit st.sticky)

end Sys2Proof.Machine
end

