-- ==== Sys2Proof/Machine/Operands.lean ====
section
/-! DEFINITION. The operands of the commands: the registers' fields as words, the data types, the field check of the
codec commands and the line bytes of the FSER commands (10_state.md R33 to R64, 30_encoding.md R115 to R121,
40_codec_datapath.md R140 to R142). -/

namespace Sys2Proof.Machine

/-- The code of MOTO_SWAP (00_scope.md R6). -/
def swapCode (m : MotoSwap) : BitVec 2 :=
  match m with
  | .none => 0
  | .floatOnly => 1
  | .allMultibyte => 2

/-- CAPS as the host reads it: HAS_FSER in bit 0, MOTO_SWAP in bits 2:1, the rest 0 (10_state.md R34). -/
def capsWord (p : Params) : Word := fieldAt 0 (bit p.hasFser) ||| fieldAt 1 (swapCode p.motoSwap)

/-- The code of an endianness (30_encoding.md R117). -/
def endianCode (e : Endian) : BitVec 1 :=
  match e with
  | .intel => 0
  | .motorola => 1

/-- The endianness of a code (30_encoding.md R117): both values are legal. -/
def endianOf (b : Bool) : Endian := if b then .motorola else .intel

/-- CFG as the host reads it (10_state.md R41 to R47). -/
def Cfg.word (c : Cfg) : Word :=
  fieldAt 0 c.dtype ||| fieldAt 4 (endianCode c.endian) ||| fieldAt 8 c.start ||| fieldAt 16 c.len
    ||| fieldAt 31 (bit c.sigExt) ||| fieldAt 32 c.sigId

/-- CFG after a host write of `v` (10_state.md R41 to R47). -/
def Cfg.ofWord (v : Word) : Cfg where
  dtype := v.extractLsb' 0 4
  endian := endianOf (v.getLsbD 4)
  start := v.extractLsb' 8 8
  len := v.extractLsb' 16 8
  sigExt := v.getLsbD 31
  sigId := v.extractLsb' 32 29

/-- FRAME_CTL as the host reads it (10_state.md R55 to R57). -/
def FrameCtl.word (c : FrameCtl) : Word :=
  fieldAt 0 c.dlc ||| fieldAt 8 (bit c.ext) ||| fieldAt 9 (bit c.rtr)

/-- FRAME_CTL after a host write of `v` (10_state.md R55 to R57). -/
def FrameCtl.ofWord (v : Word) : FrameCtl where
  dlc := v.extractLsb' 0 4
  ext := v.getLsbD 8
  rtr := v.getLsbD 9

/-- The data type of a TYPE code; codes 11 to 15 are unrecognised (30_encoding.md R115, R116). -/
def dataTypeOf (code : BitVec 4) : Option DataType :=
  match code.toNat with
  | 0 => some .flag
  | 1 => some .u8
  | 2 => some .s8
  | 3 => some .u16
  | 4 => some .s16
  | 5 => some .u32
  | 6 => some .s32
  | 7 => some .u64
  | 8 => some .s64
  | 9 => some .f32
  | 10 => some .f64
  | _ => none

/-- The TYPE code of a data type (30_encoding.md R115). -/
def typeCode (t : DataType) : BitVec 4 :=
  match t with
  | .flag => 0
  | .u8 => 1
  | .s8 => 2
  | .u16 => 3
  | .s16 => 4
  | .u32 => 5
  | .s32 => 6
  | .u64 => 7
  | .s64 => 8
  | .f32 => 9
  | .f64 => 10

/-- The type width W(t) (40_codec_datapath.md R140). -/
def typeWidth (t : DataType) : Nat :=
  match t with
  | .flag => 1
  | .u8 => 8
  | .s8 => 8
  | .u16 => 16
  | .s16 => 16
  | .u32 => 32
  | .s32 => 32
  | .u64 => 64
  | .s64 => 64
  | .f32 => 32
  | .f64 => 64

/-- F32 and F64 are the float types (40_codec_datapath.md R141). -/
def isFloat (t : DataType) : Bool :=
  match t with
  | .f32 => true
  | .f64 => true
  | .flag => false
  | .u8 => false
  | .s8 => false
  | .u16 => false
  | .s16 => false
  | .u32 => false
  | .s32 => false
  | .u64 => false
  | .s64 => false

/-- S8, S16, S32 and S64 are the signed integer types (40_codec_datapath.md R141). -/
def isSigned (t : DataType) : Bool :=
  match t with
  | .s8 => true
  | .s16 => true
  | .s32 => true
  | .s64 => true
  | .flag => false
  | .u8 => false
  | .u16 => false
  | .u32 => false
  | .u64 => false
  | .f32 => false
  | .f64 => false

/-- The field specification a codec command forms from CFG once it has checked it (30_encoding.md R120). -/
structure FieldSpec where
  dtype : DataType
  endian : Endian
  start : Nat
  len : Nat
  deriving DecidableEq, Repr

/-- `checkSpec` (40_codec_datapath.md R142), the operand assembly of a codec command with its check, TYPE before START
before LEN (60_exceptions.md R273, R279). -/
def checkSpec (c : Cfg) : Except Raised FieldSpec :=
  match dataTypeOf c.dtype with
  | none => .error { code := .invalidFieldSpec, info := 1 }
  | some t =>
    if 64 ≤ c.start.toNat then .error { code := .invalidFieldSpec, info := 2 }
    else if c.len.toNat = 0 ∨ 65 ≤ c.len.toNat then .error { code := .invalidFieldSpec, info := 3 }
    else .ok { dtype := t, endian := c.endian, start := c.start.toNat, len := c.len.toNat }

/-- The 32 bytes of a line buffer in line order (10_state.md R63, R64): byte i at bits 8(i mod 8)+7:8(i mod 8) of word
i/8. -/
def LineBuf.bytes (b : LineBuf) : List Byte :=
  bytesOf 8 b.w0 ++ (bytesOf 8 b.w1 ++ (bytesOf 8 b.w2 ++ bytesOf 8 b.w3))

/-- The line buffer that holds a list of bytes from byte 0 on, the rest 0 (10_state.md R63). -/
def LineBuf.ofBytes (l : List Byte) : LineBuf where
  w0 := wordOf (l.take 8)
  w1 := wordOf ((l.drop 8).take 8)
  w2 := wordOf ((l.drop 16).take 8)
  w3 := wordOf ((l.drop 24).take 8)

end Sys2Proof.Machine
end

