-- ==== Sys2Proof/Machine/Datapath.lean ====
section
/-! DEFINITION. The codec datapath (40_codec_datapath.md): a value to its type-width word, the word into the payload,
and both ways back. -/

namespace Sys2Proof.Machine

/-- The numeric conversion of a value to its type-width word (40_codec_datapath.md R143 to R149, R151), before any byte
swap. An integer type refuses a NaN and an infinity (R144); a float type accepts every value. -/
def typeWord (t : DataType) (x : Word) : Except Raised Word :=
  match t with
  | .f32 => .ok (narrow32 x)
  | .f64 => .ok x
  | .flag | .u8 | .s8 | .u16 | .s16 | .u32 | .s32 | .u64 | .s64 =>
    if binary64.isNaN x.toNat then .error { code := .valueNotFinite, info := 1 }
    else if binary64.isInf x.toNat then .error { code := .valueNotFinite, info := 2 }
    else .ok (BitVec.ofNat 64 (roundHalfAway (binary64.exactOf x.toNat) % 2 ^ typeWidth t).toNat)

/-- `swapApplies` (40_codec_datapath.md R150). -/
def swapApplies (m : MotoSwap) (t : DataType) (e : Endian) : Bool :=
  match e with
  | .intel => false
  | .motorola =>
    decide (16 ≤ typeWidth t) &&
      (match m with
      | .none => false
      | .floatOnly => isFloat t
      | .allMultibyte => true)

/-- The Motorola byte swap, before placement and after extraction (40_codec_datapath.md R150, R163). -/
def motoSwapWord (m : MotoSwap) (t : DataType) (e : Endian) (w : Word) : Word :=
  if swapApplies m t e then bswap (typeWidth t / 8) w else w

/-- The effective start s, which may be negative (40_codec_datapath.md R152). -/
def effStart (f : FieldSpec) : Int :=
  match f.endian with
  | .intel => f.start
  | .motorola => (f.start : Int) + (8 - (typeWidth f.dtype : Int))

/-- The truncated length L', from the raw START (40_codec_datapath.md R153). -/
def truncLen (f : FieldSpec) : Nat := min f.len (64 - f.start)

/-- The field mask M (40_codec_datapath.md R154). -/
def fieldMask (f : FieldSpec) : Word := lowMask (truncLen f)

/-- Placement of a type-width word into the payload (40_codec_datapath.md R155, R156). Bits at position 64 or above are
discarded; every bit outside the field is 0 (R158). -/
def place (f : FieldSpec) (w : Word) : Word :=
  if 0 ≤ effStart f then (w &&& fieldMask f) <<< (effStart f).toNat
  else (w >>> (-effStart f).toNat) &&& (fieldMask f >>> (-effStart f).toNat)

/-- Extraction of the field from a payload (40_codec_datapath.md R160, R161). -/
def extract (f : FieldSpec) (p : Word) : Word :=
  if 0 ≤ effStart f then (p >>> (effStart f).toNat) &&& fieldMask f
  else (p &&& (fieldMask f >>> (-effStart f).toNat)) <<< (-effStart f).toNat

/-- The decoded word, RESULT_WORD (40_codec_datapath.md R164). -/
def resultWordOf (t : DataType) (w : Word) : Word := if isSigned t then sext64 w (typeWidth t) else w

/-- The decoded value, RESULT_VALUE (40_codec_datapath.md R165 to R167). -/
def resultValueOf (t : DataType) (w : Word) : Word :=
  match t with
  | .f64 => w
  | .f32 => widen32 w
  | .s8 | .s16 | .s32 | .s64 => toBinary64 (signedOf w (typeWidth t))
  | .flag | .u8 | .u16 | .u32 | .u64 => toBinary64 w.toNat

/-- The word `encodeWord` stores for a value: converted, then swapped where the build swaps. -/
def storedWord (m : MotoSwap) (f : FieldSpec) (x : Word) : Except Raised Word :=
  match typeWord f.dtype x with
  | .error e => .error e
  | .ok w => .ok (motoSwapWord m f.dtype f.endian w)

/-- `encodeWord` (40_codec_datapath.md section 4): the payload, or the error raised. -/
def encodeWord (m : MotoSwap) (c : Cfg) (x : Word) : Except Raised Word :=
  match checkSpec c with
  | .error e => .error e
  | .ok f =>
    match storedWord m f x with
    | .error e => .error e
    | .ok w => .ok (place f w)

/-- The type-width word of a payload: extracted, cut to the type's width (40_codec_datapath.md R162), unswapped (R163). -/
def fieldWord (m : MotoSwap) (f : FieldSpec) (p : Word) : Word :=
  motoSwapWord m f.dtype f.endian (extract f p &&& lowMask (typeWidth f.dtype))

/-- `decodeWord` (40_codec_datapath.md section 6): the decoded word and value, or the error raised. -/
def decodeWord (m : MotoSwap) (c : Cfg) (p : Word) : Except Raised (Word × Word) :=
  match checkSpec c with
  | .error e => .error e
  | .ok f =>
    .ok (resultWordOf f.dtype (fieldWord m f p), resultValueOf f.dtype (fieldWord m f p))

end Sys2Proof.Machine
end

