-- ==== Sys2Proof/Machine/Ops.lean ====
section
/-! DEFINITION. The named operations over the registers: how a command ends (00_scope.md R13), the host's read and write
of one register (20_memory.md R83 to R85, 10_state.md R33 to R64), and reset (70_reset_and_hazards.md R300). -/

namespace Sys2Proof.Machine

/-- What the machine answers to a step. -/
abbrev Result := Host.Outcome State Fault Refusal

/-- Taking an exception: `raise CODE(info)` of the command `op` (00_scope.md R13, 60_exceptions.md R275). STATUS is
written; nothing else changes. There is no vector, no saved state and no mode (60_exceptions.md R270), and no return
from it: the next command runs normally (R281). -/
def State.raise (s : State) (op : Byte) (e : Raised) : State := { s with status := Status.raised op e }

/-- `complete` of the command `op` (00_scope.md R13). -/
def State.complete (s : State) (op : Byte) : State := { s with status := s.status.completed op }

/-- How a command ends, all or nothing (41_codec_commands.md R190): with the state that has all its outputs written it
completes; with an error none of them is written. Either way there is a next state. -/
def State.finish (s : State) (op : Byte) (r : Except Raised State) : Result :=
  match r with
  | .ok t => .next (t.complete op)
  | .error e => .next (s.raise op e)

/-- A register of the optional FSER unit reads 0 when the unit is absent (10_state.md R60). -/
def State.fserWord (s : State) (w : Word) : Word := if s.params.hasFser then w else 0

/-- A host write to a register of the FSER unit is ignored when the unit is absent (10_state.md R60). -/
def State.ifFser (s : State) (t : State) : State := if s.params.hasFser then t else s

/-- The word the host reads from a register (10_state.md R33 to R64). CMD reads 0 (R35). A read changes nothing
(20_memory.md R85). -/
def readReg (r : Reg) (s : State) : Word :=
  match r with
  | .caps => capsWord s.params
  | .cmd => 0
  | .status => s.status.word
  | .cfg => s.cfg.word
  | .value => s.value
  | .payloadIn => s.payloadIn
  | .payloadOut => s.payloadOut
  | .resultWord => s.resultWord
  | .resultValue => s.resultValue
  | .tsIn => s.tsIn
  | .frameId => s.frameId.setWidth 64
  | .frameCtl => s.frameCtl.word
  | .frameData => s.frameData
  | .frameTs => s.frameTs
  | .txLen => s.fserWord (s.txLen.setWidth 64)
  | .rxLen => s.fserWord (s.rxLen.setWidth 64)
  | .txLine0 => s.fserWord s.txLine.w0
  | .txLine1 => s.fserWord s.txLine.w1
  | .txLine2 => s.fserWord s.txLine.w2
  | .txLine3 => s.fserWord s.txLine.w3
  | .rxLine0 => s.fserWord s.rxLine.w0
  | .rxLine1 => s.fserWord s.rxLine.w1
  | .rxLine2 => s.fserWord s.rxLine.w2
  | .rxLine3 => s.fserWord s.rxLine.w3

/-- The state after the host writes `v` to a register other than CMD (20_memory.md R84, R91; 10_state.md R39 to R64):
read-only registers and reserved bits ignore it, STATUS clears STICKY by bit 24, the rest is stored. CMD is the host
port's, which runs the command (10_state.md R35); CMD itself stores nothing. -/
def writeReg (r : Reg) (v : Word) (s : State) : State :=
  match r with
  | .caps => s
  | .cmd => s
  | .status => { s with status := s.status.hostWritten v }
  | .cfg => { s with cfg := Cfg.ofWord v }
  | .value => { s with value := v }
  | .payloadIn => { s with payloadIn := v }
  | .payloadOut => s
  | .resultWord => s
  | .resultValue => s
  | .tsIn => { s with tsIn := v }
  | .frameId => { s with frameId := v.extractLsb' 0 29 }
  | .frameCtl => { s with frameCtl := FrameCtl.ofWord v }
  | .frameData => { s with frameData := v }
  | .frameTs => { s with frameTs := v }
  | .txLen => s
  | .rxLen => s.ifFser { s with rxLen := v.extractLsb' 0 8 }
  | .txLine0 => s
  | .txLine1 => s
  | .txLine2 => s
  | .txLine3 => s
  | .rxLine0 => s.ifFser { s with rxLine := { s.rxLine with w0 := v } }
  | .rxLine1 => s.ifFser { s with rxLine := { s.rxLine with w1 := v } }
  | .rxLine2 => s.ifFser { s with rxLine := { s.rxLine with w2 := v } }
  | .rxLine3 => s.ifFser { s with rxLine := { s.rxLine with w3 := v } }

/-- The reset input (70_reset_and_hazards.md R300, R303): every register takes its reset value, the parameters stay. The
accesses the host has yet to issue are the host's own and stay (log entry 2). -/
def resetBlock (s : State) : State := { State.reset with params := s.params, hostQueue := s.hostQueue }

end Sys2Proof.Machine
end

