-- ==== Sys2Proof/Machine/Codec.lean ====
section
/-! DEFINITION. The four codec commands (41_codec_commands.md). Each reads its inputs from the state it starts in and
writes all its outputs or none (R190). -/

namespace Sys2Proof.Machine

/-- ENCODE (41_codec_commands.md R191). -/
def execEncode (s : State) : Result :=
  s.finish (opcodeOf .encode)
    (match encodeWord s.params.motoSwap s.cfg s.value with
    | .error e => .error e
    | .ok p => .ok { s with payloadOut := p })

/-- A decode of the payload `p`: RESULT_WORD and RESULT_VALUE, or the error (41_codec_commands.md R192, R194). -/
def decodeInto (p : Word) (s : State) : Except Raised State :=
  match decodeWord s.params.motoSwap s.cfg p with
  | .error e => .error e
  | .ok (rw, rv) => .ok { s with resultWord := rw, resultValue := rv }

/-- DECODE (41_codec_commands.md R192): the payload is PAYLOAD_IN. -/
def execDecode (s : State) : Result := s.finish (opcodeOf .decode) (decodeInto s.payloadIn s)

/-- A standard id has 11 bits: one above 0x7FF is refused, an extended one never (60_exceptions.md R276). -/
def idTooWide (ext : Bool) (id : BitVec 29) : Bool := !ext && decide (0x7FF < id.toNat)

/-- ENCODE_FRAME (41_codec_commands.md R193): the id is checked after the encode (60_exceptions.md R279). -/
def execEncodeFrame (s : State) : Result :=
  s.finish (opcodeOf .encodeFrame)
    (match encodeWord s.params.motoSwap s.cfg s.value with
    | .error e => .error e
    | .ok p =>
      if idTooWide s.cfg.sigExt s.cfg.sigId then .error { code := .frameInvalid, info := 2 }
      else
        .ok
          { s with
            payloadOut := p
            frameId := s.cfg.sigId
            frameCtl := { dlc := 8, ext := s.cfg.sigExt, rtr := false }
            frameData := p
            frameTs := s.tsIn })

/-- DECODE_FRAME (41_codec_commands.md R194): the payload is FRAME_DATA, all 64 bits whatever DLC says. -/
def execDecodeFrame (s : State) : Result := s.finish (opcodeOf .decodeFrame) (decodeInto s.frameData s)

end Sys2Proof.Machine
end

