-- ==== Sys2Proof/Machine/Fser.lean ====
section
/-! DEFINITION. The optional FSER unit: frame serializer and parser (42_frame_serializer.md). -/

namespace Sys2Proof.Machine

/-- ascii('t'), the marker of a standard frame line (00_scope.md R18, 42_frame_serializer.md R231). -/
def markStd : Byte := 0x74

/-- ascii('T'), the marker of an extended frame line (00_scope.md R18, 42_frame_serializer.md R232). -/
def markExt : Byte := 0x54

/-- CR, the last byte of every line (00_scope.md R18, 42_frame_serializer.md R235). -/
def carriageReturn : Byte := 0x0D

/-- `hexdigit(n)`, upper case (00_scope.md R18). -/
def hexDigit (n : Nat) : Byte := BitVec.ofNat 8 (if n ≤ 9 then 0x30 + n else 0x41 + (n - 10))

/-- `hexval(b)` of a hex digit, upper or lower case, and `none` where `ishex(b)` is false (00_scope.md R18,
42_frame_serializer.md R239). -/
def hexVal (b : Byte) : Option Nat :=
  if 0x30 ≤ b.toNat ∧ b.toNat ≤ 0x39 then some (b.toNat - 0x30)
  else if 0x41 ≤ b.toNat ∧ b.toNat ≤ 0x46 then some (b.toNat - 0x41 + 10)
  else if 0x61 ≤ b.toNat ∧ b.toNat ≤ 0x66 then some (b.toNat - 0x61 + 10)
  else none

/-- The number of id digits: 3 standard, 8 extended (42_frame_serializer.md R231, R232). -/
def idDigits (ext : Bool) : Nat := if ext then 8 else 3

/-- The largest id: 11 bits standard, 29 bits extended (42_frame_serializer.md R240). -/
def maxId (ext : Bool) : Nat := if ext then 0x1FFFFFFF else 0x7FF

/-- The last `n` hex digits of a number, most significant first (42_frame_serializer.md R233). -/
def hexDigits : Nat → Nat → List Byte
  | 0, _ => []
  | n + 1, v => hexDigit (v / 16 ^ n % 16) :: hexDigits n v

/-- Data bytes as digit pairs, high nibble first (42_frame_serializer.md R233, R234). -/
def hexPairs : List Byte → List Byte
  | [] => []
  | b :: bs => hexDigit (b.toNat / 16) :: hexDigit (b.toNat % 16) :: hexPairs bs

/-- The frame line of a frame (42_frame_serializer.md R231 to R236). -/
def frameLine (id : BitVec 29) (c : FrameCtl) (data : Word) : List Byte :=
  (if c.ext then markExt else markStd)
    :: (hexDigits (idDigits c.ext) id.toNat
      ++ (BitVec.ofNat 8 (0x30 + c.dlc.toNat) :: (hexPairs (bytesOf c.dlc.toNat data) ++ [carriageReturn])))

/-- The checks of FRAME_SERIALIZE: DLC, then the id, then RTR (42_frame_serializer.md R236, 60_exceptions.md R279). -/
def checkFrame (id : BitVec 29) (c : FrameCtl) : Except Raised Unit :=
  if 8 < c.dlc.toNat then .error { code := .frameInvalid, info := 1 }
  else if idTooWide c.ext id then .error { code := .frameInvalid, info := 2 }
  else if c.rtr then .error { code := .frameUnsupported, info := 1 }
  else .ok ()

/-- A command of the FSER unit, which raises ILLEGAL_COMMAND with INFO 3 when the unit is absent, before anything else
(42_frame_serializer.md R230, 60_exceptions.md R272, R279). -/
def withFser (s : State) (r : Except Raised State) : Except Raised State :=
  if s.params.hasFser then r else .error { code := .illegalCommand, info := 3 }

/-- FRAME_SERIALIZE (42_frame_serializer.md R236, R237). -/
def execFrameSerialize (s : State) : Result :=
  s.finish (opcodeOf .frameSerialize)
    (withFser s
      (match checkFrame s.frameId s.frameCtl with
      | .error e => .error e
      | .ok _ =>
        let line := frameLine s.frameId s.frameCtl s.frameData
        .ok { s with txLine := LineBuf.ofBytes line, txLen := BitVec.ofNat 8 line.length }))

/-- What a well-formed frame line says (42_frame_serializer.md R238). -/
structure ParsedFrame where
  ext : Bool
  id : Nat
  data : List Byte
  deriving DecidableEq, Repr

/-- Reads `n` hex digits from the bytes at index `p` on, most significant first, onto the number `acc`: the number and
the bytes left, or the index of the first byte that is missing or is no hex digit (42_frame_serializer.md R238:
`need(i)`, then `ishex(b[i])`). -/
def readHex : List Byte → Nat → Nat → Nat → Except Nat (Nat × List Byte)
  | bs, _, 0, acc => .ok (acc, bs)
  | [], p, _ + 1, _ => .error p
  | b :: bs, p, n + 1, acc =>
    match hexVal b with
    | none => .error p
    | some d => readHex bs (p + 1) n (16 * acc + d)

/-- Reads `n` data bytes, two hex digits each, from the bytes at index `p` on (42_frame_serializer.md R238). -/
def readData : List Byte → Nat → Nat → Except Nat (List Byte × List Byte)
  | bs, _, 0 => .ok ([], bs)
  | bs, p, n + 1 =>
    match readHex bs p 2 0 with
    | .error q => .error q
    | .ok (v, rest) =>
      match readData rest (p + 2) n with
      | .error q => .error q
      | .ok (ds, rest') => .ok (BitVec.ofNat 8 v :: ds, rest')

/-- Reads the end of a line, the bytes at index `p` on: one CR and nothing after it (42_frame_serializer.md R238). -/
def readEnd (bs : List Byte) (p : Nat) : Except Nat Unit :=
  match bs with
  | [] => .error p
  | b :: rest =>
    if b ≠ carriageReturn then .error p
    else
      match rest with
      | [] => .ok ()
      | _ :: _ => .error (p + 1)

/-- Reads the length digit, '0' to '8', at index `p` (42_frame_serializer.md R238, R239). -/
def readDlc (bs : List Byte) (p : Nat) : Except Nat (Nat × List Byte) :=
  match bs with
  | [] => .error p
  | b :: rest => if 0x30 ≤ b.toNat ∧ b.toNat ≤ 0x38 then .ok (b.toNat - 0x30, rest) else .error p

/-- Reads the line after its marker, the bytes at index 1 on. The id's range is checked when its last digit has been
read, before the length digit is looked at; out of range gives INFO 1 (42_frame_serializer.md R240, R241). -/
def readBody (ext : Bool) (bs : List Byte) : Except Nat ParsedFrame :=
  match readHex bs 1 (idDigits ext) 0 with
  | .error q => .error q
  | .ok (id, rest) =>
    if maxId ext < id then .error 1
    else
      match readDlc rest (1 + idDigits ext) with
      | .error q => .error q
      | .ok (dlc, rest') =>
        match readData rest' (2 + idDigits ext) dlc with
        | .error q => .error q
        | .ok (ds, rest'') =>
          match readEnd rest'' (2 + idDigits ext + 2 * dlc) with
          | .error q => .error q
          | .ok _ => .ok { ext := ext, id := id, data := ds }

/-- Parses one frame line (42_frame_serializer.md R238, R239): the frame, or the INFO of R241. -/
def parseLine (bs : List Byte) : Except Nat ParsedFrame :=
  match bs with
  | [] => .error 0
  | b :: rest =>
    if b = markStd then readBody false rest
    else if b = markExt then readBody true rest
    else .error 0

/-- FRAME_PARSE (42_frame_serializer.md R238): RXLEN above 32 raises before any byte is read (R241); the parse reads
RXLINE bytes 0 to RXLEN − 1. -/
def execFrameParse (s : State) : Result :=
  s.finish (opcodeOf .frameParse)
    (withFser s
      (if 32 < s.rxLen.toNat then .error { code := .lineMalformed, info := 0xFF }
      else
        match parseLine (s.rxLine.bytes.take s.rxLen.toNat) with
        | .error p => .error { code := .lineMalformed, info := BitVec.ofNat 8 p }
        | .ok f =>
          .ok
            { s with
              frameId := BitVec.ofNat 29 f.id
              frameCtl := { dlc := BitVec.ofNat 4 f.data.length, ext := f.ext, rtr := false }
              frameData := wordOf f.data
              frameTs := s.tsIn }))

end Sys2Proof.Machine
end

