-- ==== Sys2Proof/Machine/Dispatch.lean ====
section
/-! DEFINITION. The commands' dispatch: one arm per command of the opcode table. -/

namespace Sys2Proof.Machine

/-- The meaning of a command in a state (30_encoding.md R112). -/
def exec (i : Instr) (s : State) : Host.Outcome State Fault Refusal :=
  match i with
  | .encode => Sys2Proof.Machine.execEncode s
  | .decode => Sys2Proof.Machine.execDecode s
  | .encodeFrame => Sys2Proof.Machine.execEncodeFrame s
  | .decodeFrame => Sys2Proof.Machine.execDecodeFrame s
  | .frameSerialize => Sys2Proof.Machine.execFrameSerialize s
  | .frameParse => Sys2Proof.Machine.execFrameParse s

end Sys2Proof.Machine
end

