-- ==== Sys2Proof/Machine/HostPort.lean ====
section
/-! DEFINITION. The host port: what one access of the host does (00_scope.md R12, 20_memory.md R82 to R92,
60_exceptions.md R272), and reset. -/

namespace Sys2Proof.Machine

/-- A host write of `v` to CMD runs the command `v` selects, or raises ILLEGAL_COMMAND with INFO 2 for RSV ≠ 0 and INFO
1 for an unassigned OP (30_encoding.md R111, R113; 60_exceptions.md R272). LAST_OP records bits 7:0 of `v` in every
case. -/
def runCommand (v : Word) (s : State) : Result :=
  match decode v with
  | .ok i => exec i s
  | .error .reservedBits => .next (s.raise (opField v) { code := .illegalCommand, info := 2 })
  | .error .unassignedOp => .next (s.raise (opField v) { code := .illegalCommand, info := 1 })

/-- Why the block gives an access of `bits` bits at offset `off` no meaning, if it does not (20_memory.md R82). Which of
the three names is given when several hold is the model's choice; all of them stop (log entry 3). -/
def accessRefusal (bits off : Nat) : Option Refusal :=
  if bits ≠ 64 then some (.accessWidth bits)
  else if 0x100 ≤ off then some (.accessOutsideWindow off)
  else if off % 8 ≠ 0 then some (.accessMisaligned off)
  else none

/-- The word the host reads at a defined offset; reserved slots read 0 (20_memory.md R83). -/
def hostRead (off : Nat) (s : State) : Word :=
  match regAt off with
  | some r => readReg r s
  | none => 0

/-- A host write at a defined offset: CMD runs a command, reserved slots ignore it, the rest stores (20_memory.md R83,
R84, R91). -/
def hostWrite (off : Nat) (v : Word) (s : State) : Result :=
  match regAt off with
  | some .cmd => runCommand v s
  | some r => .next (writeReg r v s)
  | none => .next s

/-- One access of the host, whole (20_memory.md R90), in a state whose `hostData` is already clear. -/
def performAccess (a : HostAccess) (s : State) : Result :=
  match a with
  | .read bits off =>
    match accessRefusal bits off with
    | some r => .refused r
    | none => .next { s with hostData := some (hostRead off s) }
  | .write bits off v =>
    match accessRefusal bits off with
    | some r => .refused r
    | none => hostWrite off v s
  | .reset => .next (resetBlock s)

/-- The host's next access, and the state the block is in when it arrives: the access taken from the pending ones, the
host port's answer to the one before gone (20_memory.md R92; log entry 2). -/
def nextAccess (s : State) : Option (HostAccess × State) :=
  match s.hostQueue with
  | [] => none
  | a :: rest => some (a, { s with hostQueue := rest, hostData := none })

/-- While the host issues nothing the block waits: it never steps on its own (00_scope.md R3, 70_reset_and_hazards.md
R301; DEDUCED, log entry 7). -/
def waitForHost (s : State) : Result := .next s

/-- The window offset of an address of the host's own address space, if it lies in the window (20_memory.md R80, R98):
the window is the 256 bytes from BASE on (log entry 5). -/
def busOffset (addr : Nat) : Option Nat :=
  if Config.base ≤ addr ∧ addr < Config.base + 0x100 then some (addr - Config.base) else none

/-- The byte view of the window for a host that needs one: byte `off + k` is bits 8k+7:8k of the register at `off`
(20_memory.md R88). No access of the block depends on it. -/
def hostByte (off : Nat) (s : State) : Byte := (hostRead (off - off % 8) s).extractLsb' (8 * (off % 8)) 8

/-- The CMD value that an instruction's bits stand for (30_encoding.md R110): one 64-bit word, the bits above `nbits`
zero. -/
def cmdValue (nbits w : Nat) : Word := BitVec.ofNat 64 (w % 2 ^ nbits)

/-- The state in which the host's next access is a 64-bit write of `v` to CMD, the accesses already pending after it
(log entry 2). -/
def withCommandNext (v : Word) (s : State) : State :=
  { s with hostQueue := .write 64 (Reg.offset .cmd) v :: s.hostQueue }

end Sys2Proof.Machine
end

