-- ==== Sys2Proof/Machine/Step.lean ====
section
/-! DEFINITION. One step: one access of the host, with the command it starts if it writes CMD (00_scope.md R4). -/

namespace Sys2Proof.Machine

/-- One host read, host write or reset (00_scope.md R4, 70_reset_and_hazards.md R303), in the order the host issues them
(20_memory.md R92). -/
def step (s : State) : Host.Outcome State Fault Refusal :=
  match nextAccess s with
  | none => waitForHost s
  | some (a, t) => performAccess a t

/-- `s` with the command of the table whose bits are `w` as the host's next access: a 64-bit write to CMD
(30_encoding.md R110). Nothing else changes. -/
def State.withFetchWord (s : State) (nbits w : Nat) : State := withCommandNext (cmdValue nbits w) s

end Sys2Proof.Machine
end

