-- ==== Sys2Proof/Machine/HostNotation.lean ====
section
/-! DEFINITION. The host-command notation of the spec's programs (30_encoding.md R122 to R124): what each line issues on
the host port, and the host's own control flow. It is the host's, not the block's: nothing here is an operation of the
block, and step does not use it. -/

namespace Sys2Proof.Machine

/-- One line of a host program (30_encoding.md R122, R123). Labels are numbers. -/
inductive HostLine where
  /-- `wr REG, imm` -/
  | wr (r : Reg) (imm : Word)
  /-- `rd REG` -/
  | rd (r : Reg)
  /-- `cmd MNEMONIC` -/
  | cmd (i : Instr)
  /-- `cmdraw imm` -/
  | cmdraw (imm : Word)
  /-- `cfg type=T, endian=E, start=S, len=L, ext=X, id=I` -/
  | cfg (t : DataType) (e : Endian) (start len ext id : Nat)
  /-- `val x`, x the decimal ±digits/10^places -/
  | val (neg : Bool) (digits places : Nat)
  /-- `val bits:b` -/
  | valBits (b : Word)
  /-- `frame id=I, ext=X, rtr=R, dlc=D, data=B0 B1 …` -/
  | frame (id ext rtr dlc : Nat) (data : List Byte)
  /-- `line "text"` -/
  | line (text : List Byte)
  /-- `clrsticky` -/
  | clrsticky
  /-- `L:` -/
  | label (name : Nat)
  /-- `if REG.FIELD == imm goto L`, FIELD the bits hi:lo of REG; with `equal` false, `!=` -/
  | branch (r : Reg) (hi lo : Nat) (equal : Bool) (imm : Nat) (target : Nat)
  deriving DecidableEq, Repr

/-- The binary64 encoding of the decimal ±digits/10^places, or `none` when no binary64 is exactly that number: the
notation then refuses it (30_encoding.md R123). The number is exact when it is a whole multiple of 2^−1074 and the
rounded encoding gives it back. -/
def decimalBits (neg : Bool) (digits places : Nat) : Option Word :=
  let scaled := digits * 2 ^ 1074
  let m := scaled / 10 ^ places
  let b := binary64.roundTo m (-1074)
  let v := binary64.exactOf b
  if scaled % 10 ^ places = 0 ∧ b < binary64.expOnes * 2 ^ binary64.fracBits ∧ v.mant * 2 ^ (v.exp + 1074).toNat = m
  then some (BitVec.ofNat 64 (binary64.signed neg b))
  else none

/-- The CFG value of the `cfg` line (30_encoding.md R123). DESIGN CHOICE: a sum that passes 64 bits, of which the spec says
nothing, is taken mod 2^64 (log entry 9). -/
def cfgImm (t : DataType) (e : Endian) (start len ext id : Nat) : Word :=
  BitVec.ofNat 64
    ((typeCode t).toNat + 16 * (endianCode e).toNat + 256 * start + 65536 * len + 2 ^ 31 * ext + 2 ^ 32 * id)

/-- `HostWrite(offset(REG), v)` (00_scope.md R12, 30_encoding.md R122). -/
def writeOf (r : Reg) (v : Word) : HostAccess := .write 64 r.offset v

/-- The accesses a line issues, in order (30_encoding.md R122, R123), or `none` where the notation refuses the line. A
label issues nothing; a branch issues the read its test needs. DESIGN CHOICE: what a `cfg` or a `frame` line writes is
taken mod 2^64 where its arguments make it pass 64 bits, of which the spec says nothing (log entry 9). -/
def HostLine.accesses (l : HostLine) : Option (List HostAccess) :=
  match l with
  | .wr r imm => some [writeOf r imm]
  | .rd r => some [.read 64 r.offset]
  | .cmd i => some [writeOf .cmd (encode i)]
  | .cmdraw imm => some [writeOf .cmd imm]
  | .cfg t e start len ext id => some [writeOf .cfg (cfgImm t e start len ext id)]
  | .val neg digits places =>
    match decimalBits neg digits places with
    | some b => some [writeOf .value b]
    | none => none
  | .valBits b => some [writeOf .value b]
  | .frame id ext rtr dlc data =>
    some
      [writeOf .frameId (BitVec.ofNat 64 id), writeOf .frameCtl (BitVec.ofNat 64 (dlc + 256 * ext + 512 * rtr)),
        writeOf .frameData (wordOf data)]
  | .line text =>
    let b := LineBuf.ofBytes text
    some
      [writeOf .rxLine0 b.w0, writeOf .rxLine1 b.w1, writeOf .rxLine2 b.w2, writeOf .rxLine3 b.w3,
        writeOf .rxLen (BitVec.ofNat 64 text.length)]
  | .clrsticky => some [writeOf .status 0x01000000]
  | .label _ => some []
  | .branch r _ _ _ _ _ => some [.read 64 r.offset]

/-- The host issues accesses one after the other, each complete before the next (20_memory.md R92). -/
def issue : List HostAccess → State → Result
  | [], s => .next s
  | a :: rest, s =>
    match step { s with hostQueue := [a] } with
    | .next t => issue rest t
    | .fault r => .fault r
    | .refused r => .refused r

/-- The line number of a label (30_encoding.md R123). DESIGN CHOICE: where two lines carry the same label, which the spec
does not speak of, a jump goes to the first (log entry 9). -/
def labelLine (name : Nat) : List HostLine → Option Nat
  | [] => none
  | l :: ls => if l = .label name then some 0 else (labelLine name ls).map (· + 1)

/-- The line after a line whose accesses have left the block in `s`: a branch tests the word just read, and no branch is
taken anywhere but in the host (30_encoding.md R123, R124). `none` when the label is not there (log entry 9). -/
def HostLine.next (l : HostLine) (prog : List HostLine) (pc : Nat) (s : State) : Option Nat :=
  match l with
  | .branch _ hi lo equal imm target =>
    let read : Word := s.hostData.getD 0
    if (read.toNat / 2 ^ lo % 2 ^ (hi + 1 - lo) == imm) == equal then labelLine target prog else some (pc + 1)
  | .wr _ _ => some (pc + 1)
  | .rd _ => some (pc + 1)
  | .cmd _ => some (pc + 1)
  | .cmdraw _ => some (pc + 1)
  | .cfg _ _ _ _ _ _ => some (pc + 1)
  | .val _ _ _ => some (pc + 1)
  | .valBits _ => some (pc + 1)
  | .frame _ _ _ _ _ => some (pc + 1)
  | .line _ => some (pc + 1)
  | .clrsticky => some (pc + 1)
  | .label _ => some (pc + 1)

/-- A host program run from line `pc`, at most `fuel` lines: the block's answer when the program has run past its last
line or an access has stopped, `none` when the fuel is gone, a line is refused or a label is missing. -/
def runProgram (prog : List HostLine) : Nat → Nat → State → Option Result
  | 0, _, _ => none
  | fuel + 1, pc, s =>
    match prog[pc]? with
    | none => some (.next s)
    | some l =>
      match l.accesses with
      | none => none
      | some as =>
        match issue as s with
        | .next t =>
          match l.next prog pc t with
          | none => none
          | some pc' => runProgram prog fuel pc' t
        | .fault r => some (.fault r)
        | .refused r => some (.refused r)

end Sys2Proof.Machine
end

