-- ==== Sys2Proof/Safety.lean ====
section
/-! DEFINITION. The terms claims are made in: what the spec says of values, fields, frames, lines and registers, written
from its own words and not through the machine's operations. -/

namespace Sys2Proof.Machine

/-! ## Registers -/

/-- The table of the register map (10_state.md R33): the byte offset of each register. -/
def mapOffset (r : Reg) : Nat :=
  match r with
  | .caps => 0x00 | .cmd => 0x08 | .status => 0x10 | .cfg => 0x18
  | .value => 0x20 | .payloadIn => 0x28 | .payloadOut => 0x30 | .resultWord => 0x38
  | .resultValue => 0x40 | .tsIn => 0x48 | .frameId => 0x50 | .frameCtl => 0x58
  | .frameData => 0x60 | .frameTs => 0x68 | .txLen => 0x70 | .rxLen => 0x78
  | .txLine0 => 0x80 | .txLine1 => 0x88 | .txLine2 => 0x90 | .txLine3 => 0x98
  | .rxLine0 => 0xA0 | .rxLine1 => 0xA8 | .rxLine2 => 0xB0 | .rxLine3 => 0xB8

/-- The bits of a register that a host write stores (20_memory.md R84; 10_state.md R33, R41 to R64); 0 for a read-only
register, for CMD, for STATUS, whose bit 24 is no store (R39), and for every FSER register of a build without FSER
(R60). -/
def writeMask (p : Params) (r : Reg) : Word :=
  match r with
  | .caps | .cmd | .status | .payloadOut | .resultWord | .resultValue => 0
  | .txLen | .txLine0 | .txLine1 | .txLine2 | .txLine3 => 0
  | .cfg => 0x1FFFFFFF80FFFF1F
  | .frameId => 0x1FFFFFFF
  | .frameCtl => 0x30F
  | .value | .payloadIn | .tsIn | .frameData | .frameTs => 0xFFFFFFFFFFFFFFFF
  | .rxLen => if p.hasFser then 0xFF else 0
  | .rxLine0 | .rxLine1 | .rxLine2 | .rxLine3 => if p.hasFser then 0xFFFFFFFFFFFFFFFF else 0

/-- The bits of a register that are not reserved (10_state.md R34 to R64); reserved bits read 0. -/
def definedMask (r : Reg) : Word :=
  match r with
  | .caps => 0x7
  | .cmd => 0
  | .status => 0x1FFFF0F
  | .cfg => 0x1FFFFFFF80FFFF1F
  | .frameId => 0x1FFFFFFF
  | .frameCtl => 0x30F
  | .txLen | .rxLen => 0xFF
  | .value | .payloadIn | .payloadOut | .resultWord | .resultValue | .tsIn | .frameData | .frameTs => 0xFFFFFFFFFFFFFFFF
  | .txLine0 | .txLine1 | .txLine2 | .txLine3 => 0xFFFFFFFFFFFFFFFF
  | .rxLine0 | .rxLine1 | .rxLine2 | .rxLine3 => 0xFFFFFFFFFFFFFFFF

/-- The registers of the optional FSER unit (10_state.md R60). -/
def isFserReg (r : Reg) : Bool :=
  match r with
  | .txLen | .rxLen | .txLine0 | .txLine1 | .txLine2 | .txLine3 | .rxLine0 | .rxLine1 | .rxLine2 | .rxLine3 => true
  | .caps | .cmd | .status | .cfg | .value | .payloadIn | .payloadOut | .resultWord | .resultValue | .tsIn => false
  | .frameId | .frameCtl | .frameData | .frameTs => false

/-- The codec commands (41_codec_commands.md R190). -/
def isCodecCommand (i : Instr) : Bool :=
  match i with
  | .encode | .decode | .encodeFrame | .decodeFrame => true
  | .frameSerialize | .frameParse => false

/-- The value of CAPS: HAS_FSER + 2·code(MOTO_SWAP), the codes being 0, 1 and 2 (00_scope.md R6, 10_state.md R34). -/
def capsValue (p : Params) : Word :=
  (if p.hasFser then 1 else 0)
    + match p.motoSwap with
      | .none => 0
      | .floatOnly => 2
      | .allMultibyte => 4

/-! ## Data types -/

/-- A row of the data type table (30_encoding.md R115): the code of CFG.TYPE, the width, and the class, which is that of
the float types, of the signed or of the unsigned integer types (40_codec_datapath.md R141). -/
structure TypeRow where
  code : BitVec 4
  width : Nat
  signed : Bool
  float : Bool
  deriving DecidableEq, Repr

/-- The data type table (30_encoding.md R115; 40_codec_datapath.md R140, R141). -/
def typeRow (t : DataType) : TypeRow :=
  match t with
  | .flag => { code := 0, width := 1, signed := false, float := false }
  | .u8 => { code := 1, width := 8, signed := false, float := false }
  | .s8 => { code := 2, width := 8, signed := true, float := false }
  | .u16 => { code := 3, width := 16, signed := false, float := false }
  | .s16 => { code := 4, width := 16, signed := true, float := false }
  | .u32 => { code := 5, width := 32, signed := false, float := false }
  | .s32 => { code := 6, width := 32, signed := true, float := false }
  | .u64 => { code := 7, width := 64, signed := false, float := false }
  | .s64 => { code := 8, width := 64, signed := true, float := false }
  | .f32 => { code := 9, width := 32, signed := false, float := true }
  | .f64 => { code := 10, width := 64, signed := false, float := true }

/-! ## Values -/

/-- A binary64 pattern that is neither a NaN nor an infinity: its exponent field is not all ones (00_scope.md R17). -/
abbrev Finite64 (x : Word) : Prop := x.extractLsb' 52 11 ≠ 0x7FF

/-- A binary64 NaN (00_scope.md R17). -/
abbrev NaN64 (x : Word) : Prop := x.extractLsb' 52 11 = 0x7FF ∧ x.extractLsb' 0 52 ≠ 0

/-- A binary64 infinity (00_scope.md R17). -/
abbrev Inf64 (x : Word) : Prop := x.extractLsb' 52 11 = 0x7FF ∧ x.extractLsb' 0 52 = 0

/-- A word that holds a binary32 pattern in bits 31:0 and 0 above, which is neither a NaN nor an infinity. -/
abbrev Finite32 (w : Word) : Prop := w.toNat < 2 ^ 32 ∧ w.extractLsb' 23 8 ≠ 0xFF

/-- A binary32 NaN, in bits 31:0 of a word (00_scope.md R17). -/
abbrev NaN32 (w : Word) : Prop := w.extractLsb' 23 8 = 0xFF ∧ w.extractLsb' 0 23 ≠ 0

/-- The real number a finite binary64 pattern denotes (00_scope.md R17): sign bit 63, exponent bits 62:52, fraction bits
51:0, bias 1023; (−1)^sign · fraction · 2^(1−1023−52) with exponent field 0, and
(−1)^sign · (2^52 + fraction) · 2^(exponent−1023−52) otherwise. -/
def real64 (x : Word) : ℚ :=
  (if x.getLsbD 63 then -1 else 1)
    * (if x.extractLsb' 52 11 = 0 then ((x.extractLsb' 0 52).toNat : ℚ) * 2 ^ (-1074 : ℤ)
      else (2 ^ 52 + (x.extractLsb' 0 52).toNat : ℚ) * 2 ^ (((x.extractLsb' 52 11).toNat : ℤ) - 1075))

/-- The real number a finite binary32 pattern, in bits 31:0, denotes (00_scope.md R17): sign bit 31, exponent bits 30:23,
fraction bits 22:0, bias 127. -/
def real32 (w : Word) : ℚ :=
  (if w.getLsbD 31 then -1 else 1)
    * (if w.extractLsb' 23 8 = 0 then ((w.extractLsb' 0 23).toNat : ℚ) * 2 ^ (-149 : ℤ)
      else (2 ^ 23 + (w.extractLsb' 0 23).toNat : ℚ) * 2 ^ (((w.extractLsb' 23 8).toNat : ℤ) - 150))

/-- `roundHalfAway` as 00_scope.md R15 writes it, over the rationals. -/
def roundHalfAwayQ (x : ℚ) : ℤ := if 0 ≤ x then ⌊x + 1 / 2⌋ else -⌊-x + 1 / 2⌋

/-- The type-width word of a value that its type accepts (40_codec_datapath.md R145 to R149), with R145's rounding
written over the rationals. -/
def valueWord (t : DataType) (x : Word) : Word :=
  match t with
  | .f32 => narrow32 x
  | .f64 => x
  | .flag | .u8 | .s8 | .u16 | .s16 | .u32 | .s32 | .u64 | .s64 =>
    BitVec.ofNat 64 (roundHalfAwayQ (real64 x) % 2 ^ typeWidth t).toNat

/-- The integers of an integer type's range (40_codec_datapath.md R168, "representable v"): unsigned 0 to 2^W − 1, signed
−2^(W−1) to 2^(W−1) − 1. -/
def inTypeRange (t : DataType) (n : ℤ) : Prop :=
  if t ∈ [.s8, .s16, .s32, .s64] then -(2 ^ ((typeRow t).width - 1)) ≤ n ∧ n < 2 ^ ((typeRow t).width - 1)
  else 0 ≤ n ∧ n < 2 ^ (typeRow t).width

/-! ## Fields -/

/-- A START and a LEN in range (40_codec_datapath.md R142). -/
abbrev FieldSpec.Legal (f : FieldSpec) : Prop := f.start ≤ 63 ∧ 1 ≤ f.len ∧ f.len ≤ 64

/-- CFG passes the field check (40_codec_datapath.md R142). -/
abbrev Cfg.Legal (c : Cfg) : Prop := c.dtype.toNat ≤ 10 ∧ c.start.toNat ≤ 63 ∧ 1 ≤ c.len.toNat ∧ c.len.toNat ≤ 64

/-- The field of a CFG whose TYPE is `t` (30_encoding.md R120). -/
def Cfg.field (c : Cfg) (t : DataType) : FieldSpec :=
  { dtype := t, endian := c.endian, start := c.start.toNat, len := c.len.toNat }

/-- The kept mask K (40_codec_datapath.md R168). -/
def keptMask (f : FieldSpec) : Word :=
  if 64 ≤ effStart f then 0
  else if 0 ≤ effStart f then lowMask (min (truncLen f) (64 - (effStart f).toNat))
  else if (-effStart f).toNat < truncLen f then lowMask (truncLen f) - lowMask (-effStart f).toNat
  else 0

/-- The payload bits an encode can set (40_codec_datapath.md R169). -/
abbrev inFootprint (f : FieldSpec) (i : Nat) : Prop :=
  if 0 ≤ effStart f then (effStart f).toNat ≤ i ∧ i < min ((effStart f).toNat + truncLen f) 64
  else i + (-effStart f).toNat < truncLen f

/-! ## Frames and frame lines -/

/-- The source's Frame invariants (10_state.md R65, 42_frame_serializer.md R242): the id fits its kind, the data length is
0 to 8, and the payload bytes at and above it are 0. -/
abbrev FrameValid (s : State) : Prop :=
  (s.frameCtl.ext = false → s.frameId.toNat ≤ 0x7FF) ∧ s.frameCtl.dlc.toNat ≤ 8
    ∧ ∀ k : Fin 8, s.frameCtl.dlc.toNat ≤ k.val → s.frameData.extractLsb' (8 * k.val) 8 = 0

/-- `ishex(b)` (00_scope.md R18, 42_frame_serializer.md R239). -/
abbrev IsHex (b : Byte) : Prop :=
  (0x30 ≤ b.toNat ∧ b.toNat ≤ 0x39) ∨ (0x41 ≤ b.toNat ∧ b.toNat ≤ 0x46) ∨ (0x61 ≤ b.toNat ∧ b.toNat ≤ 0x66)

/-- `hexval(b)` of a hex digit (00_scope.md R18). -/
def hexNibble (b : Byte) : Nat :=
  if b.toNat ≤ 0x39 then b.toNat - 0x30 else if b.toNat ≤ 0x46 then b.toNat - 0x37 else b.toNat - 0x57

/-- The number hex digits spell, most significant first (42_frame_serializer.md R233). -/
def hexNumber (ds : List Byte) : Nat := ds.foldl (fun acc b => 16 * acc + hexNibble b) 0

/-- The bytes that digit pairs spell, high nibble first (42_frame_serializer.md R233, R234). -/
def pairBytes : List Byte → List Byte
  | a :: b :: rest => BitVec.ofNat 8 (16 * hexNibble a + hexNibble b) :: pairBytes rest
  | _ => []

/-- A hex digit in upper case. -/
def upperHex (b : Byte) : Byte := if 0x61 ≤ b.toNat ∧ b.toNat ≤ 0x66 then b - 0x20 else b

/-- The bytes of a frame line's parts: marker, id digits, length digit, data digits, CR (42_frame_serializer.md R231,
R232, R235). -/
def lineOf (ext : Bool) (ids : List Byte) (dlc : Nat) (ds : List Byte) : List Byte :=
  (if ext then 0x54 else 0x74) :: (ids ++ (BitVec.ofNat 8 (0x30 + dlc) :: (ds ++ [0x0D])))

/-- The parts the grammar allows (42_frame_serializer.md R239): 3 or 8 id digits, a length of 0 to 8, two data digits a
byte, every digit a hex digit. -/
abbrev PartsOk (ext : Bool) (ids : List Byte) (dlc : Nat) (ds : List Byte) : Prop :=
  ids.length = (if ext then 8 else 3) ∧ (∀ b ∈ ids, IsHex b) ∧ dlc ≤ 8 ∧ ds.length = 2 * dlc ∧ ∀ b ∈ ds, IsHex b

/-- The largest id of a frame kind: 11 bits standard, 29 bits extended (42_frame_serializer.md R240). -/
def idLimit (ext : Bool) : Nat := if ext then 2 ^ 29 - 1 else 2 ^ 11 - 1

/-- The bytes have the grammar of 42_frame_serializer.md R239, whatever number the id digits spell. -/
def LineShape (bs : List Byte) : Prop := ∃ ext ids dlc ds, PartsOk ext ids dlc ds ∧ bs = lineOf ext ids dlc ds

/-- The bytes begin with a marker and all its id digits, and these spell a number too large for the frame kind
(42_frame_serializer.md R240). -/
def IdOutOfRange (bs : List Byte) : Prop :=
  ∃ ext ids rest, ids.length = (if ext then 8 else 3) ∧ (∀ b ∈ ids, IsHex b) ∧ idLimit ext < hexNumber ids
    ∧ bs = (if ext then 0x54 else 0x74) :: (ids ++ rest)

/-- `p` is the index of the first byte, scanning from byte 0, that breaks the grammar (42_frame_serializer.md R241): the
bytes before it begin some line, and with it they begin none; a line that ends too soon breaks it at its length. -/
def FirstBreak (bs : List Byte) (p : Nat) : Prop :=
  p ≤ bs.length ∧ (∃ more, LineShape (bs.take p ++ more)) ∧ (p < bs.length → ¬ ∃ more, LineShape (bs.take (p + 1) ++ more))
    ∧ ¬ LineShape bs

/-- The bytes FRAME_PARSE reads: RXLINE bytes 0 to RXLEN − 1 (10_state.md R64). -/
def rxBytes (s : State) : List Byte := s.rxLine.bytes.take s.rxLen.toNat

/-- The bytes FRAME_SERIALIZE has written: TXLINE bytes 0 to TXLEN − 1 (10_state.md R63). -/
def txBytes (s : State) : List Byte := s.txLine.bytes.take s.txLen.toNat

/-! ## The machine's invariant -/

/-- What STATUS can hold (60_exceptions.md R271): for each code, the INFO values and the commands that raise it. INFO of
LINE_MALFORMED is a byte index, at most 27 since the longest line has 27 bytes, or 0xFF (42_frame_serializer.md R241). -/
abbrev Status.Legal (st : Status) : Prop :=
  st.code.toNat ≤ 6
    ∧ (st.code = 0 → st.info = 0 ∧ st.lastOp ∈ [0x00, 0x01, 0x02, 0x03, 0x04, 0x10, 0x11])
    ∧ (st.code = 1 → st.info ∈ [1, 2, 3] ∧ st.lastOp ∈ [0x01, 0x02, 0x03, 0x04])
    ∧ (st.code = 2 → st.info ∈ [1, 2] ∧ st.lastOp ∈ [0x01, 0x03])
    ∧ (st.code = 3 → st.info ∈ [1, 2, 3])
    ∧ (st.code = 4 → (st.info = 1 ∧ st.lastOp = 0x10) ∨ (st.info = 2 ∧ st.lastOp ∈ [0x03, 0x10]))
    ∧ (st.code = 5 → st.info = 1 ∧ st.lastOp = 0x10)
    ∧ (st.code = 6 → (st.info.toNat ≤ 27 ∨ st.info = 0xFF) ∧ st.lastOp = 0x11)

/-- What TXLEN and TXLINE can hold (10_state.md R61, R63; 42_frame_serializer.md R237): no line yet, or an upper-case line
of the grammar with an id in range and its length; and 0 in every byte from TXLEN on. -/
def TxLegal (s : State) : Prop :=
  (s.txLen = 0
    ∨ ∃ ext ids dlc ds, PartsOk ext ids dlc ds ∧ hexNumber ids ≤ idLimit ext ∧ (∀ b ∈ ids ++ ds, upperHex b = b)
        ∧ s.txLen.toNat = (if ext then 11 else 6) + 2 * dlc ∧ txBytes s = lineOf ext ids dlc ds)
  ∧ ∀ b ∈ s.txLine.bytes.drop s.txLen.toNat, b = 0

/-- A build without FSER has nothing in the FSER registers (10_state.md R60). -/
abbrev FserAbsentClear (s : State) : Prop :=
  s.params.hasFser = false →
    s.txLen = 0 ∧ s.rxLen = 0 ∧ s.txLine = { w0 := 0, w1 := 0, w2 := 0, w3 := 0 }
      ∧ s.rxLine = { w0 := 0, w1 := 0, w2 := 0, w3 := 0 }

/-- The invariant every step keeps. -/
abbrev State.Inv (s : State) : Prop := s.status.Legal ∧ TxLegal s ∧ FserAbsentClear s

end Sys2Proof.Machine
end

