-- ==== Sys2Proof/Certificates/Slice0/Obligations.lean ====
section
/-! DEFINITION. The statements for the provers, about all states unless they say otherwise. Each docstring names the
rule of spec/ it formalises; where it rests on an inference of the spec's own ("derived" in the spec) or on a choice of
the model, it says so. The accesses the host has yet to issue (`hostQueue`) and the host port's answer (`hostData`) are
the model's form of HostRead and HostWrite (log entry 2): a statement names an access by putting it first in
`hostQueue`. -/

open Sys2Proof Sys2Proof.Machine

/-! ## Commands: encoding and decoding -/

/-- Decoding the CMD value of a command gives the command back (30_encoding.md section 2, the opcode map). -/
def Obligations.OpcodeRoundTrip : Prop :=
  ∀ i : Instr, i.wellFormed = true → decode (encode i) = .ok i

/-- A CMD value is decoded to a command exactly when it is the one value that selects it: RSV is 0 and OP is the
command's (30_encoding.md section 2: the match under an all-ones mask). So no other value runs a command. -/
def Obligations.DecodeExactlyTheSixWords : Prop :=
  ∀ (v : Word) (i : Instr), decode v = .ok i ↔ v = encode i

/-- The CMD values of the opcode map, and two illegal values, written out (30_encoding.md section 2). -/
def Obligations.CommandWordsDecode : Prop :=
  decode 0x0000000000000001 = .ok .encode ∧ decode 0x0000000000000002 = .ok .decode
    ∧ decode 0x0000000000000003 = .ok .encodeFrame ∧ decode 0x0000000000000004 = .ok .decodeFrame
    ∧ decode 0x0000000000000010 = .ok .frameSerialize ∧ decode 0x0000000000000011 = .ok .frameParse
    ∧ decode 0x0000000000000005 = .error .unassignedOp ∧ decode 0x8000000000000001 = .error .reservedBits

/-- R272: a CMD write raises ILLEGAL_COMMAND with INFO 2 for RSV ≠ 0, else with INFO 1 for an unassigned OP, else with
INFO 3 for an FSER command of a build without FSER, and not otherwise; LAST_OP is bits 7:0 of the written value. -/
def Obligations.IllegalCommandReported : Prop :=
  ∀ (s : State) (v : Word) (rest : List HostAccess), s.hostQueue = .write 64 0x08 v :: rest →
    (v >>> 8 ≠ 0 →
      step s = .next { s with hostQueue := rest, hostData := none, status := ⟨3, 2, v.extractLsb' 0 8, true⟩ })
    ∧ (v >>> 8 = 0 → v.toNat ∉ [0x01, 0x02, 0x03, 0x04, 0x10, 0x11] →
      step s = .next { s with hostQueue := rest, hostData := none, status := ⟨3, 1, v.extractLsb' 0 8, true⟩ })
    ∧ (v.toNat ∈ [0x10, 0x11] → s.params.hasFser = false →
      step s = .next { s with hostQueue := rest, hostData := none, status := ⟨3, 3, v.extractLsb' 0 8, true⟩ })
    ∧ (v.toNat ∈ [0x01, 0x02, 0x03, 0x04] ∨ v.toNat ∈ [0x10, 0x11] ∧ s.params.hasFser = true →
      ∃ t, step s = .next t ∧ t.status.code ≠ 3)

/-! ## Steps, host accesses and reset -/

/-- When the host's next access is a 64-bit write to CMD of a value that decodes to a command, the step is that command
at the state without the access (00_scope.md section 1; the pending accesses are the model's own, log entry 2). -/
def Obligations.StepRunsDecodedCommand : Prop :=
  ∀ (s : State) (v : Word) (i : Instr) (rest : List HostAccess), s.hostQueue = .write 64 0x08 v :: rest →
    decode v = .ok i → i.wellFormed = true → step s = exec i { s with hostQueue := rest, hostData := none }

/-- R82: an access of another width, at an offset that is no multiple of 8, or at one of 0x100 or more, is refused and has
no next state; every other access has one. -/
def Obligations.UndefinedAccessRefused : Prop :=
  ∀ (s : State) (a : HostAccess) (rest : List HostAccess), s.hostQueue = a :: rest →
    ((∃ r, step s = .refused r) ↔ a.wellFormed = false) ∧ ((∃ t, step s = .next t) ↔ a.wellFormed = true)

/-- R300: reset puts every register in its reset value, all 0 but CAPS, which is HAS_FSER + 2·code(MOTO_SWAP), and does
not change the parameters. -/
def Obligations.ResetAccess : Prop :=
  ∀ (s : State) (rest : List HostAccess), s.hostQueue = .reset :: rest →
    ∃ t, step s = .next t ∧ t.params = s.params ∧ (∀ r, r ≠ .caps → readReg r t = 0)
      ∧ readReg .caps t = capsValue s.params

/-- R68: the registers after reset, field by field, in a build with any parameters. -/
def Obligations.ResetValues : Prop :=
  ∀ p : Params,
    (let t : State := { State.reset with params := p }
     readReg .caps t = capsValue p
      ∧ t.status = ⟨0, 0, 0, false⟩ ∧ t.cfg = ⟨0, .intel, 0, 0, false, 0⟩ ∧ t.value = 0 ∧ t.payloadIn = 0
      ∧ t.payloadOut = 0 ∧ t.resultWord = 0 ∧ t.resultValue = 0 ∧ t.tsIn = 0 ∧ t.frameId = 0
      ∧ t.frameCtl = ⟨0, false, false⟩ ∧ t.frameData = 0 ∧ t.frameTs = 0 ∧ t.txLen = 0 ∧ t.rxLen = 0
      ∧ t.txLine = ⟨0, 0, 0, 0⟩ ∧ t.rxLine = ⟨0, 0, 0, 0⟩ ∧ (∀ r, r ≠ .caps → readReg r t = 0))

/-- R85: a read of any offset changes no register and answers the register's word, whatever the host does next; so a read
repeated with nothing between answers the same. (`hostQueue` and `hostData` are the model's view of the host port, log
entry 2.) -/
def Obligations.HostReadPure : Prop :=
  ∀ (s : State) (off : Nat) (rest : List HostAccess), off % 8 = 0 → off < 0x100 → s.hostQueue = .read 64 off :: rest →
    (let w : Word := match regAt off with | some r => readReg r s | none => 0
     step s = .next { s with hostQueue := rest, hostData := some w }
      ∧ ∀ rest', rest = .read 64 off :: rest' →
          step { s with hostQueue := rest, hostData := some w }
            = .next { s with hostQueue := rest', hostData := some w })

/-- R84: what a 64-bit host write does to the registers. A read-only register and reserved bits ignore it, a read-write
register stores it in its defined fields and keeps its reserved bits 0, no other register changes; STATUS loses STICKY
when bit 24 is written 1 and nothing else; CMD reads 0. -/
def Obligations.HostWriteEffect : Prop :=
  ∀ (s : State) (r : Reg) (v : Word) (rest : List HostAccess), r ≠ .cmd →
    s.hostQueue = .write 64 r.offset v :: rest →
    ∃ t, step s = .next t ∧ t.hostQueue = rest ∧ t.hostData = none ∧ t.params = s.params
      ∧ (∀ r', r' ≠ r → readReg r' t = readReg r' s)
      ∧ (r ≠ .status →
          readReg r t = (v &&& writeMask s.params r) ||| (readReg r s &&& ~~~ writeMask s.params r))
      ∧ (r = .status →
          readReg r t = if v.getLsbD 24 then readReg r s &&& ~~~ 0x1000000 else readReg r s)
      ∧ readReg r t &&& ~~~ definedMask r = 0 ∧ readReg .cmd t = 0

/-- The words the host reads (10_state.md sections 3 to 8): every field of a register at its bits, the registers of one
64-bit field whole, the line registers of a build with FSER in line order, CMD 0, and every reserved bit 0, in every
state. -/
def Obligations.ReservedBitsReadZero : Prop :=
  ∀ s : State,
    (∀ r : Reg, readReg r s &&& ~~~ definedMask r = 0) ∧ readReg .cmd s = 0
    ∧ ((readReg .status s).extractLsb' 0 4 = s.status.code ∧ (readReg .status s).extractLsb' 8 8 = s.status.info
      ∧ (readReg .status s).extractLsb' 16 8 = s.status.lastOp ∧ (readReg .status s).getLsbD 24 = s.status.sticky)
    ∧ ((readReg .cfg s).extractLsb' 0 4 = s.cfg.dtype ∧ ((readReg .cfg s).getLsbD 4 = true ↔ s.cfg.endian = .motorola)
      ∧ (readReg .cfg s).extractLsb' 8 8 = s.cfg.start ∧ (readReg .cfg s).extractLsb' 16 8 = s.cfg.len
      ∧ (readReg .cfg s).getLsbD 31 = s.cfg.sigExt ∧ (readReg .cfg s).extractLsb' 32 29 = s.cfg.sigId)
    ∧ ((readReg .frameId s).extractLsb' 0 29 = s.frameId ∧ (readReg .frameCtl s).extractLsb' 0 4 = s.frameCtl.dlc
      ∧ (readReg .frameCtl s).getLsbD 8 = s.frameCtl.ext ∧ (readReg .frameCtl s).getLsbD 9 = s.frameCtl.rtr)
    ∧ (readReg .value s = s.value ∧ readReg .payloadIn s = s.payloadIn ∧ readReg .payloadOut s = s.payloadOut
      ∧ readReg .resultWord s = s.resultWord ∧ readReg .resultValue s = s.resultValue ∧ readReg .tsIn s = s.tsIn
      ∧ readReg .frameData s = s.frameData ∧ readReg .frameTs s = s.frameTs)
    ∧ (s.params.hasFser = true →
      (readReg .txLen s).extractLsb' 0 8 = s.txLen ∧ (readReg .rxLen s).extractLsb' 0 8 = s.rxLen
      ∧ (⟨readReg .txLine0 s, readReg .txLine1 s, readReg .txLine2 s, readReg .txLine3 s⟩ : LineBuf) = s.txLine
      ∧ (⟨readReg .rxLine0 s, readReg .rxLine1 s, readReg .rxLine2 s, readReg .rxLine3 s⟩ : LineBuf) = s.rxLine)

/-- R39 and R40: STICKY is set by every command that raises and kept by every command that completes, cleared by a host
write to STATUS with bit 24 set and kept by one without, and 0 after reset; STATUS bits 7:4 and 63:25 read 0, and host
writes change none of CODE, INFO, LAST_OP. -/
def Obligations.StickyWriteOneToClear : Prop :=
  (∀ (s : State) (v : Word) (rest : List HostAccess) (t : State), s.hostQueue = .write 64 0x08 v :: rest →
      step s = .next t →
      (t.status.code ≠ 0 → t.status.sticky = true) ∧ (t.status.code = 0 → t.status.sticky = s.status.sticky))
  ∧ (∀ (s : State) (v : Word) (rest : List HostAccess), s.hostQueue = .write 64 0x10 v :: rest →
      step s = .next
        { s with hostQueue := rest, hostData := none
                 status := { s.status with sticky := if v.getLsbD 24 then false else s.status.sticky } })
  ∧ (∀ s : State, readReg .status s &&& 0xFFFFFFFFFE0000F0 = 0) ∧ State.reset.status.sticky = false

/-- R34: CAPS has HAS_FSER in bit 0 and MOTO_SWAP in bits 2:1, 0 for NONE, 1 for FLOAT_ONLY, 2 for ALL_MULTIBYTE and never
3, reads 0 above, ignores host writes, and keeps its value in every step, reset included. -/
def Obligations.CapsConstant : Prop :=
  (∀ s : State, (readReg .caps s).getLsbD 0 = s.params.hasFser
      ∧ (s.params.motoSwap = .none → (readReg .caps s).extractLsb' 1 2 = 0)
      ∧ (s.params.motoSwap = .floatOnly → (readReg .caps s).extractLsb' 1 2 = 1)
      ∧ (s.params.motoSwap = .allMultibyte → (readReg .caps s).extractLsb' 1 2 = 2)
      ∧ (readReg .caps s).extractLsb' 1 2 ≠ 3 ∧ (readReg .caps s).extractLsb' 3 61 = 0)
  ∧ ∀ s t : State, step s = .next t → t.params = s.params ∧ readReg .caps t = readReg .caps s

/-- A build without FSER (10_state.md section 8, HAS_FSER = 0): the FSER registers read 0 and ignore host writes, and no
command writes them. -/
def Obligations.FserAbsentUnit : Prop :=
  ∀ (s : State), s.params.hasFser = false →
    (∀ r, isFserReg r = true → readReg r s = 0)
    ∧ (∀ r v rest, isFserReg r = true → s.hostQueue = .write 64 r.offset v :: rest →
        step s = .next { s with hostQueue := rest, hostData := none })
    ∧ ∀ i t, exec i s = .next t →
        t.txLen = s.txLen ∧ t.rxLen = s.rxLen ∧ t.txLine = s.txLine ∧ t.rxLine = s.rxLine

/-- The register map (10_state.md section 2): each register is found at the offset of the map's table, a multiple of 8
below 0xC0, and at no other; the offsets 0xC0 to 0xF8 have none. -/
def Obligations.WindowMap : Prop :=
  (∀ r : Reg, r.offset = mapOffset r ∧ regAt (mapOffset r) = some r ∧ r.offset % 8 = 0 ∧ r.offset < 0xC0)
  ∧ (∀ (off : Nat) (r : Reg), regAt off = some r → off = r.offset)
  ∧ ∀ off : Nat, off % 8 = 0 → off < 0x100 → (regAt off = none ↔ 0xC0 ≤ off)

/-- R83: the reserved slots 0xC0, 0xC8, …, 0xF8 read 0 and ignore writes, with no other effect. -/
def Obligations.ReservedSlots : Prop :=
  ∀ (s : State) (k : Nat) (rest : List HostAccess), k < 8 →
    (s.hostQueue = .read 64 (0xC0 + 8 * k) :: rest →
      step s = .next { s with hostQueue := rest, hostData := some 0 })
    ∧ ∀ v, s.hostQueue = .write 64 (0xC0 + 8 * k) v :: rest →
      step s = .next { s with hostQueue := rest, hostData := none }

/-- The lines of the host-command notation that set up a signal and a frame line (30_encoding.md section 4): `cfg` leaves
CFG with the named fields, and `line` leaves RXLINE with the text's bytes and 0 after them, and RXLEN its length. -/
def Obligations.NotationSetsUpOperands : Prop :=
  (∀ (s : State) (t : DataType) (e : Endian) (start len id : Nat) (ext : Bool), start < 256 → len < 256 → id < 2 ^ 29 →
      ∃ as, (HostLine.cfg t e start len ext.toNat id).accesses = some as
        ∧ issue as s = .next
          { s with hostQueue := [], hostData := none
                   cfg := ⟨typeCode t, e, BitVec.ofNat 8 start, BitVec.ofNat 8 len, ext, BitVec.ofNat 29 id⟩ })
  ∧ ∀ (s : State) (text : List Byte), s.params.hasFser = true → text.length ≤ 32 →
      ∃ as u, (HostLine.line text).accesses = some as ∧ issue as s = .next u ∧ rxBytes u = text
        ∧ (∀ b ∈ u.rxLine.bytes.drop text.length, b = 0)
        ∧ u = { s with hostQueue := [], hostData := none, rxLine := u.rxLine, rxLen := BitVec.ofNat 8 text.length }

/-! ## What every command does -/

/-- Every command, in every state, has a next state: an error is reported and never trapped, and the block is at once
ready for the next access (60_exceptions.md section 1). -/
def Obligations.EveryCommandAnswers : Prop :=
  ∀ (i : Instr) (s : State), ∃ t, exec i s = .next t

/-- What every CMD write leaves in STATUS (10_state.md section 4, 60_exceptions.md section 1): LAST_OP is bits 7:0 of the
value written; after a command that raises, CODE is not 0, STICKY is 1 and nothing but STATUS has changed; after one that
completes, CODE and INFO are 0 and STICKY is what it was. -/
def Obligations.StatusOfEveryCommand : Prop :=
  ∀ (s t : State) (v : Word) (rest : List HostAccess), s.hostQueue = .write 64 0x08 v :: rest → step s = .next t →
    t.status.lastOp = v.extractLsb' 0 8
    ∧ (t.status.code = 0 → t.status.info = 0 ∧ t.status.sticky = s.status.sticky)
    ∧ (t.status.code ≠ 0 → t.status.sticky = true
        ∧ t = { s with hostQueue := rest, hostData := none, status := t.status })

/-- No command's behaviour depends on STATUS (10_state.md section 9): from two states that differ in STATUS alone, a
command leaves states that differ in STATUS.STICKY alone, if at all. -/
def Obligations.StatusNeverInfluences : Prop :=
  ∀ (i : Instr) (s : State) (st : Status) (t : State), exec i s = .next t →
    ∃ k, exec i { s with status := st } = .next { t with status := { t.status with sticky := k } }

/-- Repeating a command with nothing between gives the same outputs and the same STATUS (41_codec_commands.md section
"Properties common to the codec commands", the spec's own inference; said here of the FSER commands too). -/
def Obligations.CommandsAreRepeatable : Prop :=
  ∀ (i : Instr) (s t : State), exec i s = .next t → exec i t = .next t

/-- A command's outputs and its error depend on the registers the opcode map lists under "Reads" and on the parameters,
and on nothing else (30_encoding.md section 2, 10_state.md section 9). -/
def Obligations.CommandsDependOnTheirInputs : Prop :=
  ∀ s s' t : State, s.params = s'.params →
    (s.cfg = s'.cfg → s.value = s'.value → exec .encode s = .next t →
      ∃ t', exec .encode s' = .next t' ∧ t'.status.code = t.status.code ∧ t'.status.info = t.status.info
        ∧ (t.status.code = 0 → t'.payloadOut = t.payloadOut))
    ∧ (s.cfg = s'.cfg → s.payloadIn = s'.payloadIn → exec .decode s = .next t →
      ∃ t', exec .decode s' = .next t' ∧ t'.status.code = t.status.code ∧ t'.status.info = t.status.info
        ∧ (t.status.code = 0 → t'.resultWord = t.resultWord ∧ t'.resultValue = t.resultValue))
    ∧ (s.cfg = s'.cfg → s.value = s'.value → s.tsIn = s'.tsIn → exec .encodeFrame s = .next t →
      ∃ t', exec .encodeFrame s' = .next t' ∧ t'.status.code = t.status.code ∧ t'.status.info = t.status.info
        ∧ (t.status.code = 0 → t'.payloadOut = t.payloadOut ∧ t'.frameId = t.frameId ∧ t'.frameCtl = t.frameCtl
            ∧ t'.frameData = t.frameData ∧ t'.frameTs = t.frameTs))
    ∧ (s.cfg = s'.cfg → s.frameData = s'.frameData → exec .decodeFrame s = .next t →
      ∃ t', exec .decodeFrame s' = .next t' ∧ t'.status.code = t.status.code ∧ t'.status.info = t.status.info
        ∧ (t.status.code = 0 → t'.resultWord = t.resultWord ∧ t'.resultValue = t.resultValue))
    ∧ (s.frameId = s'.frameId → s.frameCtl = s'.frameCtl → s.frameData = s'.frameData →
      exec .frameSerialize s = .next t →
      ∃ t', exec .frameSerialize s' = .next t' ∧ t'.status.code = t.status.code ∧ t'.status.info = t.status.info
        ∧ (t.status.code = 0 → t'.txLine = t.txLine ∧ t'.txLen = t.txLen))
    ∧ (rxBytes s = rxBytes s' → s.rxLen = s'.rxLen → s.tsIn = s'.tsIn → exec .frameParse s = .next t →
      ∃ t', exec .frameParse s' = .next t' ∧ t'.status.code = t.status.code ∧ t'.status.info = t.status.info
        ∧ (t.status.code = 0 → t'.frameId = t.frameId ∧ t'.frameCtl = t.frameCtl ∧ t'.frameData = t.frameData
            ∧ t'.frameTs = t.frameTs))

/-- What the codec commands change (41_codec_commands.md section "Properties common to the codec commands", the spec's
own inference): ENCODE PAYLOAD_OUT, DECODE and DECODE_FRAME the two result registers, ENCODE_FRAME PAYLOAD_OUT and the
four frame registers, each STATUS, and nothing else. -/
def Obligations.CodecCommandFrames : Prop :=
  ∀ s t : State,
    (exec .encode s = .next t → t = { s with payloadOut := t.payloadOut, status := t.status })
    ∧ (exec .decode s = .next t →
        t = { s with resultWord := t.resultWord, resultValue := t.resultValue, status := t.status })
    ∧ (exec .encodeFrame s = .next t →
        t = { s with payloadOut := t.payloadOut, frameId := t.frameId, frameCtl := t.frameCtl, frameData := t.frameData
                     frameTs := t.frameTs, status := t.status })
    ∧ (exec .decodeFrame s = .next t →
        t = { s with resultWord := t.resultWord, resultValue := t.resultValue, status := t.status })

/-- What the FSER commands change (30_encoding.md section 2, "Writes"): FRAME_SERIALIZE TXLINE and TXLEN, FRAME_PARSE the
four frame registers, each STATUS, and nothing else. -/
def Obligations.FserCommandFrames : Prop :=
  ∀ s t : State,
    (exec .frameSerialize s = .next t → t = { s with txLine := t.txLine, txLen := t.txLen, status := t.status })
    ∧ (exec .frameParse s = .next t →
        t = { s with frameId := t.frameId, frameCtl := t.frameCtl, frameData := t.frameData, frameTs := t.frameTs
                     status := t.status })

/-! ## The errors of the codec commands -/

/-- R142 and R273: the field check of every codec command, TYPE before START before LEN, changes STATUS alone; a field in
range, START + LEN > 64 included, does not raise INVALID_FIELD_SPEC. -/
def Obligations.FieldCheck : Prop :=
  ∀ (i : Instr) (s : State), isCodecCommand i = true →
    (11 ≤ s.cfg.dtype.toNat → exec i s = .next { s with status := ⟨1, 1, opcodeOf i, true⟩ })
    ∧ (s.cfg.dtype.toNat ≤ 10 → 64 ≤ s.cfg.start.toNat →
        exec i s = .next { s with status := ⟨1, 2, opcodeOf i, true⟩ })
    ∧ (s.cfg.dtype.toNat ≤ 10 → s.cfg.start.toNat ≤ 63 → s.cfg.len.toNat = 0 ∨ 65 ≤ s.cfg.len.toNat →
        exec i s = .next { s with status := ⟨1, 3, opcodeOf i, true⟩ })
    ∧ (s.cfg.Legal → ∃ t, exec i s = .next t ∧ t.status.code ≠ 1)

/-- R274: ENCODE and ENCODE_FRAME of an integer type raise VALUE_NOT_FINITE for a NaN with INFO 1 and for an infinity with
INFO 2; it is never raised for F32, F64 or a finite value, nor by a decode or an FSER command, nor where the field check
fails. -/
def Obligations.NonFiniteRefused : Prop :=
  ∀ (i : Instr) (s : State),
    (i ∈ [.encode, .encodeFrame] → s.cfg.Legal → s.cfg.dtype.toNat ≤ 8 → NaN64 s.value →
      exec i s = .next { s with status := ⟨2, 1, opcodeOf i, true⟩ })
    ∧ (i ∈ [.encode, .encodeFrame] → s.cfg.Legal → s.cfg.dtype.toNat ≤ 8 → Inf64 s.value →
      exec i s = .next { s with status := ⟨2, 2, opcodeOf i, true⟩ })
    ∧ (i ∈ [.decode, .decodeFrame, .frameSerialize, .frameParse] ∨ ¬ s.cfg.Legal ∨ 9 ≤ s.cfg.dtype.toNat
          ∨ Finite64 s.value →
      ∃ t, exec i s = .next t ∧ t.status.code ≠ 2)

/-- R276 and R277: FRAME_INVALID and FRAME_UNSUPPORTED, with the order of the checks of FRAME_SERIALIZE, and the id check
of ENCODE_FRAME, which comes after the checks of ENCODE. -/
def Obligations.FrameChecks : Prop :=
  (∀ s : State, s.params.hasFser = true →
    (8 < s.frameCtl.dlc.toNat → exec .frameSerialize s = .next { s with status := ⟨4, 1, 0x10, true⟩ })
    ∧ (s.frameCtl.dlc.toNat ≤ 8 → s.frameCtl.ext = false → 0x7FF < s.frameId.toNat →
        exec .frameSerialize s = .next { s with status := ⟨4, 2, 0x10, true⟩ })
    ∧ (s.frameCtl.dlc.toNat ≤ 8 → (s.frameCtl.ext = false → s.frameId.toNat ≤ 0x7FF) → s.frameCtl.rtr = true →
        exec .frameSerialize s = .next { s with status := ⟨5, 1, 0x10, true⟩ })
    ∧ (s.frameCtl.dlc.toNat ≤ 8 → (s.frameCtl.ext = false → s.frameId.toNat ≤ 0x7FF) → s.frameCtl.rtr = false →
        ∃ t, exec .frameSerialize s = .next t ∧ t.status.code = 0))
  ∧ (∀ s : State, s.cfg.Legal → (s.cfg.dtype.toNat ≤ 8 → Finite64 s.value) →
    (s.cfg.sigExt = false → 0x7FF < s.cfg.sigId.toNat →
        exec .encodeFrame s = .next { s with status := ⟨4, 2, 0x03, true⟩ })
    ∧ ((s.cfg.sigExt = false → s.cfg.sigId.toNat ≤ 0x7FF) → ∃ t, exec .encodeFrame s = .next t ∧ t.status.code = 0))
  ∧ ∀ (i : Instr) (s : State), i ∈ [.encode, .decode, .decodeFrame, .frameParse] →
    ∃ t, exec i s = .next t ∧ t.status.code ≠ 4 ∧ t.status.code ≠ 5

/-! ## The results of the codec commands -/

/-- ENCODE completes, for every type, endianness and field in range, of a value its type accepts (41_codec_commands.md
section ENCODE): PAYLOAD_OUT is the placed word, the type-width word being R145's over the rationals, and nothing else
but STATUS changes. -/
def Obligations.EncodeWritesPayload : Prop :=
  ∀ (s : State) (t : DataType), dataTypeOf s.cfg.dtype = some t → (s.cfg.field t).Legal →
    (isFloat t = false → Finite64 s.value) →
    exec .encode s = .next
      { s with
        payloadOut :=
          place (s.cfg.field t) (motoSwapWord s.params.motoSwap t s.cfg.endian (valueWord t s.value))
        status := ⟨0, 0, 0x01, s.status.sticky⟩ }

/-- ENCODE_FRAME completes (41_codec_commands.md section ENCODE_FRAME): the payload of ENCODE, in PAYLOAD_OUT and in the
frame, which has the signal's id and kind, data length 8, no remote request, and the timestamp of TS_IN. -/
def Obligations.EncodeFrameBuildsFrame : Prop :=
  ∀ (s : State) (t : DataType), dataTypeOf s.cfg.dtype = some t → (s.cfg.field t).Legal →
    (isFloat t = false → Finite64 s.value) → (s.cfg.sigExt = false → s.cfg.sigId.toNat ≤ 0x7FF) →
    exec .encodeFrame s = .next
      { s with
        payloadOut :=
          place (s.cfg.field t) (motoSwapWord s.params.motoSwap t s.cfg.endian (valueWord t s.value))
        frameId := s.cfg.sigId
        frameCtl := ⟨8, s.cfg.sigExt, false⟩
        frameData :=
          place (s.cfg.field t) (motoSwapWord s.params.motoSwap t s.cfg.endian (valueWord t s.value))
        frameTs := s.tsIn
        status := ⟨0, 0, 0x03, s.status.sticky⟩ }

/-- DECODE completes on every payload (41_codec_commands.md section DECODE): the extracted field, cut to the type's width
and unswapped, read as its type. -/
def Obligations.DecodeReadsPayload : Prop :=
  ∀ (s : State) (t : DataType), dataTypeOf s.cfg.dtype = some t → (s.cfg.field t).Legal →
    exec .decode s = .next
      { s with
        resultWord :=
          resultWordOf t
            (motoSwapWord s.params.motoSwap t s.cfg.endian (extract (s.cfg.field t) s.payloadIn &&& lowMask (typeWidth t)))
        resultValue :=
          resultValueOf t
            (motoSwapWord s.params.motoSwap t s.cfg.endian (extract (s.cfg.field t) s.payloadIn &&& lowMask (typeWidth t)))
        status := ⟨0, 0, 0x02, s.status.sticky⟩ }

/-- DECODE_FRAME completes on every frame, whatever its DLC and id (41_codec_commands.md section DECODE_FRAME): all 64
bits of FRAME_DATA are decoded as DECODE does. -/
def Obligations.DecodeFrameReadsFrame : Prop :=
  ∀ (s : State) (t : DataType), dataTypeOf s.cfg.dtype = some t → (s.cfg.field t).Legal →
    exec .decodeFrame s = .next
      { s with
        resultWord :=
          resultWordOf t
            (motoSwapWord s.params.motoSwap t s.cfg.endian (extract (s.cfg.field t) s.frameData &&& lowMask (typeWidth t)))
        resultValue :=
          resultValueOf t
            (motoSwapWord s.params.motoSwap t s.cfg.endian (extract (s.cfg.field t) s.frameData &&& lowMask (typeWidth t)))
        status := ⟨0, 0, 0x04, s.status.sticky⟩ }

/-- R115, R140 and R141: the code, the width and the class of each of the eleven data types, the codes 11 to 15 being no
type's; and R164: RESULT_WORD is the type-width word sign-extended from its type's width for S8, S16, S32 and S64, and
zero-extended for FLAG, the unsigned types, F32 and F64. -/
def Obligations.ResultWordExtension : Prop :=
  (∀ t : DataType, dataTypeOf (typeRow t).code = some t ∧ typeCode t = (typeRow t).code
      ∧ typeWidth t = (typeRow t).width ∧ isSigned t = (typeRow t).signed ∧ isFloat t = (typeRow t).float)
  ∧ (∀ c : BitVec 4, 11 ≤ c.toNat → dataTypeOf c = none)
  ∧ ∀ (t : DataType) (w : Word), w.toNat < 2 ^ (typeRow t).width →
      resultWordOf t w
        = if t ∈ [.s8, .s16, .s32, .s64] then (w.setWidth (typeRow t).width).signExtend 64 else w

/-! ## The field in the payload -/

/-- R152: the effective start s is START for Intel and START + 8 − W for Motorola forward, so −56 to 70. The truncated
length L' is min(LEN, 64 − START), as R153 computes it. R155 and R156, in arithmetic: the placed payload is the word's low L' bits times 2^s,
cut to 64 bits, when s is not negative, and the word's low L' bits without their lowest −s otherwise (0 when −s ≥ L'). -/
def Obligations.PlacedWord : Prop :=
  (∀ f : FieldSpec, f.Legal →
    effStart f
        = (match f.endian with
          | .intel => (f.start : ℤ)
          | .motorola => (f.start : ℤ) + 8 - (typeRow f.dtype).width)
      ∧ -56 ≤ effStart f ∧ effStart f ≤ 70 ∧ (truncLen f : ℤ) = min (f.len : ℤ) (64 - f.start))
  ∧ ∀ (f : FieldSpec) (w : Word), f.Legal → w.toNat < 2 ^ typeWidth f.dtype →
    (0 ≤ effStart f → (place f w).toNat = w.toNat % 2 ^ truncLen f * 2 ^ (effStart f).toNat % 2 ^ 64)
      ∧ (effStart f < 0 → (place f w).toNat = w.toNat % 2 ^ truncLen f / 2 ^ (-effStart f).toNat)
      ∧ (effStart f ≤ -(truncLen f : ℤ) → place f w = 0)

/-- R160 and R161, in arithmetic: the extracted field is the payload without its lowest s bits, cut to L' bits, when the
effective start s is not negative, and the payload's low L' − a bits times 2^a, a = −s, otherwise (0 when a ≥ L'); s and
L' are those that PlacedWord writes out (R152, R153). -/
def Obligations.ExtractedField : Prop :=
  ∀ (f : FieldSpec) (p : Word), f.Legal →
    (0 ≤ effStart f → (extract f p).toNat = p.toNat / 2 ^ (effStart f).toNat % 2 ^ truncLen f)
      ∧ (effStart f < 0 →
          (extract f p).toNat = p.toNat % 2 ^ (truncLen f - (-effStart f).toNat) * 2 ^ (-effStart f).toNat)
      ∧ (effStart f ≤ -(truncLen f : ℤ) → extract f p = 0)

/-- Extracting a placed word gives the word's bits in the kept mask (40_codec_datapath.md section 7, the round trip, the
spec's own inference). -/
def Obligations.PlacedWordRoundTrip : Prop :=
  ∀ (f : FieldSpec) (w : Word), f.Legal → w.toNat < 2 ^ typeWidth f.dtype →
    extract f (place f w) = w &&& keptMask f
      ∧ extract f (place f w) &&& lowMask (typeWidth f.dtype) = w &&& keptMask f

/-- The kept mask covers the type's width exactly under the in-range conditions (40_codec_datapath.md section 7, the
spec's own inference), for each width and endianness; never for a 64-bit type in Motorola forward. -/
def Obligations.InRangeConditions : Prop :=
  ∀ f : FieldSpec, f.Legal →
    ((keptMask f &&& lowMask (typeWidth f.dtype) = lowMask (typeWidth f.dtype)) ↔
      match f.endian with
      | .intel => f.start + typeWidth f.dtype ≤ 64 ∧ typeWidth f.dtype ≤ f.len
      | .motorola =>
        match f.dtype with
        | .flag => f.start ≤ 56
        | .u8 | .s8 => f.start ≤ 56 ∧ 8 ≤ f.len
        | .u16 | .s16 => 8 ≤ f.start ∧ f.start ≤ 48 ∧ 16 ≤ f.len
        | .u32 | .s32 | .f32 => 24 ≤ f.start ∧ f.start ≤ 32 ∧ 32 ≤ f.len
        | .u64 | .s64 | .f64 => False)

/-- Every payload bit outside the footprint is 0 after an ENCODE that completes, whatever PAYLOAD_OUT held
(40_codec_datapath.md sections 4 and 7, the spec's own inference): encode never merges. -/
def Obligations.EncodeFootprint : Prop :=
  ∀ (s t : State) (ty : DataType), dataTypeOf s.cfg.dtype = some ty → exec .encode s = .next t → t.status.code = 0 →
    ∀ i < 64, ¬ inFootprint (s.cfg.field ty) i → t.payloadOut.getLsbD i = false

/-- The OR of two payloads whose footprints are disjoint decodes, at either field, to what that field's own payload decodes
to (70_reset_and_hazards.md section 3, 40_codec_datapath.md section 7). -/
def Obligations.DisjointFieldsCombine : Prop :=
  ∀ (m : MotoSwap) (f g : FieldSpec) (v w : Word), f.Legal → g.Legal → v.toNat < 2 ^ typeWidth f.dtype →
    w.toNat < 2 ^ typeWidth g.dtype → (∀ i < 64, ¬ (inFootprint f i ∧ inFootprint g i)) →
    fieldWord m f (place f v ||| place g w) = fieldWord m f (place f v)
      ∧ fieldWord m g (place f v ||| place g w) = fieldWord m g (place g w)

/-- R16 and R150: byte k of `bswap` of N/8 = n bytes is byte n − 1 − k, the bits above are 0, and a second swap undoes
it; a word is swapped exactly in Motorola forward, of a type of at least 16 bits, of every such type in an ALL_MULTIBYTE
build and of F32 and F64 in a FLOAT_ONLY build. -/
def Obligations.MotorolaByteSwap : Prop :=
  (∀ (n : Nat) (v : Word), n ∈ [2, 4, 8] → v.toNat < 2 ^ (8 * n) →
    (∀ k < n, (bswap n v).extractLsb' (8 * k) 8 = v.extractLsb' (8 * (n - 1 - k)) 8)
      ∧ (bswap n v).toNat < 2 ^ (8 * n) ∧ bswap n (bswap n v) = v)
  ∧ ∀ (m : MotoSwap) (t : DataType) (e : Endian) (w : Word),
      motoSwapWord m t e w
        = if e = .motorola ∧ 16 ≤ typeWidth t ∧ (m = .allMultibyte ∨ m = .floatOnly ∧ t ∈ [.f32, .f64]) then
            bswap (typeWidth t / 8) w
          else w

/-! ## Values -/

/-- R15: the model's integer rounding is `roundHalfAway` of the real number a finite binary64 denotes. -/
def Obligations.RoundHalfAwayExact : Prop :=
  ∀ x : Word, Finite64 x → roundHalfAway (binary64.exactOf x.toNat) = roundHalfAwayQ (real64 x)

/-- F32 encoding of a finite value is rounding to nearest, ties to even, over the reals, with gradual underflow and with
overflow to the infinity of the sign from half a unit above the largest binary32 on (40_codec_datapath.md section 7,
`f64_to_f32`). -/
def Obligations.NarrowNearestEven : Prop :=
  ∀ x : Word, Finite64 x →
    (narrow32 x).getLsbD 31 = x.getLsbD 63
    ∧ (|real64 x| < 2 ^ 128 - 2 ^ 103 →
        Finite32 (narrow32 x)
          ∧ ∀ y : Word, Finite32 y →
              |real64 x - real32 (narrow32 x)| ≤ |real64 x - real32 y|
              ∧ (|real64 x - real32 (narrow32 x)| = |real64 x - real32 y| →
                  real32 y = real32 (narrow32 x) ∨ (narrow32 x).getLsbD 0 = false))
    ∧ (2 ^ 128 - 2 ^ 103 ≤ |real64 x| → narrow32 x = if x.getLsbD 63 then 0xFF800000 else 0x7F800000)

/-- F32 encoding of zeros, infinities (40_codec_datapath.md section 2) and, R148, of NaNs: sign, exponent all ones, the
top 23 fraction bits with the quiet bit set. -/
def Obligations.NarrowSpecialValues : Prop :=
  narrow32 0x0000000000000000 = 0x00000000 ∧ narrow32 0x8000000000000000 = 0x80000000
    ∧ narrow32 0x7FF0000000000000 = 0x7F800000 ∧ narrow32 0xFFF0000000000000 = 0xFF800000
    ∧ ∀ x : Word, NaN64 x →
        narrow32 x
          = ((0 : BitVec 32) ++ x.extractLsb' 63 1 ++ (0xFF : BitVec 8) ++ (x.extractLsb' 29 23 ||| 0x400000) : Word)

/-- R165: RESULT_VALUE of an integer class type is the binary64 of the integer the word stands for, in two's complement
for a signed type: exact up to 2^53, the nearest binary64 with ties to even beyond, +0.0 for 0. -/
def Obligations.IntegerToBinary64 : Prop :=
  (∀ (t : DataType) (w : Word), t ∉ [.f32, .f64] → w.toNat < 2 ^ (typeRow t).width →
      resultValueOf t w
        = toBinary64
            (if t ∈ [.s8, .s16, .s32, .s64] then (w.setWidth (typeRow t).width).toInt else (w.toNat : ℤ)))
  ∧ toBinary64 0 = 0
  ∧ ∀ n : ℤ, |n| ≤ 2 ^ 64 →
      Finite64 (toBinary64 n) ∧ (|n| ≤ 2 ^ 53 → real64 (toBinary64 n) = n)
      ∧ ∀ y : Word, Finite64 y →
          |(n : ℚ) - real64 (toBinary64 n)| ≤ |(n : ℚ) - real64 y|
          ∧ (|(n : ℚ) - real64 (toBinary64 n)| = |(n : ℚ) - real64 y| →
              real64 y = real64 (toBinary64 n) ∨ (toBinary64 n).getLsbD 0 = false)

/-- R166: RESULT_VALUE of F32 is the widened pattern: exact for finite patterns and infinities, and a NaN keeps its sign,
its fraction moved to the top and made quiet. -/
def Obligations.WidenExact : Prop :=
  (∀ w : Word, Finite32 w →
      Finite64 (resultValueOf .f32 w) ∧ real64 (resultValueOf .f32 w) = real32 w
        ∧ (resultValueOf .f32 w).getLsbD 63 = w.getLsbD 31)
  ∧ resultValueOf .f32 0x7F800000 = 0x7FF0000000000000 ∧ resultValueOf .f32 0xFF800000 = 0xFFF0000000000000
  ∧ ∀ w : Word, w.toNat < 2 ^ 32 → w.extractLsb' 23 8 = 0xFF → w.extractLsb' 0 23 ≠ 0 →
      resultValueOf .f32 w
        = (w.extractLsb' 31 1 ++ (0x7FF : BitVec 11)
            ++ ((w.extractLsb' 0 23).setWidth 52 <<< 29 ||| (1 : BitVec 52) <<< 51) : Word)

/-- DESIGN CHOICE of the model (log entry 9): a decimal of the notation (30_encoding.md section 4, `val x`) is a sign,
digits and a number of places, and stands for sign times digits over 10 to the places, the sign bit being the sign's, so
that a zero with a minus sign is −0.0. On that form: the decimal stands for the binary64 that is exactly it, and is
refused exactly when there is none. -/
def Obligations.DecimalLiteralExact : Prop :=
  ∀ (neg : Bool) (digits places : Nat),
    (∀ b, decimalBits neg digits places = some b →
        Finite64 b ∧ b.getLsbD 63 = neg ∧ real64 b = (if neg then -1 else 1) * (digits : ℚ) / 10 ^ places)
    ∧ (decimalBits neg digits places = none →
        ∀ b, Finite64 b → real64 b ≠ (if neg then -1 else 1) * (digits : ℚ) / 10 ^ places)

/-! ## Encode, then decode -/

/-- ENCODE_FRAME followed by DECODE_FRAME gives the word the encode stored, restricted to the kept mask and read as its
type (41_codec_commands.md section "Properties common to the codec commands", the spec's own inference). -/
def Obligations.FrameCodecRoundTrip : Prop :=
  ∀ (s t : State) (ty : DataType) (w : Word), dataTypeOf s.cfg.dtype = some ty → exec .encodeFrame s = .next t →
    t.status.code = 0 → storedWord s.params.motoSwap (s.cfg.field ty) s.value = .ok w →
    ∃ u, exec .decodeFrame t = .next u ∧ u.status.code = 0
      ∧ u.resultWord
        = resultWordOf ty (motoSwapWord s.params.motoSwap ty s.cfg.endian (w &&& keptMask (s.cfg.field ty)))
      ∧ u.resultValue
        = resultValueOf ty (motoSwapWord s.params.motoSwap ty s.cfg.endian (w &&& keptMask (s.cfg.field ty)))

/-- The source's round trip for integers (40_codec_datapath.md section 7, the spec's reading of it): an integer of the
type's range that VALUE holds exactly comes back, in RESULT_VALUE and in RESULT_WORD, from a field whose kept mask covers
the type. -/
def Obligations.IntegerValuesRoundTrip : Prop :=
  ∀ (s : State) (ty : DataType) (n : ℤ), dataTypeOf s.cfg.dtype = some ty → isFloat ty = false →
    (s.cfg.field ty).Legal →
    keptMask (s.cfg.field ty) &&& lowMask (typeWidth ty) = lowMask (typeWidth ty) → inTypeRange ty n →
    s.value = toBinary64 n → real64 s.value = n → (s.cfg.sigExt = false → s.cfg.sigId.toNat ≤ 0x7FF) →
    ∃ t u, exec .encodeFrame s = .next t ∧ exec .decodeFrame t = .next u ∧ t.status.code = 0 ∧ u.status.code = 0
      ∧ u.resultValue = s.value ∧ u.resultWord = BitVec.ofInt 64 n

/-- The source's round trip for floats, by pattern (40_codec_datapath.md section 7): any binary32 that is no NaN, widened
into VALUE, comes back in RESULT_WORD, and any binary64 pattern in both result registers, from a field whose kept mask
covers the type. -/
def Obligations.FloatPatternsRoundTrip : Prop :=
  ∀ (s : State) (ty : DataType) (p : Word), dataTypeOf s.cfg.dtype = some ty → (s.cfg.field ty).Legal →
    keptMask (s.cfg.field ty) &&& lowMask (typeWidth ty) = lowMask (typeWidth ty) →
    (s.cfg.sigExt = false → s.cfg.sigId.toNat ≤ 0x7FF) →
    (ty = .f32 → p.toNat < 2 ^ 32 → ¬ NaN32 p → s.value = widen32 p →
      ∃ t u, exec .encodeFrame s = .next t ∧ exec .decodeFrame t = .next u ∧ u.status.code = 0 ∧ u.resultWord = p
        ∧ u.resultValue = s.value)
    ∧ (ty = .f64 →
      ∃ t u, exec .encodeFrame s = .next t ∧ exec .decodeFrame t = .next u ∧ u.status.code = 0
        ∧ u.resultWord = s.value ∧ u.resultValue = s.value)

/-! ## Frames and frame lines -/

/-- The line buffers (10_state.md section 8, 20_memory.md section 3): line byte i is bits 8(i mod 8)+7:8(i mod 8) of line
register i/8, and writing a line of at most 32 bytes leaves it in the buffer with 0 after it. -/
def Obligations.LineBufferLayout : Prop :=
  (∀ (b : LineBuf) (i : Nat), i < 32 →
      b.bytes[i]? = some ((([b.w0, b.w1, b.w2, b.w3] : List Word)[i / 8]?.getD 0).extractLsb' (8 * (i % 8)) 8))
  ∧ (∀ b : LineBuf, b.bytes.length = 32)
  ∧ ∀ l : List Byte, l.length ≤ 32 → (LineBuf.ofBytes l).bytes = l ++ List.replicate (32 - l.length) 0

/-- FRAME_SERIALIZE completes on every frame the wire can carry (42_frame_serializer.md section FRAME_SERIALIZE): TXLINE
is its line, TXLEN 6 or 11 plus twice the data length, and nothing else but STATUS changes. -/
def Obligations.FrameSerializeWritesLine : Prop :=
  ∀ s : State, s.params.hasFser = true → s.frameCtl.dlc.toNat ≤ 8 →
    (s.frameCtl.ext = false → s.frameId.toNat ≤ 0x7FF) → s.frameCtl.rtr = false →
    exec .frameSerialize s = .next
      { s with
        txLine := LineBuf.ofBytes (frameLine s.frameId s.frameCtl s.frameData)
        txLen := BitVec.ofNat 8 ((if s.frameCtl.ext then 11 else 6) + 2 * s.frameCtl.dlc.toNat)
        status := ⟨0, 0, 0x10, s.status.sticky⟩ }

/-- The line FRAME_SERIALIZE writes (42_frame_serializer.md sections 1 and FRAME_SERIALIZE): marker, the id's 3 or 8
digits, the length digit, the first DLC payload bytes in payload order, CR; every hex digit upper case; TXLINE is 0 from
TXLEN on. -/
def Obligations.SerializedLineShape : Prop :=
  ∀ s t : State, s.params.hasFser = true → exec .frameSerialize s = .next t → t.status.code = 0 →
    ∃ ids ds, PartsOk s.frameCtl.ext ids s.frameCtl.dlc.toNat ds ∧ hexNumber ids = s.frameId.toNat
      ∧ pairBytes ds = (List.range s.frameCtl.dlc.toNat).map (fun k => s.frameData.extractLsb' (8 * k) 8)
      ∧ (∀ b ∈ ids ++ ds, upperHex b = b) ∧ txBytes t = lineOf s.frameCtl.ext ids s.frameCtl.dlc.toNat ds
      ∧ t.txLen.toNat = (if s.frameCtl.ext then 11 else 6) + 2 * s.frameCtl.dlc.toNat
      ∧ ∀ b ∈ t.txLine.bytes.drop t.txLen.toNat, b = 0

/-- FRAME_PARSE completes on every well-formed line with an id in range, in either case (42_frame_serializer.md section
FRAME_PARSE): the frame it spells, no remote request, data bytes from the first on and 0 after them, the timestamp of
TS_IN, and nothing else but STATUS changes. -/
def Obligations.FrameParseReadsLine : Prop :=
  ∀ (s : State) (ext : Bool) (ids : List Byte) (dlc : Nat) (ds : List Byte), s.params.hasFser = true →
    s.rxLen.toNat ≤ 32 → rxBytes s = lineOf ext ids dlc ds → PartsOk ext ids dlc ds → hexNumber ids ≤ idLimit ext →
    exec .frameParse s = .next
      { s with
        frameId := BitVec.ofNat 29 (hexNumber ids)
        frameCtl := ⟨BitVec.ofNat 4 dlc, ext, false⟩
        frameData := wordOf (pairBytes ds)
        frameTs := s.tsIn
        status := ⟨0, 0, 0x11, s.status.sticky⟩ }

/-- R239, with the id's range (R240) and RXLEN at most 32 (R241): FRAME_PARSE completes exactly when RXLINE bytes 0 to
RXLEN − 1 are a line of the grammar whose id fits its frame kind. -/
def Obligations.FrameParseAcceptsExactlyTheGrammar : Prop :=
  ∀ s t : State, s.params.hasFser = true → exec .frameParse s = .next t →
    (t.status.code = 0 ↔
      s.rxLen.toNat ≤ 32
        ∧ ∃ ext ids dlc ds, PartsOk ext ids dlc ds ∧ hexNumber ids ≤ idLimit ext ∧ rxBytes s = lineOf ext ids dlc ds)

/-- R241: the INFO of LINE_MALFORMED is 0xFF when RXLEN > 32, 1 when the id is out of range, and otherwise the index of
the first byte that breaks the grammar. -/
def Obligations.FrameParseReportsFirstBreak : Prop :=
  ∀ s t : State, s.params.hasFser = true → exec .frameParse s = .next t → t.status.code ≠ 0 →
    t.status.code = 6
    ∧ (32 < s.rxLen.toNat → t.status.info = 0xFF)
    ∧ (s.rxLen.toNat ≤ 32 → IdOutOfRange (rxBytes s) → t.status.info = 1)
    ∧ (s.rxLen.toNat ≤ 32 → ¬ IdOutOfRange (rxBytes s) → FirstBreak (rxBytes s) t.status.info.toNat)

/-- Serializing a frame, copying TXLINE and TXLEN to RXLINE and RXLEN, and parsing gives the frame back, its payload
bytes from the data length on cleared and its timestamp TS_IN (42_frame_serializer.md section FRAME_PARSE, the round
trip, the spec's own inference). -/
def Obligations.SerializeThenParse : Prop :=
  ∀ s : State, s.params.hasFser = true → s.frameCtl.dlc.toNat ≤ 8 →
    (s.frameCtl.ext = false → s.frameId.toNat ≤ 0x7FF) → s.frameCtl.rtr = false →
    ∃ t u, exec .frameSerialize s = .next t ∧ exec .frameParse { t with rxLine := t.txLine, rxLen := t.txLen } = .next u
      ∧ u.status.code = 0 ∧ u.frameId = s.frameId ∧ u.frameCtl = s.frameCtl ∧ u.frameTs = s.tsIn
      ∧ ∀ k : Fin 8, u.frameData.extractLsb' (8 * k.val) 8
          = if k.val < s.frameCtl.dlc.toNat then s.frameData.extractLsb' (8 * k.val) 8 else 0

/-- Parsing a line and serializing the frame gives the line back with its hex digits in upper case
(42_frame_serializer.md section FRAME_PARSE, the round trip, the spec's own inference). -/
def Obligations.ParseThenSerialize : Prop :=
  ∀ s t : State, s.params.hasFser = true → exec .frameParse s = .next t → t.status.code = 0 →
    ∃ u, exec .frameSerialize t = .next u ∧ u.status.code = 0 ∧ txBytes u = (rxBytes s).map upperHex

/-- Every frame the block builds meets the Frame invariants, has no remote request, and has the timestamp of TS_IN
(42_frame_serializer.md section FRAME_PARSE and 41_codec_commands.md section ENCODE_FRAME, on the invariants of
10_state.md section 9). -/
def Obligations.BuiltFramesValid : Prop :=
  ∀ (i : Instr) (s t : State), i ∈ [.encodeFrame, .frameParse] → exec i s = .next t → t.status.code = 0 →
    FrameValid t ∧ t.frameCtl.rtr = false ∧ t.frameTs = s.tsIn

/-! ## The machine -/

/-- Every step keeps the invariant: STATUS holds only what the error table allows (R271's codes, their INFO values and the
commands that raise them); TXLINE and TXLEN hold no line and zeros, or an upper-case line of the grammar with an id in
range, its length, and zeros after it (R237); and a build without FSER has nothing in the FSER registers. -/
def Obligations.StepKeepsInvariant : Prop :=
  ∀ s t : State, s.Inv → step s = .next t → t.Inv

/-- The reset state meets the invariant, in a build with any parameters. -/
def Obligations.ResetMeetsInvariant : Prop :=
  State.reset.Inv ∧ ∀ p : Params, State.Inv { State.reset with params := p }

/-- STICKY after a batch of CMD writes is 1 exactly when it was before or some command of the batch raised
(70_reset_and_hazards.md section 3, the spec's own inference). -/
def Obligations.StickyRecordsAnyRaise : Prop :=
  ∀ (vs : List Word) (s t : State), s.hostQueue = vs.map (HostAccess.write 64 0x08) →
    Sys2Proof.core.run vs.length s = .next t →
    (t.status.sticky = true ↔
      s.status.sticky = true
        ∨ ∃ k < vs.length, ∃ u : State, Sys2Proof.core.run (k + 1) s = .next u ∧ u.status.code ≠ 0)
end

