-- ==== Sys2Proof/Laws/Bits.lean ====
section
/-! SUPPORT. What the bit and byte helpers compute, bit by bit. -/

namespace Sys2Proof.Machine

/-- The bits of a low mask. -/
@[simp] theorem lowMask_getLsbD (n i : Nat) : (lowMask n).getLsbD i = (decide (i < 64) && decide (i < n)) := by
  simp [lowMask, BitVec.getLsbD_ofNat]

@[simp] theorem lowMask_getElem (n i : Nat) (hi : i < 64) : (lowMask n)[i] = decide (i < n) := by
  rw [← BitVec.getLsbD_eq_getElem, lowMask_getLsbD]
  simp [hi]

/-- Masking a word below 2^n with the low n bits changes nothing. -/
theorem and_lowMask_of_lt {w : Word} {n : Nat} (h : w.toNat < 2 ^ n) : w &&& lowMask n = w := by
  apply BitVec.eq_of_getLsbD_eq
  intro i hi
  simp only [BitVec.getLsbD_and, lowMask_getLsbD, hi, decide_true, Bool.true_and]
  by_cases hn : i < n
  · simp [hn]
  · have : w.getLsbD i = false := by
      exact Nat.testBit_lt_two_pow (lt_of_lt_of_le h (Nat.pow_le_pow_right (by decide) (by omega)))
    simp [this]

/-- A masked word is below the mask's power of two. -/
theorem toNat_and_lowMask_lt (w : Word) (n : Nat) : (w &&& lowMask n).toNat < 2 ^ n := by
  have h : (lowMask n).toNat < 2 ^ n := by
    have := Nat.two_pow_pos n
    exact lt_of_le_of_lt (by simp [lowMask]; exact Nat.mod_le _ _) (Nat.sub_lt this (by decide))
  exact lt_of_le_of_lt (by rw [BitVec.toNat_and]; exact Nat.and_le_right) h

/-- The number of bytes taken. -/
@[simp] theorem bytesOf_length (n : Nat) (w : Word) : (bytesOf n w).length = n := by
  induction n generalizing w with
  | zero => rfl
  | succ n ih => simp [bytesOf, ih]

/-- Byte k of a word is bits 8k+7:8k. -/
theorem bytesOf_getElem? (n k : Nat) (w : Word) :
    (bytesOf n w)[k]? = if k < n then some (w.extractLsb' (8 * k) 8) else none := by
  induction n generalizing k w with
  | zero => simp [bytesOf]
  | succ n ih =>
    cases k with
    | zero =>
      simp only [bytesOf, List.getElem?_cons_zero, Nat.zero_lt_succ, if_true, Option.some.injEq]
      apply BitVec.eq_of_getLsbD_eq
      intro i hi
      simp [hi]
    | succ k =>
      simp only [bytesOf, List.getElem?_cons_succ, ih, Nat.add_lt_add_iff_right]
      split
      · congr 1
        apply BitVec.eq_of_getLsbD_eq
        intro i hi
        simp [hi]
        congr 1
        ring
      · rfl

/-- The bits of a word built from bytes. -/
theorem wordOf_getLsbD (l : List Byte) (i : Nat) :
    (wordOf l).getLsbD i = (decide (i < 64) && (l[i / 8]?.getD 0).getLsbD (i % 8)) := by
  induction l generalizing i with
  | nil => simp [wordOf]
  | cons b bs ih =>
    simp only [wordOf, BitVec.getLsbD_or, BitVec.getLsbD_setWidth, BitVec.getLsbD_shiftLeft, ih]
    by_cases hi : i < 64
    · by_cases h8 : i < 8
      · have : i / 8 = 0 := by omega
        have hm : i % 8 = i := by omega
        simp [hi, h8, this, hm]
      · have hq : i / 8 = (i - 8) / 8 + 1 := by omega
        have hm : (i - 8) % 8 = i % 8 := by omega
        have hb : b.getLsbD i = false := BitVec.getLsbD_of_ge _ _ (by omega)
        have : i - 8 < 64 := by omega
        simp [hi, h8, hq, hm, hb, this]
    · simp [hi]

/-- Byte k of a word built from bytes is the k-th byte. -/
theorem extract_wordOf (l : List Byte) {k : Nat} (hk : k < 8) :
    (wordOf l).extractLsb' (8 * k) 8 = l[k]?.getD 0 := by
  apply BitVec.eq_of_getLsbD_eq
  intro i hi
  have h1 : (8 * k + i) / 8 = k := by omega
  have h2 : (8 * k + i) % 8 = i := by omega
  have h3 : 8 * k + i < 64 := by omega
  rw [BitVec.getLsbD_extractLsb', wordOf_getLsbD, h1, h2]
  simp [hi, h3]

/-- The bytes of a word built from at most that many bytes are these bytes and zeros after them. -/
theorem bytesOf_wordOf {n : Nat} (hn : n ≤ 8) (l : List Byte) (hl : l.length ≤ n) :
    bytesOf n (wordOf l) = l ++ List.replicate (n - l.length) 0 := by
  apply List.ext_getElem?
  intro k
  rw [bytesOf_getElem?, List.getElem?_append, List.getElem?_replicate]
  split
  · rw [extract_wordOf l (by omega)]
    split
    · rename_i h
      simp [List.getElem?_eq_getElem h]
    · rename_i h
      rw [List.getElem?_eq_none (by omega), if_pos (by omega)]
      rfl
  · rw [if_neg (by omega), if_neg (by omega)]

/-- The word built from a word's low bytes is the word masked to them. -/
theorem wordOf_bytesOf (n : Nat) (w : Word) : wordOf (bytesOf n w) = w &&& lowMask (8 * n) := by
  apply BitVec.eq_of_getLsbD_eq
  intro i hi
  rw [wordOf_getLsbD, bytesOf_getElem?]
  simp only [BitVec.getLsbD_and, lowMask_getLsbD, hi, decide_true, Bool.true_and]
  by_cases h : i / 8 < n
  · have h1 : i < 8 * n := by omega
    have h2 : 8 * (i / 8) + i % 8 = i := by omega
    have h3 : i % 8 < 8 := by omega
    simp [h, h1, h2, h3]
  · have h1 : ¬ i < 8 * n := by omega
    simp [h, h1]

/-- A word equals another when all eight bytes do. -/
theorem word_eq_of_bytes {v w : Word} (h : ∀ k < 8, v.extractLsb' (8 * k) 8 = w.extractLsb' (8 * k) 8) : v = w := by
  apply BitVec.eq_of_getLsbD_eq
  intro i hi
  have := congrArg (fun b => b.getLsbD (i % 8)) (h (i / 8) (by omega))
  have h2 : 8 * (i / 8) + i % 8 = i := by omega
  have h3 : i % 8 < 8 := by omega
  simpa [h2, h3] using this

/-- Byte k of a byte-swapped word is byte n − 1 − k. -/
theorem extract_bswap {n k : Nat} (v : Word) (hn : n ≤ 8) (hk : k < n) :
    (bswap n v).extractLsb' (8 * k) 8 = v.extractLsb' (8 * (n - 1 - k)) 8 := by
  rw [bswap, extract_wordOf _ (by omega), List.getElem?_reverse (by simpa using hk), bytesOf_getElem?]
  simp [show n - 1 - k < n by omega]

/-- The bytes above a byte-swapped word are 0. -/
theorem extract_bswap_of_le {n k : Nat} (v : Word) (hk : n ≤ k) (hk8 : k < 8) :
    (bswap n v).extractLsb' (8 * k) 8 = 0 := by
  rw [bswap, extract_wordOf _ hk8, List.getElem?_eq_none (by simpa using hk)]
  rfl

end Sys2Proof.Machine
end

