-- ==== Sys2Proof/Laws/State.lean ====
section
/-! SUPPORT. What each update of the state leaves in each field: one lemma per field, true by rfl, so that no later proof
unfolds a record update. -/

namespace Sys2Proof.Machine

/-! ## raise -/

@[simp] theorem State.raise_params (s : State) (op : Byte) (e : Raised) : (s.raise op e).params = s.params := rfl
@[simp] theorem State.raise_status (s : State) (op : Byte) (e : Raised) : (s.raise op e).status = Status.raised op e := rfl
@[simp] theorem State.raise_cfg (s : State) (op : Byte) (e : Raised) : (s.raise op e).cfg = s.cfg := rfl
@[simp] theorem State.raise_value (s : State) (op : Byte) (e : Raised) : (s.raise op e).value = s.value := rfl
@[simp] theorem State.raise_payloadIn (s : State) (op : Byte) (e : Raised) : (s.raise op e).payloadIn = s.payloadIn := rfl
@[simp] theorem State.raise_payloadOut (s : State) (op : Byte) (e : Raised) : (s.raise op e).payloadOut = s.payloadOut := rfl
@[simp] theorem State.raise_resultWord (s : State) (op : Byte) (e : Raised) : (s.raise op e).resultWord = s.resultWord := rfl
@[simp] theorem State.raise_resultValue (s : State) (op : Byte) (e : Raised) : (s.raise op e).resultValue = s.resultValue := rfl
@[simp] theorem State.raise_tsIn (s : State) (op : Byte) (e : Raised) : (s.raise op e).tsIn = s.tsIn := rfl
@[simp] theorem State.raise_frameId (s : State) (op : Byte) (e : Raised) : (s.raise op e).frameId = s.frameId := rfl
@[simp] theorem State.raise_frameCtl (s : State) (op : Byte) (e : Raised) : (s.raise op e).frameCtl = s.frameCtl := rfl
@[simp] theorem State.raise_frameData (s : State) (op : Byte) (e : Raised) : (s.raise op e).frameData = s.frameData := rfl
@[simp] theorem State.raise_frameTs (s : State) (op : Byte) (e : Raised) : (s.raise op e).frameTs = s.frameTs := rfl
@[simp] theorem State.raise_txLen (s : State) (op : Byte) (e : Raised) : (s.raise op e).txLen = s.txLen := rfl
@[simp] theorem State.raise_rxLen (s : State) (op : Byte) (e : Raised) : (s.raise op e).rxLen = s.rxLen := rfl
@[simp] theorem State.raise_txLine (s : State) (op : Byte) (e : Raised) : (s.raise op e).txLine = s.txLine := rfl
@[simp] theorem State.raise_rxLine (s : State) (op : Byte) (e : Raised) : (s.raise op e).rxLine = s.rxLine := rfl
@[simp] theorem State.raise_hostQueue (s : State) (op : Byte) (e : Raised) : (s.raise op e).hostQueue = s.hostQueue := rfl
@[simp] theorem State.raise_hostData (s : State) (op : Byte) (e : Raised) : (s.raise op e).hostData = s.hostData := rfl

/-! ## complete -/

@[simp] theorem State.complete_params (s : State) (op : Byte) : (s.complete op).params = s.params := rfl
@[simp] theorem State.complete_status (s : State) (op : Byte) : (s.complete op).status = s.status.completed op := rfl
@[simp] theorem State.complete_cfg (s : State) (op : Byte) : (s.complete op).cfg = s.cfg := rfl
@[simp] theorem State.complete_value (s : State) (op : Byte) : (s.complete op).value = s.value := rfl
@[simp] theorem State.complete_payloadIn (s : State) (op : Byte) : (s.complete op).payloadIn = s.payloadIn := rfl
@[simp] theorem State.complete_payloadOut (s : State) (op : Byte) : (s.complete op).payloadOut = s.payloadOut := rfl
@[simp] theorem State.complete_resultWord (s : State) (op : Byte) : (s.complete op).resultWord = s.resultWord := rfl
@[simp] theorem State.complete_resultValue (s : State) (op : Byte) : (s.complete op).resultValue = s.resultValue := rfl
@[simp] theorem State.complete_tsIn (s : State) (op : Byte) : (s.complete op).tsIn = s.tsIn := rfl
@[simp] theorem State.complete_frameId (s : State) (op : Byte) : (s.complete op).frameId = s.frameId := rfl
@[simp] theorem State.complete_frameCtl (s : State) (op : Byte) : (s.complete op).frameCtl = s.frameCtl := rfl
@[simp] theorem State.complete_frameData (s : State) (op : Byte) : (s.complete op).frameData = s.frameData := rfl
@[simp] theorem State.complete_frameTs (s : State) (op : Byte) : (s.complete op).frameTs = s.frameTs := rfl
@[simp] theorem State.complete_txLen (s : State) (op : Byte) : (s.complete op).txLen = s.txLen := rfl
@[simp] theorem State.complete_rxLen (s : State) (op : Byte) : (s.complete op).rxLen = s.rxLen := rfl
@[simp] theorem State.complete_txLine (s : State) (op : Byte) : (s.complete op).txLine = s.txLine := rfl
@[simp] theorem State.complete_rxLine (s : State) (op : Byte) : (s.complete op).rxLine = s.rxLine := rfl
@[simp] theorem State.complete_hostQueue (s : State) (op : Byte) : (s.complete op).hostQueue = s.hostQueue := rfl
@[simp] theorem State.complete_hostData (s : State) (op : Byte) : (s.complete op).hostData = s.hostData := rfl

/-! ## the reset input -/

@[simp] theorem resetBlock_params (s : State) : (resetBlock s).params = s.params := rfl
@[simp] theorem resetBlock_status (s : State) : (resetBlock s).status = State.reset.status := rfl
@[simp] theorem resetBlock_cfg (s : State) : (resetBlock s).cfg = State.reset.cfg := rfl
@[simp] theorem resetBlock_value (s : State) : (resetBlock s).value = State.reset.value := rfl
@[simp] theorem resetBlock_payloadIn (s : State) : (resetBlock s).payloadIn = State.reset.payloadIn := rfl
@[simp] theorem resetBlock_payloadOut (s : State) : (resetBlock s).payloadOut = State.reset.payloadOut := rfl
@[simp] theorem resetBlock_resultWord (s : State) : (resetBlock s).resultWord = State.reset.resultWord := rfl
@[simp] theorem resetBlock_resultValue (s : State) : (resetBlock s).resultValue = State.reset.resultValue := rfl
@[simp] theorem resetBlock_tsIn (s : State) : (resetBlock s).tsIn = State.reset.tsIn := rfl
@[simp] theorem resetBlock_frameId (s : State) : (resetBlock s).frameId = State.reset.frameId := rfl
@[simp] theorem resetBlock_frameCtl (s : State) : (resetBlock s).frameCtl = State.reset.frameCtl := rfl
@[simp] theorem resetBlock_frameData (s : State) : (resetBlock s).frameData = State.reset.frameData := rfl
@[simp] theorem resetBlock_frameTs (s : State) : (resetBlock s).frameTs = State.reset.frameTs := rfl
@[simp] theorem resetBlock_txLen (s : State) : (resetBlock s).txLen = State.reset.txLen := rfl
@[simp] theorem resetBlock_rxLen (s : State) : (resetBlock s).rxLen = State.reset.rxLen := rfl
@[simp] theorem resetBlock_txLine (s : State) : (resetBlock s).txLine = State.reset.txLine := rfl
@[simp] theorem resetBlock_rxLine (s : State) : (resetBlock s).rxLine = State.reset.rxLine := rfl
@[simp] theorem resetBlock_hostQueue (s : State) : (resetBlock s).hostQueue = s.hostQueue := rfl
@[simp] theorem resetBlock_hostData (s : State) : (resetBlock s).hostData = State.reset.hostData := rfl

/-! ## the next command placed -/

@[simp] theorem withCommandNext_params (s : State) (v : Word) : (withCommandNext v s).params = s.params := rfl
@[simp] theorem withCommandNext_status (s : State) (v : Word) : (withCommandNext v s).status = s.status := rfl
@[simp] theorem withCommandNext_cfg (s : State) (v : Word) : (withCommandNext v s).cfg = s.cfg := rfl
@[simp] theorem withCommandNext_value (s : State) (v : Word) : (withCommandNext v s).value = s.value := rfl
@[simp] theorem withCommandNext_payloadIn (s : State) (v : Word) : (withCommandNext v s).payloadIn = s.payloadIn := rfl
@[simp] theorem withCommandNext_payloadOut (s : State) (v : Word) : (withCommandNext v s).payloadOut = s.payloadOut := rfl
@[simp] theorem withCommandNext_resultWord (s : State) (v : Word) : (withCommandNext v s).resultWord = s.resultWord := rfl
@[simp] theorem withCommandNext_resultValue (s : State) (v : Word) : (withCommandNext v s).resultValue = s.resultValue := rfl
@[simp] theorem withCommandNext_tsIn (s : State) (v : Word) : (withCommandNext v s).tsIn = s.tsIn := rfl
@[simp] theorem withCommandNext_frameId (s : State) (v : Word) : (withCommandNext v s).frameId = s.frameId := rfl
@[simp] theorem withCommandNext_frameCtl (s : State) (v : Word) : (withCommandNext v s).frameCtl = s.frameCtl := rfl
@[simp] theorem withCommandNext_frameData (s : State) (v : Word) : (withCommandNext v s).frameData = s.frameData := rfl
@[simp] theorem withCommandNext_frameTs (s : State) (v : Word) : (withCommandNext v s).frameTs = s.frameTs := rfl
@[simp] theorem withCommandNext_txLen (s : State) (v : Word) : (withCommandNext v s).txLen = s.txLen := rfl
@[simp] theorem withCommandNext_rxLen (s : State) (v : Word) : (withCommandNext v s).rxLen = s.rxLen := rfl
@[simp] theorem withCommandNext_txLine (s : State) (v : Word) : (withCommandNext v s).txLine = s.txLine := rfl
@[simp] theorem withCommandNext_rxLine (s : State) (v : Word) : (withCommandNext v s).rxLine = s.rxLine := rfl
@[simp] theorem withCommandNext_hostQueue (s : State) (v : Word) : (withCommandNext v s).hostQueue = .write 64 0x08 v :: s.hostQueue := rfl
@[simp] theorem withCommandNext_hostData (s : State) (v : Word) : (withCommandNext v s).hostData = s.hostData := rfl

/-! ## STATUS -/

@[simp] theorem Status.completed_code (st : Status) (op : Byte) : (st.completed op).code = 0 := rfl
@[simp] theorem Status.completed_info (st : Status) (op : Byte) : (st.completed op).info = 0 := rfl
@[simp] theorem Status.completed_lastOp (st : Status) (op : Byte) : (st.completed op).lastOp = op := rfl
@[simp] theorem Status.completed_sticky (st : Status) (op : Byte) : (st.completed op).sticky = st.sticky := rfl
@[simp] theorem Status.raised_code (op : Byte) (e : Raised) : (Status.raised op e).code = e.code.number := rfl
@[simp] theorem Status.raised_info (op : Byte) (e : Raised) : (Status.raised op e).info = e.info := rfl
@[simp] theorem Status.raised_lastOp (op : Byte) (e : Raised) : (Status.raised op e).lastOp = op := rfl
@[simp] theorem Status.raised_sticky (op : Byte) (e : Raised) : (Status.raised op e).sticky = true := rfl
@[simp] theorem Status.hostWritten_code (st : Status) (v : Word) : (st.hostWritten v).code = st.code := rfl
@[simp] theorem Status.hostWritten_info (st : Status) (v : Word) : (st.hostWritten v).info = st.info := rfl
@[simp] theorem Status.hostWritten_lastOp (st : Status) (v : Word) : (st.hostWritten v).lastOp = st.lastOp := rfl
@[simp] theorem Status.hostWritten_sticky (st : Status) (v : Word) :
    (st.hostWritten v).sticky = (st.sticky && !v.getLsbD 24) := rfl

/-- An error code is never OK's number. -/
theorem ErrorCode.number_ne_zero (c : ErrorCode) : c.number ≠ 0 := by cases c <;> decide

/-- Error codes are the numbers 1 to 6 (60_exceptions.md R271). -/
theorem ErrorCode.number_le_six (c : ErrorCode) : c.number.toNat ≤ 6 := by cases c <;> decide

end Sys2Proof.Machine
end

