-- ==== Sys2Proof/Laws/Ops.lean ====
section
/-! SUPPORT. What the shared operations can do, said once: how a command ends, what a host access answers, what the host's
write of one register leaves of the others. -/

namespace Sys2Proof.Machine

/-! ## Ending a command -/

/-- A command that ends with all its outputs written completes. -/
@[simp] theorem State.finish_ok (s t : State) (op : Byte) : s.finish op (.ok t) = .next (t.complete op) := rfl

/-- A command that ends with an error has changed STATUS alone. -/
@[simp] theorem State.finish_error (s : State) (op : Byte) (e : Raised) : s.finish op (.error e) = .next (s.raise op e) :=
  rfl

/-- Every command ends in a next state: with its outputs, or with the error. -/
theorem State.finish_cases {s t : State} {op : Byte} {r : Except Raised State} (h : s.finish op r = .next t) :
    (∃ u, r = .ok u ∧ t = u.complete op) ∨ ∃ e, r = .error e ∧ t = s.raise op e := by
  cases r with
  | ok u => exact .inl ⟨u, rfl, by simpa using h.symm⟩
  | error e => exact .inr ⟨e, rfl, by simpa using h.symm⟩

/-- Ending a command always answers a next state. -/
theorem State.finish_next (s : State) (op : Byte) (r : Except Raised State) : ∃ t, s.finish op r = .next t := by
  cases r <;> exact ⟨_, rfl⟩

/-- A present FSER unit changes nothing of a command's result. -/
@[simp] theorem withFser_present {s : State} (r : Except Raised State) (h : s.params.hasFser = true) :
    withFser s r = r := by simp [withFser, h]

/-- An absent FSER unit raises ILLEGAL_COMMAND with INFO 3. -/
@[simp] theorem withFser_absent {s : State} (r : Except Raised State) (h : s.params.hasFser = false) :
    withFser s r = .error { code := .illegalCommand, info := 3 } := by simp [withFser, h]

/-! ## Commands never stop -/

/-- Every command is an end of a command: some result, ended under the command's own opcode. -/
theorem exec_eq_finish (i : Instr) (s : State) : ∃ r, exec i s = s.finish (opcodeOf i) r := by
  cases i <;> exact ⟨_, rfl⟩

/-- A write of CMD always answers a next state. -/
theorem runCommand_next (v : Word) (s : State) : ∃ t, runCommand v s = .next t := by
  unfold runCommand
  split
  · obtain ⟨r, hr⟩ := exec_eq_finish ‹_› s
    rw [hr]
    exact s.finish_next _ r
  · exact ⟨_, rfl⟩
  · exact ⟨_, rfl⟩

/-- A host write at a defined offset always answers a next state. -/
theorem hostWrite_next (off : Nat) (v : Word) (s : State) : ∃ t, hostWrite off v s = .next t := by
  unfold hostWrite
  split
  · exact runCommand_next v s
  · exact ⟨_, rfl⟩
  · exact ⟨_, rfl⟩

/-! ## Host accesses -/

/-- The host port refuses exactly the accesses the block does not define (20_memory.md R82). -/
theorem accessRefusal_eq_none {bits off : Nat} :
    accessRefusal bits off = none ↔ bits = 64 ∧ off < 0x100 ∧ off % 8 = 0 := by
  unfold accessRefusal
  split_ifs <;> simp <;> omega

/-- A register's offset is one the block defines. -/
@[simp] theorem accessRefusal_offset (r : Reg) : accessRefusal 64 r.offset = none := by cases r <;> rfl

/-- A register is found at its offset. -/
@[simp] theorem regAt_offset (r : Reg) : regAt r.offset = some r := by cases r <;> rfl

/-- What a step does with the host's next access. -/
theorem step_access {s : State} {a : HostAccess} {rest : List HostAccess} (h : s.hostQueue = a :: rest) :
    step s = performAccess a { s with hostQueue := rest, hostData := none } := by
  simp [step, nextAccess, h]

/-- A step with no access pending changes nothing. -/
theorem step_waits {s : State} (h : s.hostQueue = []) : step s = .next s := by
  simp [step, nextAccess, h, waitForHost]

/-- A 64-bit write to CMD runs the value written. -/
theorem step_command {s : State} {v : Word} {rest : List HostAccess} (h : s.hostQueue = .write 64 0x08 v :: rest) :
    step s = runCommand v { s with hostQueue := rest, hostData := none } := by
  rw [step_access h]
  rfl

/-- A 64-bit write to any other register stores. -/
theorem step_write {s : State} {r : Reg} {v : Word} {rest : List HostAccess} (hr : r ≠ .cmd)
    (h : s.hostQueue = .write 64 r.offset v :: rest) :
    step s = .next (writeReg r v { s with hostQueue := rest, hostData := none }) := by
  rw [step_access h]
  cases r <;> first | rfl | exact absurd rfl hr

/-- A 64-bit read of a register answers its word. -/
theorem step_read {s : State} {r : Reg} {rest : List HostAccess} (h : s.hostQueue = .read 64 r.offset :: rest) :
    step s = .next { s with hostQueue := rest, hostData := some (readReg r s) } := by
  rw [step_access h]
  cases r <;> rfl

/-! ## One register -/

/-- The registers depend on no field of the host port. -/
@[simp] theorem readReg_host (r : Reg) (s : State) (q : List HostAccess) (d : Option Word) :
    readReg r { s with hostQueue := q, hostData := d } = readReg r s := by
  cases r <;> rfl

/-- A host write of one register leaves the parameters and the host port as they were. -/
theorem writeReg_frame (r : Reg) (v : Word) (s : State) :
    (writeReg r v s).params = s.params ∧ (writeReg r v s).hostQueue = s.hostQueue
      ∧ (writeReg r v s).hostData = s.hostData := by
  cases r <;> refine ⟨?_, ?_, ?_⟩ <;> simp only [writeReg, State.ifFser] <;> first | rfl | (split <;> rfl)

/-- A host write of one register leaves every other register's word as it was. -/
theorem readReg_writeReg_of_ne {r r' : Reg} (v : Word) (s : State) (h : r' ≠ r) :
    readReg r' (writeReg r v s) = readReg r' s := by
  cases r <;> cases r' <;> first
    | exact absurd rfl h
    | rfl
    | (cases hf : s.params.hasFser <;> simp [writeReg, State.ifFser, readReg, State.fserWord, hf])

end Sys2Proof.Machine
end

