-- ==== Sys2Proof/Laws/Commands.lean ====
section
/-! SUPPORT. What each command and each step can answer: one inversion lemma each, so that no later proof unfolds them. -/

namespace Sys2Proof.Machine

/-! ## The commands -/

/-- ENCODE writes PAYLOAD_OUT or raises what the encode raises (41_codec_commands.md R191). -/
theorem execEncode_cases {s t : State} (h : execEncode s = .next t) :
    (∃ p, encodeWord s.params.motoSwap s.cfg s.value = .ok p ∧ t = State.complete { s with payloadOut := p } 0x01)
    ∨ ∃ e, encodeWord s.params.motoSwap s.cfg s.value = .error e ∧ t = s.raise 0x01 e := by
  unfold execEncode at h
  split at h
  · exact .inr ⟨_, ‹_›, by simpa [opcodeOf] using h.symm⟩
  · exact .inl ⟨_, ‹_›, by simpa [opcodeOf] using h.symm⟩

/-- A decode writes the two result registers or raises what the decode raises. -/
theorem decodeInto_cases (p : Word) (s : State) :
    (∃ rw rv, decodeWord s.params.motoSwap s.cfg p = .ok (rw, rv)
        ∧ decodeInto p s = .ok { s with resultWord := rw, resultValue := rv })
    ∨ ∃ e, decodeWord s.params.motoSwap s.cfg p = .error e ∧ decodeInto p s = .error e := by
  unfold decodeInto
  split
  · exact .inr ⟨_, ‹_›, rfl⟩
  · exact .inl ⟨_, _, ‹_›, rfl⟩

/-- DECODE decodes PAYLOAD_IN (41_codec_commands.md R192). -/
theorem execDecode_cases {s t : State} (h : execDecode s = .next t) :
    (∃ rw rv, decodeWord s.params.motoSwap s.cfg s.payloadIn = .ok (rw, rv)
        ∧ t = State.complete { s with resultWord := rw, resultValue := rv } 0x02)
    ∨ ∃ e, decodeWord s.params.motoSwap s.cfg s.payloadIn = .error e ∧ t = s.raise 0x02 e := by
  unfold execDecode at h
  rcases decodeInto_cases s.payloadIn s with ⟨rw', rv, hd, he⟩ | ⟨e, hd, he⟩ <;> rw [he] at h
  · exact .inl ⟨rw', rv, hd, by simpa [opcodeOf] using h.symm⟩
  · exact .inr ⟨e, hd, by simpa [opcodeOf] using h.symm⟩

/-- DECODE_FRAME decodes FRAME_DATA (41_codec_commands.md R194). -/
theorem execDecodeFrame_cases {s t : State} (h : execDecodeFrame s = .next t) :
    (∃ rw rv, decodeWord s.params.motoSwap s.cfg s.frameData = .ok (rw, rv)
        ∧ t = State.complete { s with resultWord := rw, resultValue := rv } 0x04)
    ∨ ∃ e, decodeWord s.params.motoSwap s.cfg s.frameData = .error e ∧ t = s.raise 0x04 e := by
  unfold execDecodeFrame at h
  rcases decodeInto_cases s.frameData s with ⟨rw', rv, hd, he⟩ | ⟨e, hd, he⟩ <;> rw [he] at h
  · exact .inl ⟨rw', rv, hd, by simpa [opcodeOf] using h.symm⟩
  · exact .inr ⟨e, hd, by simpa [opcodeOf] using h.symm⟩

/-- ENCODE_FRAME writes PAYLOAD_OUT and the frame, or raises what the encode raises, or else refuses the id
(41_codec_commands.md R193). -/
theorem execEncodeFrame_cases {s t : State} (h : execEncodeFrame s = .next t) :
    (∃ p, encodeWord s.params.motoSwap s.cfg s.value = .ok p ∧ idTooWide s.cfg.sigExt s.cfg.sigId = false
        ∧ t = State.complete
            { s with
              payloadOut := p
              frameId := s.cfg.sigId
              frameCtl := { dlc := 8, ext := s.cfg.sigExt, rtr := false }
              frameData := p
              frameTs := s.tsIn } 0x03)
    ∨ (∃ e, encodeWord s.params.motoSwap s.cfg s.value = .error e ∧ t = s.raise 0x03 e)
    ∨ (∃ p, encodeWord s.params.motoSwap s.cfg s.value = .ok p ∧ idTooWide s.cfg.sigExt s.cfg.sigId = true
        ∧ t = s.raise 0x03 { code := .frameInvalid, info := 2 }) := by
  unfold execEncodeFrame at h
  split at h
  · exact .inr (.inl ⟨_, ‹_›, by simpa [opcodeOf] using h.symm⟩)
  · rename_i p hp
    split at h
    · exact .inr (.inr ⟨p, hp, ‹_›, by simpa [opcodeOf] using h.symm⟩)
    · rename_i hw
      exact .inl ⟨p, hp, by simpa using hw, by simpa [opcodeOf] using h.symm⟩

/-- FRAME_SERIALIZE writes the line of the frame, or refuses an absent unit, or else raises what the frame's checks raise
(42_frame_serializer.md R236, R230). -/
theorem execFrameSerialize_cases {s t : State} (h : execFrameSerialize s = .next t) :
    (s.params.hasFser = true ∧ checkFrame s.frameId s.frameCtl = .ok ()
        ∧ t = State.complete
            { s with
              txLine := LineBuf.ofBytes (frameLine s.frameId s.frameCtl s.frameData)
              txLen := BitVec.ofNat 8 (frameLine s.frameId s.frameCtl s.frameData).length } 0x10)
    ∨ (s.params.hasFser = true ∧ ∃ e, checkFrame s.frameId s.frameCtl = .error e ∧ t = s.raise 0x10 e)
    ∨ (s.params.hasFser = false ∧ t = s.raise 0x10 { code := .illegalCommand, info := 3 }) := by
  unfold execFrameSerialize at h
  cases hf : s.params.hasFser with
  | false =>
    rw [withFser_absent _ hf] at h
    exact .inr (.inr ⟨rfl, by simpa [opcodeOf] using h.symm⟩)
  | true =>
    rw [withFser_present _ hf] at h
    split at h
    · exact .inr (.inl ⟨rfl, _, ‹_›, by simpa [opcodeOf] using h.symm⟩)
    · exact .inl ⟨rfl, ‹_›, by simpa [opcodeOf] using h.symm⟩

/-- FRAME_PARSE writes the frame of the line, or refuses an absent unit, or else raises LINE_MALFORMED with the INFO of
R241 (42_frame_serializer.md R238, R230). -/
theorem execFrameParse_cases {s t : State} (h : execFrameParse s = .next t) :
    (s.params.hasFser = true ∧ s.rxLen.toNat ≤ 32 ∧ ∃ f, parseLine (s.rxLine.bytes.take s.rxLen.toNat) = .ok f
        ∧ t = State.complete
            { s with
              frameId := BitVec.ofNat 29 f.id
              frameCtl := { dlc := BitVec.ofNat 4 f.data.length, ext := f.ext, rtr := false }
              frameData := wordOf f.data
              frameTs := s.tsIn } 0x11)
    ∨ (s.params.hasFser = true ∧ s.rxLen.toNat ≤ 32 ∧ ∃ q, parseLine (s.rxLine.bytes.take s.rxLen.toNat) = .error q
        ∧ t = s.raise 0x11 { code := .lineMalformed, info := BitVec.ofNat 8 q })
    ∨ (s.params.hasFser = true ∧ 32 < s.rxLen.toNat ∧ t = s.raise 0x11 { code := .lineMalformed, info := 0xFF })
    ∨ (s.params.hasFser = false ∧ t = s.raise 0x11 { code := .illegalCommand, info := 3 }) := by
  unfold execFrameParse at h
  cases hf : s.params.hasFser with
  | false =>
    rw [withFser_absent _ hf] at h
    exact .inr (.inr (.inr ⟨rfl, by simpa [opcodeOf] using h.symm⟩))
  | true =>
    rw [withFser_present _ hf] at h
    split_ifs at h with h32
    · exact .inr (.inr (.inl ⟨rfl, h32, by simpa [opcodeOf] using h.symm⟩))
    · split at h
      · exact .inr (.inl ⟨rfl, by omega, _, ‹_›, by simpa [opcodeOf] using h.symm⟩)
      · exact .inl ⟨rfl, by omega, _, ‹_›, by simpa [opcodeOf] using h.symm⟩

/-- No command changes the parameters or the host port. -/
theorem exec_host_frame {i : Instr} {s t : State} (h : exec i s = .next t) :
    t.params = s.params ∧ t.hostQueue = s.hostQueue ∧ t.hostData = s.hostData := by
  cases i with
  | encode => rcases execEncode_cases h with ⟨_, _, rfl⟩ | ⟨_, _, rfl⟩ <;> simp
  | decode => rcases execDecode_cases h with ⟨_, _, _, rfl⟩ | ⟨_, _, rfl⟩ <;> simp
  | encodeFrame => rcases execEncodeFrame_cases h with ⟨_, _, _, rfl⟩ | ⟨_, _, rfl⟩ | ⟨_, _, _, rfl⟩ <;> simp
  | decodeFrame => rcases execDecodeFrame_cases h with ⟨_, _, _, rfl⟩ | ⟨_, _, rfl⟩ <;> simp
  | frameSerialize => rcases execFrameSerialize_cases h with ⟨_, _, rfl⟩ | ⟨_, _, _, rfl⟩ | ⟨_, rfl⟩ <;> simp
  | frameParse =>
    rcases execFrameParse_cases h with ⟨_, _, _, _, rfl⟩ | ⟨_, _, _, _, rfl⟩ | ⟨_, _, rfl⟩ | ⟨_, rfl⟩ <;> simp

/-! ## Steps -/

/-- A CMD write runs the command it selects, or raises ILLEGAL_COMMAND for RSV or for OP (60_exceptions.md R272). -/
theorem runCommand_cases {v : Word} {s t : State} (h : runCommand v s = .next t) :
    (∃ i, decode v = .ok i ∧ exec i s = .next t)
    ∨ (decode v = .error .reservedBits ∧ t = s.raise (opField v) { code := .illegalCommand, info := 2 })
    ∨ (decode v = .error .unassignedOp ∧ t = s.raise (opField v) { code := .illegalCommand, info := 1 }) := by
  unfold runCommand at h
  split at h
  · exact .inl ⟨_, ‹_›, h⟩
  · exact .inr (.inl ⟨‹_›, by simpa using h.symm⟩)
  · exact .inr (.inr ⟨‹_›, by simpa using h.symm⟩)

/-- What a host write at a defined offset does. -/
theorem hostWrite_cases {off : Nat} {v : Word} {s t : State} (h : hostWrite off v s = .next t) :
    (regAt off = some .cmd ∧ runCommand v s = .next t)
    ∨ (∃ r, regAt off = some r ∧ r ≠ .cmd ∧ t = writeReg r v s)
    ∨ (regAt off = none ∧ t = s) := by
  unfold hostWrite at h
  split at h
  · exact .inl ⟨‹_›, h⟩
  · exact .inr (.inl ⟨_, ‹_›, by rintro rfl; simp_all, by simpa using h.symm⟩)
  · exact .inr (.inr ⟨‹_›, by simpa using h.symm⟩)

/-- Everything a step can do: wait, reset, answer a read, run a CMD write, store to a register, ignore a reserved slot. -/
theorem step_cases {s t : State} (h : step s = .next t) :
    (s.hostQueue = [] ∧ t = s)
    ∨ ∃ a rest, s.hostQueue = a :: rest
      ∧ ((a = .reset ∧ t = resetBlock { s with hostQueue := rest, hostData := none })
        ∨ (∃ off, a = .read 64 off ∧ off < 0x100 ∧ off % 8 = 0
            ∧ t = { s with
                    hostQueue := rest
                    hostData := some (hostRead off { s with hostQueue := rest, hostData := none }) })
        ∨ (∃ off v, a = .write 64 off v ∧ off < 0x100 ∧ off % 8 = 0
            ∧ ((regAt off = some .cmd ∧ runCommand v { s with hostQueue := rest, hostData := none } = .next t)
              ∨ (∃ r, regAt off = some r ∧ r ≠ .cmd
                  ∧ t = writeReg r v { s with hostQueue := rest, hostData := none })
              ∨ (regAt off = none ∧ t = { s with hostQueue := rest, hostData := none })))) := by
  cases hq : s.hostQueue with
  | nil =>
    rw [step_waits hq] at h
    exact .inl ⟨rfl, by simpa using h.symm⟩
  | cons a rest =>
    rw [step_access hq] at h
    refine .inr ⟨a, rest, rfl, ?_⟩
    cases a with
    | reset => exact .inl ⟨rfl, by simpa [performAccess] using h.symm⟩
    | read bits off =>
      simp only [performAccess] at h
      split at h
      · cases h
      · rename_i hn
        obtain ⟨rfl, h1, h2⟩ := accessRefusal_eq_none.1 hn
        exact .inr (.inl ⟨off, rfl, h1, h2, by simpa using h.symm⟩)
    | write bits off v =>
      simp only [performAccess] at h
      split at h
      · cases h
      · rename_i hn
        obtain ⟨rfl, h1, h2⟩ := accessRefusal_eq_none.1 hn
        exact .inr (.inr ⟨off, v, rfl, h1, h2, hostWrite_cases h⟩)

/-- A property that holds of a state and that every step keeps holds after any number of steps. -/
theorem run_keeps {P : State → Prop} (hstep : ∀ s t, P s → step s = .next t → P t) (n : Nat) {s t : State} (hs : P s)
    (h : Sys2Proof.core.run n s = .next t) : P t := by
  induction n generalizing s with
  | zero =>
    cases h
    exact hs
  | succ n ih =>
    simp only [Host.Core.run] at h
    split at h
    · exact ih (hstep _ _ hs ‹_›) h
    · cases h
    · cases h

end Sys2Proof.Machine
end

