-- ==== Sys2Proof/Laws/Datapath.lean ====
section
/-! SUPPORT. What the field check, placement and extraction compute. -/

namespace Sys2Proof.Machine

/-! ## The field check -/

/-- The unrecognised TYPE codes are 11 to 15 (30_encoding.md R116). -/
theorem dataTypeOf_eq_none {c : BitVec 4} : dataTypeOf c = none ↔ 11 ≤ c.toNat := by
  revert c; decide

/-- A recognised TYPE code is its data type's own (30_encoding.md R115). -/
theorem dataTypeOf_eq_some {c : BitVec 4} {t : DataType} : dataTypeOf c = some t ↔ c = typeCode t := by
  revert c; cases t <;> decide

/-- What the field check answers, and when (40_codec_datapath.md R142). -/
theorem checkSpec_ok {c : Cfg} {t : DataType} (ht : dataTypeOf c.dtype = some t) (h : (c.field t).Legal) :
    checkSpec c = .ok (c.field t) := by
  obtain ⟨h1, h2, h3⟩ := h
  simp only [Cfg.field] at h1 h2 h3
  simp only [checkSpec, ht]
  rw [if_neg (by omega), if_neg (by omega)]
  rfl

/-- The field check fails with INFO 1 on an unrecognised TYPE. -/
theorem checkSpec_type {c : Cfg} (h : 11 ≤ c.dtype.toNat) : checkSpec c = .error { code := .invalidFieldSpec, info := 1 } := by
  simp only [checkSpec, dataTypeOf_eq_none.2 h]

/-- Every other TYPE is recognised. -/
theorem exists_dataTypeOf {c : BitVec 4} (h : c.toNat ≤ 10) : ∃ t, dataTypeOf c = some t := by
  cases ht : dataTypeOf c with
  | none => exact absurd (dataTypeOf_eq_none.1 ht) (by omega)
  | some t => exact ⟨t, rfl⟩

/-- The field check fails with INFO 2 on a START out of range. -/
theorem checkSpec_start {c : Cfg} (h : c.dtype.toNat ≤ 10) (hs : 64 ≤ c.start.toNat) :
    checkSpec c = .error { code := .invalidFieldSpec, info := 2 } := by
  obtain ⟨t, ht⟩ := exists_dataTypeOf h
  simp only [checkSpec, ht, hs, if_true]

/-- The field check fails with INFO 3 on a LEN out of range. -/
theorem checkSpec_len {c : Cfg} (h : c.dtype.toNat ≤ 10) (hs : c.start.toNat ≤ 63)
    (hl : c.len.toNat = 0 ∨ 65 ≤ c.len.toNat) : checkSpec c = .error { code := .invalidFieldSpec, info := 3 } := by
  obtain ⟨t, ht⟩ := exists_dataTypeOf h
  simp only [checkSpec, ht]
  rw [if_neg (by omega), if_pos hl]

/-- A field the check passes is CFG's, of a recognised type and in range. -/
theorem checkSpec_cases {c : Cfg} {f : FieldSpec} (h : checkSpec c = .ok f) :
    ∃ t, dataTypeOf c.dtype = some t ∧ f = c.field t ∧ f.Legal := by
  unfold checkSpec at h
  split at h
  · cases h
  · rename_i t ht
    split_ifs at h with h1 h2
    cases h
    refine ⟨t, ht, rfl, ?_⟩
    simp only [FieldSpec.Legal]
    omega

/-- An error of the field check is INVALID_FIELD_SPEC with INFO 1, 2 or 3. -/
theorem checkSpec_error {c : Cfg} {e : Raised} (h : checkSpec c = .error e) :
    e.code = .invalidFieldSpec ∧ e.info ∈ [1, 2, 3] ∧ ¬ c.Legal := by
  unfold checkSpec at h
  split at h
  · rename_i ht
    cases h
    have := dataTypeOf_eq_none.1 ht
    exact ⟨rfl, by simp, fun hl => by have := hl.1; omega⟩
  · split_ifs at h with h1 h2
    · cases h
      exact ⟨rfl, by simp, fun hl => by have := hl.2.1; omega⟩
    · cases h
      exact ⟨rfl, by simp, fun hl => by have := hl.2.2; omega⟩

/-! ## The numeric conversion -/

/-- A binary64 is a NaN for the model exactly when R17's fields say so. -/
theorem binary64_isNaN (x : Word) : binary64.isNaN x.toNat = true ↔ NaN64 x := by
  have e1 : x.extractLsb' 52 11 = 0x7FF ↔ x.toNat / 2 ^ 52 % 2 ^ 11 = 2 ^ 11 - 1 := by
    rw [← BitVec.toNat_inj]; simp [Nat.shiftRight_eq_div_pow]
  have e2 : x.extractLsb' 0 52 ≠ 0 ↔ x.toNat % 2 ^ 52 ≠ 0 := by
    rw [Ne, ← BitVec.toNat_inj]; simp
  rw [NaN64, e1, e2]
  simp [Format.isNaN, Format.expOf, Format.fracOf, Format.expOnes, binary64]

/-- A binary64 is an infinity for the model exactly when R17's fields say so. -/
theorem binary64_isInf (x : Word) : binary64.isInf x.toNat = true ↔ Inf64 x := by
  have e1 : x.extractLsb' 52 11 = 0x7FF ↔ x.toNat / 2 ^ 52 % 2 ^ 11 = 2 ^ 11 - 1 := by
    rw [← BitVec.toNat_inj]; simp [Nat.shiftRight_eq_div_pow]
  have e2 : x.extractLsb' 0 52 = 0 ↔ x.toNat % 2 ^ 52 = 0 := by
    rw [← BitVec.toNat_inj]; simp
  rw [Inf64, e1, e2]
  simp [Format.isInf, Format.expOf, Format.fracOf, Format.expOnes, binary64]

/-- A finite binary64 has an exponent field that is not all ones. -/
theorem finite64_iff (x : Word) : Finite64 x ↔ binary64.expOf x.toNat ≠ binary64.expOnes := by
  rw [Finite64, Ne, ← BitVec.toNat_inj]
  simp [Format.expOf, Format.expOnes, binary64, Nat.shiftRight_eq_div_pow]

/-- An error of the numeric conversion is VALUE_NOT_FINITE, of an integer type, for a NaN or an infinity. -/
theorem typeWord_error {t : DataType} {x : Word} {e : Raised} (h : typeWord t x = .error e) :
    isFloat t = false ∧ ((NaN64 x ∧ e = { code := .valueNotFinite, info := 1 })
      ∨ (Inf64 x ∧ e = { code := .valueNotFinite, info := 2 })) := by
  cases t <;> simp only [typeWord, reduceCtorEq] at h <;> refine ⟨rfl, ?_⟩ <;> split_ifs at h with h1 h2 <;>
    first
      | exact .inl ⟨(binary64_isNaN x).1 h1, by simpa using h.symm⟩
      | exact .inr ⟨(binary64_isInf x).1 h2, by simpa using h.symm⟩

/-- An integer type refuses a NaN. -/
theorem typeWord_nan {t : DataType} {x : Word} (ht : isFloat t = false) (hx : NaN64 x) :
    typeWord t x = .error { code := .valueNotFinite, info := 1 } := by
  have h := (binary64_isNaN x).2 hx
  cases t <;> first | exact absurd ht (by decide) | simp only [typeWord, h, if_true]

/-- An integer type refuses an infinity. -/
theorem typeWord_inf {t : DataType} {x : Word} (ht : isFloat t = false) (hx : Inf64 x) :
    typeWord t x = .error { code := .valueNotFinite, info := 2 } := by
  have h := (binary64_isInf x).2 hx
  have hn : binary64.isNaN x.toNat = false := by
    rw [← Bool.not_eq_true]
    exact fun hc => ((binary64_isNaN x).1 hc).2 hx.2
  cases t <;> first | exact absurd ht (by decide) | simp [typeWord, h, hn]

/-! ## Placement and extraction -/

/-- The effective start lies between −56 and 70 (40_codec_datapath.md R152). -/
theorem effStart_bounds {f : FieldSpec} (h : f.Legal) : -56 ≤ effStart f ∧ effStart f ≤ 70 := by
  obtain ⟨h1, -, -⟩ := h
  rcases f with ⟨t, e, s, l⟩
  cases e <;> cases t <;> simp [effStart, typeWidth] at * <;> omega

/-- The truncated length lies between 1 and 64 (40_codec_datapath.md R153). -/
theorem truncLen_bounds {f : FieldSpec} (h : f.Legal) : 1 ≤ truncLen f ∧ truncLen f ≤ 64 := by
  obtain ⟨h1, h2, h3⟩ := h
  simp only [truncLen]
  omega

/-- The bits of a placed word: bit i − s of the word where that lies in the field, else 0. -/
theorem place_getLsbD (f : FieldSpec) (w : Word) (h : f.Legal) {i : Nat} (hi : i < 64) :
    (place f w).getLsbD i
      = (decide (0 ≤ (i : ℤ) - effStart f ∧ (i : ℤ) - effStart f < truncLen f)
          && w.getLsbD ((i : ℤ) - effStart f).toNat) := by
  have hs := effStart_bounds h
  have hl := truncLen_bounds h
  unfold place fieldMask
  split
  · rename_i h0
    obtain ⟨n, hn⟩ := Int.eq_ofNat_of_zero_le h0
    simp only [hn, Int.toNat_natCast, BitVec.getLsbD_shiftLeft, BitVec.getLsbD_and, lowMask_getLsbD, hi, decide_true,
      Bool.true_and]
    by_cases hc : i < n
    · have : ¬ (0 ≤ (i : ℤ) - n ∧ (i : ℤ) - n < truncLen f) := by omega
      rw [decide_eq_false this]
      simp [hc]
    · have e : ((i : ℤ) - n).toNat = i - n := by omega
      have h64 : i - n < 64 := by omega
      rw [e]
      by_cases hL : i - n < truncLen f
      · have : 0 ≤ (i : ℤ) - n ∧ (i : ℤ) - n < truncLen f := by omega
        rw [decide_eq_true this]
        simp [hc, h64, hL]
      · have : ¬ (0 ≤ (i : ℤ) - n ∧ (i : ℤ) - n < truncLen f) := by omega
        rw [decide_eq_false this]
        simp [hL]
  · rename_i h0
    obtain ⟨n, hn⟩ := Int.eq_ofNat_of_zero_le (show 0 ≤ -effStart f by omega)
    have hs' : effStart f = -(n : ℤ) := by omega
    simp only [hs', Int.neg_neg, Int.toNat_natCast, BitVec.getLsbD_and, BitVec.getLsbD_ushiftRight, lowMask_getLsbD]
    have e : ((i : ℤ) - -(n : ℤ)).toNat = n + i := by omega
    rw [e]
    by_cases hL : n + i < truncLen f
    · have h1 : 0 ≤ (i : ℤ) - -(n : ℤ) ∧ (i : ℤ) - -(n : ℤ) < truncLen f := by omega
      have h2 : n + i < 64 := by omega
      rw [decide_eq_true h1]
      simp [hL, h2]
    · have h1 : ¬ (0 ≤ (i : ℤ) - -(n : ℤ) ∧ (i : ℤ) - -(n : ℤ) < truncLen f) := by omega
      rw [decide_eq_false h1]
      simp [hL]

/-- The bits of an extracted field: bit j + s of the payload where that lies in it and in the field, else 0. -/
theorem extract_getLsbD (f : FieldSpec) (p : Word) (h : f.Legal) {j : Nat} (hj : j < 64) :
    (extract f p).getLsbD j
      = (decide (0 ≤ (j : ℤ) + effStart f ∧ (j : ℤ) + effStart f < 64 ∧ j < truncLen f)
          && p.getLsbD ((j : ℤ) + effStart f).toNat) := by
  have hs := effStart_bounds h
  have hl := truncLen_bounds h
  unfold extract fieldMask
  split
  · rename_i h0
    obtain ⟨n, hn⟩ := Int.eq_ofNat_of_zero_le h0
    simp only [hn, Int.toNat_natCast, BitVec.getLsbD_and, BitVec.getLsbD_ushiftRight, lowMask_getLsbD, hj, decide_true,
      Bool.true_and]
    have e : ((j : ℤ) + n).toNat = n + j := by omega
    rw [e]
    by_cases h64 : n + j < 64
    · by_cases hL : j < truncLen f
      · have : 0 ≤ (j : ℤ) + n ∧ (j : ℤ) + n < 64 ∧ j < truncLen f := by omega
        simp [this]
      · simp [hL]
    · have : p.getLsbD (n + j) = false := BitVec.getLsbD_of_ge _ _ (by omega)
      simp [this]
  · rename_i h0
    obtain ⟨n, hn⟩ := Int.eq_ofNat_of_zero_le (show 0 ≤ -effStart f by omega)
    have hs' : effStart f = -(n : ℤ) := by omega
    simp only [hs', Int.neg_neg, Int.toNat_natCast, BitVec.getLsbD_and, BitVec.getLsbD_ushiftRight,
      BitVec.getLsbD_shiftLeft, lowMask_getLsbD, hj, decide_true, Bool.true_and]
    by_cases hc : j < n
    · have : ¬ (0 ≤ (j : ℤ) + -(n : ℤ) ∧ (j : ℤ) + -(n : ℤ) < 64 ∧ j < truncLen f) := by omega
      simp [hc]
    · have e : ((j : ℤ) + -(n : ℤ)).toNat = j - n := by omega
      have e2 : n + (j - n) = j := by omega
      rw [e, e2]
      by_cases hL : j < truncLen f
      · have : 0 ≤ (j : ℤ) + -(n : ℤ) ∧ (j : ℤ) + -(n : ℤ) < 64 ∧ j < truncLen f := by omega
        rw [decide_eq_true this]
        simp [hc, hj, hL]
      · simp [hL]

/-- The bits of the kept mask: those that placement keeps. -/
theorem keptMask_getLsbD (f : FieldSpec) (h : f.Legal) {j : Nat} (hj : j < 64) :
    (keptMask f).getLsbD j
      = decide (0 ≤ (j : ℤ) + effStart f ∧ (j : ℤ) + effStart f < 64 ∧ j < truncLen f) := by
  have hs := effStart_bounds h
  have hl := truncLen_bounds h
  unfold keptMask
  split
  · have : ¬ (0 ≤ (j : ℤ) + effStart f ∧ (j : ℤ) + effStart f < 64 ∧ j < truncLen f) := by omega
    simp [this]
  · split
    · simp only [lowMask_getLsbD, hj, decide_true, Bool.true_and]
      congr 1
      simp only [eq_iff_iff]
      omega
    · split
      · rename_i h1 h2 h3
        obtain ⟨n, hn⟩ := Int.eq_ofNat_of_zero_le (show 0 ≤ -effStart f by omega)
        have hs' : effStart f = -(n : ℤ) := by omega
        simp only [hs', Int.neg_neg, Int.toNat_natCast] at *
        have hsub : lowMask (truncLen f) - lowMask n = lowMask (truncLen f) &&& ~~~ lowMask n := by
          have hle : lowMask (truncLen f) &&& lowMask n = lowMask n := by
            apply BitVec.eq_of_getLsbD_eq
            intro i hi
            simp only [BitVec.getLsbD_and, lowMask_getLsbD, hi, decide_true, Bool.true_and, ← Bool.decide_and]
            congr 1
            simp only [eq_iff_iff]
            omega
          have h0 : (lowMask (truncLen f) &&& ~~~ lowMask n) &&& lowMask n = 0 := by
            apply BitVec.eq_of_getLsbD_eq
            intro i hi
            simp only [BitVec.getLsbD_and, BitVec.getLsbD_not, hi, decide_true, Bool.true_and]
            cases (lowMask n).getLsbD i <;> simp
          have hor : (lowMask (truncLen f) &&& ~~~ lowMask n) ||| lowMask n = lowMask (truncLen f) := by
            apply BitVec.eq_of_getLsbD_eq
            intro i hi
            have := congrArg (fun b => b.getLsbD i) hle
            simp only [BitVec.getLsbD_and] at this
            simp only [BitVec.getLsbD_and, BitVec.getLsbD_or, BitVec.getLsbD_not, hi, decide_true, Bool.true_and]
            revert this
            cases (lowMask n).getLsbD i <;> cases (lowMask (truncLen f)).getLsbD i <;> simp
          have hadd := BitVec.add_eq_or_of_and_eq_zero _ _ h0
          rw [hor] at hadd
          exact sub_eq_of_eq_add hadd.symm
        rw [hsub]
        simp only [BitVec.getLsbD_and, BitVec.getLsbD_not, lowMask_getLsbD, hj, decide_true, Bool.true_and, ← decide_not,
          ← Bool.decide_and]
        congr 1
        simp only [eq_iff_iff]
        omega
      · have : ¬ (0 ≤ (j : ℤ) + effStart f ∧ (j : ℤ) + effStart f < 64 ∧ j < truncLen f) := by omega
        simp [this]

end Sys2Proof.Machine
end

