-- ==== Sys2Proof/Laws/Float.lean ====
section
/-! SUPPORT. What the encodings denote, and what the rounding functions compute: the nearest integer, ties to even, and
the shape of a rounded encoding. -/

namespace Sys2Proof.Machine

/-- The exact number the model reads from a binary64 pattern is the real number of R17. -/
theorem real64_eq (x : Word) :
    real64 x
      = (if (binary64.exactOf x.toNat).neg then -1 else 1)
        * ((binary64.exactOf x.toNat).mant * 2 ^ (binary64.exactOf x.toNat).exp) := by
  have he : (x.extractLsb' 52 11).toNat = binary64.expOf x.toNat := by
    simp [Format.expOf, binary64, Nat.shiftRight_eq_div_pow]
  have hf : (x.extractLsb' 0 52).toNat = binary64.fracOf x.toNat := by simp [Format.fracOf, binary64]
  have h0 : x.extractLsb' 52 11 = 0 ↔ binary64.expOf x.toNat = 0 := by
    rw [← he, ← BitVec.toNat_inj]; simp
  have hs : x.getLsbD 63 = binary64.signOf x.toNat := rfl
  have hb : binary64.bias = 1023 := rfl
  have hw : binary64.fracBits = 52 := rfl
  simp only [real64, Format.exactOf, h0, he, hf, hs, hb, hw]
  by_cases h : binary64.expOf x.toNat = 0
  · simp [h]
  · rw [if_neg h, if_neg h, max_eq_left (by omega)]
    push_cast
    congr 3
    ring

/-- The exact number the model reads from a binary32 pattern is the real number of R17. -/
theorem real32_eq (w : Word) :
    real32 w
      = (if (binary32.exactOf w.toNat).neg then -1 else 1)
        * ((binary32.exactOf w.toNat).mant * 2 ^ (binary32.exactOf w.toNat).exp) := by
  have he : (w.extractLsb' 23 8).toNat = binary32.expOf w.toNat := by
    simp [Format.expOf, binary32, Nat.shiftRight_eq_div_pow]
  have hf : (w.extractLsb' 0 23).toNat = binary32.fracOf w.toNat := by simp [Format.fracOf, binary32]
  have h0 : w.extractLsb' 23 8 = 0 ↔ binary32.expOf w.toNat = 0 := by
    rw [← he, ← BitVec.toNat_inj]; simp
  have hs : w.getLsbD 31 = binary32.signOf w.toNat := rfl
  have hb : binary32.bias = 127 := rfl
  have hw : binary32.fracBits = 23 := rfl
  simp only [real32, Format.exactOf, h0, he, hf, hs, hb, hw]
  by_cases h : binary32.expOf w.toNat = 0
  · simp [h]
  · rw [if_neg h, if_neg h, max_eq_left (by omega)]
    push_cast
    congr 3
    ring

/-- Rounding a number that is an integer changes nothing. -/
theorem roundEven_nonneg (m : Nat) {k : Int} (h : 0 ≤ k) : roundEven m k = m * 2 ^ k.toNat := by
  simp [roundEven, h]

/-- Rounding m/d, d = 2^j, gives an integer at most half a unit away, and an even one when exactly half a unit away. -/
theorem roundEven_neg (m j : Nat) (hj : 0 < j) :
    2 * (roundEven m (-(j : ℤ)) * 2 ^ j) ≤ 2 * m + 2 ^ j ∧ 2 * m ≤ 2 * (roundEven m (-(j : ℤ)) * 2 ^ j) + 2 ^ j
      ∧ ((2 * (roundEven m (-(j : ℤ)) * 2 ^ j) = 2 * m + 2 ^ j ∨ 2 * m = 2 * (roundEven m (-(j : ℤ)) * 2 ^ j) + 2 ^ j) →
          roundEven m (-(j : ℤ)) % 2 = 0) := by
  have h0 : ¬ (0 : ℤ) ≤ -(j : ℤ) := by omega
  have hd : 0 < 2 ^ j := Nat.two_pow_pos j
  have hm := Nat.div_add_mod m (2 ^ j)
  have hr := Nat.mod_lt m hd
  simp only [roundEven, if_neg h0, Int.neg_neg, Int.toNat_natCast]
  generalize m / 2 ^ j = q at *
  generalize m % 2 ^ j = r at *
  generalize 2 ^ j = d at *
  split_ifs with h1 h2
  · have : q * d = d * q := Nat.mul_comm _ _
    omega
  · have : (q + 1) * d = d * q + d := by ring
    omega
  · have h : (q + q % 2) * d = d * q + (q % 2) * d := by ring
    rcases Nat.mod_two_eq_zero_or_one q with hq | hq <;> rw [hq] at h ⊢ <;> omega

/-- Rounding is monotone enough to stay between the integers around it. -/
theorem roundEven_bounds {m a b : Nat} {k : Int} (ha : k < 0 → a * 2 ^ (-k).toNat ≤ m) (hb : k < 0 → m ≤ b * 2 ^ (-k).toNat)
    (ha' : 0 ≤ k → a ≤ m * 2 ^ k.toNat) (hb' : 0 ≤ k → m * 2 ^ k.toNat ≤ b) :
    a ≤ roundEven m k ∧ roundEven m k ≤ b := by
  by_cases h : 0 ≤ k
  · rw [roundEven_nonneg m h]
    exact ⟨ha' h, hb' h⟩
  · obtain ⟨j, hj⟩ := Int.eq_ofNat_of_zero_le (show 0 ≤ -k by omega)
    have hk : k = -(j : ℤ) := by omega
    subst hk
    have ha := ha (by omega)
    have hb := hb (by omega)
    simp only [Int.neg_neg, Int.toNat_natCast] at ha hb
    obtain ⟨h1, h2, h3⟩ := roundEven_neg m j (by omega)
    have hd : 0 < 2 ^ j := Nat.two_pow_pos j
    generalize roundEven m (-(j : ℤ)) = r at *
    generalize 2 ^ j = d at *
    constructor
    · by_contra hc
      have h4 : (r + 1) * d ≤ a * d := Nat.mul_le_mul_right _ (by omega)
      have h5 : (r + 1) * d = r * d + d := by ring
      omega
    · by_contra hc
      have h4 : (b + 1) * d ≤ r * d := Nat.mul_le_mul_right _ (by omega)
      have h5 : (b + 1) * d = b * d + d := by ring
      omega

/-- A rounded encoding of a positive number m·2^k is a subnormal or the least normal, a normal, or infinity
(40_codec_datapath.md R170). -/
theorem Format.roundTo_cases (f : Format) {m : Nat} (k : Int) (hm : m ≠ 0) :
    ((Nat.log2 m : ℤ) + k < 1 - (f.bias : ℤ) ∧ f.roundTo m k = roundEven m (k - (1 - (f.bias : ℤ) - f.fracBits)))
    ∨ ∃ (e : ℤ) (r : ℕ), 1 - (f.bias : ℤ) ≤ (Nat.log2 m : ℤ) + k
        ∧ ((e = (Nat.log2 m : ℤ) + k ∧ r = roundEven m (k - (e - f.fracBits)) ∧ r ≠ 2 ^ (f.fracBits + 1))
          ∨ (e = (Nat.log2 m : ℤ) + k + 1 ∧ r = 2 ^ f.fracBits
              ∧ roundEven m (k - (e - 1 - f.fracBits)) = 2 ^ (f.fracBits + 1)))
        ∧ f.roundTo m k
          = if (f.bias : ℤ) < e then f.expOnes * 2 ^ f.fracBits
            else (e + f.bias).toNat * 2 ^ f.fracBits + (r - 2 ^ f.fracBits) := by
  unfold Format.roundTo
  simp only [if_neg hm]
  by_cases h : (Nat.log2 m : ℤ) + k < 1 - (f.bias : ℤ)
  · exact .inl ⟨h, by rw [if_pos h]⟩
  · right
    rw [if_neg h]
    by_cases hc : roundEven m (k - ((Nat.log2 m : ℤ) + k - f.fracBits)) = 2 ^ (f.fracBits + 1)
    · refine ⟨(Nat.log2 m : ℤ) + k + 1, 2 ^ f.fracBits, by omega, .inr ⟨rfl, rfl, ?_⟩, by simp [hc]⟩
      rw [← hc]
      congr 2
      ring
    · exact ⟨(Nat.log2 m : ℤ) + k, _, by omega, .inl ⟨rfl, rfl, hc⟩, by simp [hc]⟩

end Sys2Proof.Machine
end

