-- ==== Sys2Proof/Laws/Fser.lean ====
section
/-! SUPPORT. What the readers and writers of frame lines compute: each reader answers a part of the line, or the index of
the first byte that is missing or wrong. -/

namespace Sys2Proof.Machine

/-! ## Hex digits -/

/-- Hex digits and their values are R18's. -/
theorem hexVal_eq (b : Byte) : hexVal b = if IsHex b then some (hexNibble b) else none := by
  unfold hexVal hexNibble IsHex
  split_ifs <;> first | rfl | (congr 1; omega)

/-- A byte with no hex value is no hex digit. -/
theorem hexVal_eq_none {b : Byte} : hexVal b = none ↔ ¬ IsHex b := by
  rw [hexVal_eq]; split_ifs with h <;> simp [h]

/-- A digit written is a hex digit of its value, in upper case. -/
theorem hexDigit_spec {n : Nat} (h : n < 16) :
    IsHex (hexDigit n) ∧ hexNibble (hexDigit n) = n ∧ upperHex (hexDigit n) = hexDigit n := by
  interval_cases n <;> decide

/-- A hex digit in upper case is the digit of its value. -/
theorem upperHex_eq {b : Byte} (h : IsHex b) : upperHex b = hexDigit (hexNibble b) ∧ hexNibble b < 16 := by
  revert h; revert b; decide

/-- The number of digits written. -/
@[simp] theorem hexDigits_length (n v : Nat) : (hexDigits n v).length = n := by
  induction n with
  | zero => rfl
  | succ n ih => simp [hexDigits, ih]

/-- Two digits a byte. -/
@[simp] theorem hexPairs_length (l : List Byte) : (hexPairs l).length = 2 * l.length := by
  induction l with
  | nil => rfl
  | cons b bs ih => simp [hexPairs, ih]; omega

/-- Every digit written is a hex digit in upper case. -/
theorem hexDigits_upper (n v : Nat) : ∀ b ∈ hexDigits n v, IsHex b ∧ upperHex b = b := by
  induction n with
  | zero => simp [hexDigits]
  | succ n ih =>
    intro b hb
    rcases List.mem_cons.1 hb with rfl | hb
    · have := hexDigit_spec (n := v / 16 ^ n % 16) (Nat.mod_lt _ (by decide))
      exact ⟨this.1, this.2.2⟩
    · exact ih b hb

/-- Every digit of a digit pair is a hex digit in upper case. -/
theorem hexPairs_upper (l : List Byte) : ∀ b ∈ hexPairs l, IsHex b ∧ upperHex b = b := by
  induction l with
  | nil => simp [hexPairs]
  | cons c cs ih =>
    intro b hb
    simp only [hexPairs, List.mem_cons] at hb
    rcases hb with rfl | rfl | hb
    · have := hexDigit_spec (n := c.toNat / 16) (by omega)
      exact ⟨this.1, this.2.2⟩
    · have := hexDigit_spec (n := c.toNat % 16) (by omega)
      exact ⟨this.1, this.2.2⟩
    · exact ih b hb

/-- The digits of a number spell it, after any digits before them. -/
theorem foldl_hexDigits (n v acc : Nat) :
    (hexDigits n v).foldl (fun a b => 16 * a + hexNibble b) acc = acc * 16 ^ n + v % 16 ^ n := by
  induction n generalizing acc with
  | zero => simp [hexDigits, Nat.mod_one]
  | succ n ih =>
    simp only [hexDigits, List.foldl_cons, ih]
    rw [(hexDigit_spec (n := v / 16 ^ n % 16) (Nat.mod_lt _ (by decide))).2.1]
    have h := Nat.mod_mul (a := 16 ^ n) (b := 16) (x := v)
    rw [pow_succ, h]
    ring

/-- The digit pairs of bytes spell them. -/
theorem pairBytes_hexPairs (l : List Byte) : pairBytes (hexPairs l) = l := by
  induction l with
  | nil => rfl
  | cons b bs ih =>
    simp only [hexPairs, pairBytes, ih]
    rw [(hexDigit_spec (n := b.toNat / 16) (by omega)).2.1, (hexDigit_spec (n := b.toNat % 16) (by omega)).2.1]
    congr 1
    apply BitVec.eq_of_toNat_eq
    simp
    omega

/-- The number of bytes that digit pairs spell. -/
theorem pairBytes_length : ∀ (n : Nat) (l : List Byte), l.length = 2 * n → (pairBytes l).length = n
  | 0, [], _ => rfl
  | n + 1, a :: b :: rest, h => by
    simp only [pairBytes, List.length_cons]
    rw [pairBytes_length n rest (by simp at h; omega)]

/-- The line of a frame the wire can carry is a line of the grammar, in upper case, that spells the id and the data bytes
(42_frame_serializer.md R231 to R236). -/
theorem frameLine_spec {id : BitVec 29} {c : FrameCtl} (data : Word) (hd : c.dlc.toNat ≤ 8)
    (hi : c.ext = false → id.toNat ≤ 0x7FF) :
    ∃ ids ds, PartsOk c.ext ids c.dlc.toNat ds ∧ hexNumber ids = id.toNat ∧ hexNumber ids ≤ idLimit c.ext
      ∧ pairBytes ds = bytesOf c.dlc.toNat data ∧ (∀ b ∈ ids ++ ds, upperHex b = b)
      ∧ frameLine id c data = lineOf c.ext ids c.dlc.toNat ds := by
  have hid := id.isLt
  have hn : hexNumber (hexDigits (idDigits c.ext) id.toNat) = id.toNat := by
    rw [hexNumber, foldl_hexDigits, Nat.zero_mul, Nat.zero_add]
    apply Nat.mod_eq_of_lt
    cases he : c.ext with
    | false => have := hi he; simp only [idDigits, Bool.false_eq_true, if_false]; omega
    | true => simp only [idDigits, if_true]; omega
  refine ⟨hexDigits (idDigits c.ext) id.toNat, hexPairs (bytesOf c.dlc.toNat data),
    ⟨hexDigits_length _ _, fun b hb => (hexDigits_upper _ _ b hb).1, hd, by simp,
      fun b hb => (hexPairs_upper _ b hb).1⟩, hn, ?_, pairBytes_hexPairs _, ?_, rfl⟩
  · rw [hn]
    cases he : c.ext with
    | false => have := hi he; simp only [idLimit, Bool.false_eq_true, if_false]; omega
    | true => simp only [idLimit, if_true]; omega
  · intro b hb
    rcases List.mem_append.1 hb with hb | hb
    · exact (hexDigits_upper _ _ b hb).2
    · exact (hexPairs_upper _ b hb).2

/-- The length of a frame line (42_frame_serializer.md R237). -/
theorem frameLine_length (id : BitVec 29) (c : FrameCtl) (data : Word) :
    (frameLine id c data).length = (if c.ext then 11 else 6) + 2 * c.dlc.toNat := by
  cases h : c.ext <;> simp [frameLine, idDigits, h] <;> omega

/-! ## Readers -/

/-- What reading hex digits answers when it goes well. -/
theorem readHex_ok {bs rest : List Byte} {p n acc v : Nat} :
    readHex bs p n acc = .ok (v, rest) ↔
      ∃ ds, ds.length = n ∧ (∀ b ∈ ds, IsHex b) ∧ bs = ds ++ rest ∧ v = ds.foldl (fun a b => 16 * a + hexNibble b) acc := by
  induction n generalizing bs p acc with
  | zero =>
    simp only [readHex, Except.ok.injEq, Prod.mk.injEq]
    constructor
    · rintro ⟨rfl, rfl⟩; exact ⟨[], rfl, by simp, rfl, rfl⟩
    · rintro ⟨ds, h, -, rfl, rfl⟩
      rw [List.length_eq_zero_iff] at h
      subst h
      exact ⟨rfl, rfl⟩
  | succ n ih =>
    cases bs with
    | nil =>
      simp only [readHex, reduceCtorEq, false_iff]
      rintro ⟨ds, h, -, h', -⟩
      have := congrArg List.length h'
      simp at this
      omega
    | cons b bs =>
      simp only [readHex, hexVal_eq]
      by_cases hb : IsHex b
      · simp only [if_pos hb, ih]
        constructor
        · rintro ⟨ds, h1, h2, rfl, rfl⟩
          refine ⟨b :: ds, by simp [h1], ?_, rfl, rfl⟩
          intro c hc
          rcases List.mem_cons.1 hc with rfl | hc
          · exact hb
          · exact h2 c hc
        · rintro ⟨ds, h1, h2, h3, rfl⟩
          cases ds with
          | nil => simp at h1
          | cons d ds =>
            simp only [List.cons_append, List.cons.injEq] at h3
            obtain ⟨rfl, rfl⟩ := h3
            exact ⟨ds, by simpa using h1, fun c hc => h2 c (List.mem_cons_of_mem _ hc), rfl, rfl⟩
      · simp only [if_neg hb, reduceCtorEq, false_iff]
        rintro ⟨ds, h1, h2, h3, -⟩
        cases ds with
        | nil => simp at h1
        | cons d ds =>
          simp only [List.cons_append, List.cons.injEq] at h3
          exact hb (h3.1 ▸ h2 d (by simp))

/-- What reading hex digits answers when it fails: the index of the first byte that is missing or is no hex digit. -/
theorem readHex_error {bs : List Byte} {p n acc q : Nat} (h : readHex bs p n acc = .error q) :
    ∃ ds rest, bs = ds ++ rest ∧ ds.length < n ∧ (∀ b ∈ ds, IsHex b) ∧ q = p + ds.length
      ∧ ∀ b, rest.head? = some b → ¬ IsHex b := by
  induction n generalizing bs p acc with
  | zero => simp [readHex] at h
  | succ n ih =>
    cases bs with
    | nil =>
      simp only [readHex, Except.error.injEq] at h
      exact ⟨[], [], rfl, by simp, by simp, by simp [h], by simp⟩
    | cons b bs =>
      simp only [readHex, hexVal_eq] at h
      by_cases hb : IsHex b
      · simp only [if_pos hb] at h
        obtain ⟨ds, rest, rfl, h2, h3, h4, h5⟩ := ih h
        refine ⟨b :: ds, rest, rfl, by simpa using h2, ?_, by simp [h4]; omega, h5⟩
        intro c hc
        rcases List.mem_cons.1 hc with rfl | hc
        · exact hb
        · exact h3 c hc
      · simp only [if_neg hb, Except.error.injEq] at h
        exact ⟨[], b :: bs, rfl, by simp, by simp, by simp [h], by simpa using hb⟩

/-- What reading data bytes answers when it goes well. -/
theorem readData_ok {bs rest ds : List Byte} {p n : Nat} :
    readData bs p n = .ok (ds, rest) ↔
      ∃ cs, cs.length = 2 * n ∧ (∀ b ∈ cs, IsHex b) ∧ bs = cs ++ rest ∧ ds = pairBytes cs := by
  induction n generalizing bs p ds with
  | zero =>
    simp only [readData, Except.ok.injEq, Prod.mk.injEq]
    constructor
    · rintro ⟨rfl, rfl⟩; exact ⟨[], rfl, by simp, rfl, rfl⟩
    · rintro ⟨cs, h, -, rfl, rfl⟩
      have : cs = [] := List.length_eq_zero_iff.1 (by omega)
      subst this
      exact ⟨rfl, rfl⟩
  | succ n ih =>
    simp only [readData]
    constructor
    · intro h
      split at h
      · cases h
      · rename_i v rest1 h1
        split at h
        · cases h
        · rename_i ds' rest2 h2
          cases h
          obtain ⟨cs1, l1, a1, rfl, rfl⟩ := readHex_ok.1 h1
          obtain ⟨cs2, l2, a2, rfl, rfl⟩ := ih.1 h2
          refine ⟨cs1 ++ cs2, by simp [l1, l2]; omega, ?_, by simp, ?_⟩
          · intro b hb
            rcases List.mem_append.1 hb with hb | hb
            · exact a1 b hb
            · exact a2 b hb
          · match cs1, l1 with
            | [x, y], _ => simp [pairBytes]
    · rintro ⟨cs, l, a, rfl, rfl⟩
      match cs, l with
      | x :: y :: cs, l =>
        have h1 : readHex (x :: y :: cs ++ rest) p 2 0 = .ok (16 * (16 * 0 + hexNibble x) + hexNibble y, cs ++ rest) :=
          readHex_ok.2 ⟨[x, y], rfl, fun b hb => a b (by simp at hb ⊢; tauto), rfl, rfl⟩
        have h2 : readData (cs ++ rest) (p + 2) n = .ok (pairBytes cs, rest) :=
          ih.2 ⟨cs, by simp at l; omega, fun b hb => a b (by simp [hb]), rfl, rfl⟩
        rw [h1]
        simp only [h2]
        simp [pairBytes]

/-- What reading data bytes answers when it fails: the index of the first byte that is missing or is no hex digit. -/
theorem readData_error {bs : List Byte} {p n q : Nat} (h : readData bs p n = .error q) :
    ∃ cs rest, bs = cs ++ rest ∧ cs.length < 2 * n ∧ (∀ b ∈ cs, IsHex b) ∧ q = p + cs.length
      ∧ ∀ b, rest.head? = some b → ¬ IsHex b := by
  induction n generalizing bs p with
  | zero => simp [readData] at h
  | succ n ih =>
    simp only [readData] at h
    split at h
    · rename_i q' h1
      cases h
      obtain ⟨ds, rest, rfl, l, a, e, f⟩ := readHex_error h1
      exact ⟨ds, rest, rfl, by omega, a, e, f⟩
    · rename_i v rest1 h1
      split at h
      · rename_i q' h2
        cases h
        obtain ⟨cs1, l1, a1, rfl, rfl⟩ := readHex_ok.1 h1
        obtain ⟨cs, rest, rfl, l, a, e, f⟩ := ih h2
        refine ⟨cs1 ++ cs, rest, by simp, by simp [l1]; omega, ?_, by simp [l1, e]; omega, f⟩
        intro b hb
        rcases List.mem_append.1 hb with hb | hb
        · exact a1 b hb
        · exact a b hb
      · cases h

/-- What reading the end of a line answers. -/
theorem readEnd_spec (bs : List Byte) (p : Nat) :
    (readEnd bs p = .ok () ∧ bs = [carriageReturn])
    ∨ (readEnd bs p = .error p ∧ bs.head? ≠ some carriageReturn)
    ∨ (readEnd bs p = .error (p + 1) ∧ ∃ b rest, bs = carriageReturn :: b :: rest) := by
  cases bs with
  | nil => exact .inr (.inl ⟨rfl, by simp⟩)
  | cons b rest =>
    by_cases hb : b = carriageReturn
    · subst hb
      cases rest with
      | nil => exact .inl ⟨by simp [readEnd], rfl⟩
      | cons c rest => exact .inr (.inr ⟨by simp [readEnd], c, rest, rfl⟩)
    · exact .inr (.inl ⟨by simp [readEnd, hb], by simpa using hb⟩)

/-- What reading the length digit answers. -/
theorem readDlc_spec (bs : List Byte) (p : Nat) :
    (∃ dlc rest, dlc ≤ 8 ∧ bs = BitVec.ofNat 8 (0x30 + dlc) :: rest ∧ readDlc bs p = .ok (dlc, rest))
    ∨ (readDlc bs p = .error p ∧ ∀ dlc ≤ 8, bs.head? ≠ some (BitVec.ofNat 8 (0x30 + dlc))) := by
  cases bs with
  | nil => exact .inr ⟨rfl, by simp⟩
  | cons b rest =>
    by_cases hb : 0x30 ≤ b.toNat ∧ b.toNat ≤ 0x38
    · refine .inl ⟨b.toNat - 0x30, rest, by omega, ?_, by simp only [readDlc, if_pos hb]⟩
      congr 1
      apply BitVec.eq_of_toNat_eq
      simp
      omega
    · refine .inr ⟨by simp only [readDlc, if_neg hb], ?_⟩
      intro dlc hd h
      simp only [List.head?_cons, Option.some.injEq] at h
      apply hb
      rw [h]
      simp
      omega

end Sys2Proof.Machine
end

