-- ==== Sys2Proof/Laws/PerInstr.lean ====
section
/-! SUPPORT. The family OpcodeFields: the two fields of each command's CMD value (30_encoding.md R110, R112). -/

namespace Sys2Proof.Laws.OpcodeFields

/-- The CMD value of a command has OP the command's opcode and RSV 0 (30_encoding.md R110, R112). -/
def Statement (i : Instr) : Prop :=
  i.wellFormed = true → opField (Sys2Proof.encode i) = opcodeOf i ∧ rsvField (Sys2Proof.encode i) = 0

theorem encode : Statement .encode := fun _ => ⟨rfl, rfl⟩
theorem decode : Statement .decode := fun _ => ⟨rfl, rfl⟩
theorem encodeFrame : Statement .encodeFrame := fun _ => ⟨rfl, rfl⟩
theorem decodeFrame : Statement .decodeFrame := fun _ => ⟨rfl, rfl⟩
theorem frameSerialize : Statement .frameSerialize := fun _ => ⟨rfl, rfl⟩
theorem frameParse : Statement .frameParse := fun _ => ⟨rfl, rfl⟩

end Sys2Proof.Laws.OpcodeFields
end

