-- ==== Sys2Proof/Laws/Registers.lean ====
section
/-! SUPPORT. The registers' words: where each field stands, and what a host write stores. -/

namespace Sys2Proof.Machine

/-- The bits of a field at its place. -/
@[simp] theorem fieldAt_getLsbD {n : Nat} (pos i : Nat) (x : BitVec n) :
    (fieldAt pos x).getLsbD i = (decide (i < 64) && (!decide (i < pos) && x.getLsbD (i - pos))) := by
  by_cases h : i < 64 <;> simp [fieldAt, h]

@[simp] theorem bit_getLsbD (b : Bool) (i : Nat) : (bit b).getLsbD i = (decide (i = 0) && b) := by
  simp [bit, BitVec.getLsbD_ofBool]

@[simp] theorem fieldAt_getElem {n : Nat} (pos i : Nat) (x : BitVec n) (hi : i < 64) :
    (fieldAt pos x)[i] = (!decide (i < pos) && x.getLsbD (i - pos)) := by
  rw [← BitVec.getLsbD_eq_getElem, fieldAt_getLsbD]
  simp [hi]

theorem endianCode_endianOf (b : Bool) : endianCode (endianOf b) = bit b := by cases b <;> rfl

theorem endianOf_endianCode (e : Endian) : endianOf ((endianCode e).getLsbD 0) = e := by cases e <;> rfl

/-- CFG reads back what was written, without its reserved bits (10_state.md R41 to R47). -/
theorem Cfg.word_ofWord (v : Word) : (Cfg.ofWord v).word = v &&& 0x1FFFFFFF80FFFF1F := by
  apply BitVec.eq_of_getLsbD_eq
  intro i hi
  simp only [Cfg.word, Cfg.ofWord, endianCode_endianOf, BitVec.getLsbD_or, fieldAt_getLsbD, bit_getLsbD,
    BitVec.getLsbD_extractLsb', BitVec.getLsbD_and, hi, decide_true, Bool.true_and]
  interval_cases i <;> simp

/-- FRAME_CTL reads back what was written, without its reserved bits (10_state.md R55 to R57). -/
theorem FrameCtl.word_ofWord (v : Word) : (FrameCtl.ofWord v).word = v &&& 0x30F := by
  apply BitVec.eq_of_getLsbD_eq
  intro i hi
  simp only [FrameCtl.word, FrameCtl.ofWord, BitVec.getLsbD_or, fieldAt_getLsbD, bit_getLsbD,
    BitVec.getLsbD_extractLsb', BitVec.getLsbD_and, hi, decide_true, Bool.true_and]
  interval_cases i <;> simp

/-- The fields of CFG stand where they are read from. -/
theorem Cfg.ofWord_word (c : Cfg) : Cfg.ofWord c.word = c := by
  rcases c with ⟨t, e, s, l, x, d⟩
  simp only [Cfg.ofWord, Cfg.mk.injEq]
  refine ⟨?_, ?_, ?_, ?_, ?_, ?_⟩
  · apply BitVec.eq_of_getLsbD_eq
    intro i hi
    rw [BitVec.getLsbD_extractLsb']
    simp only [Cfg.word, BitVec.getLsbD_or, fieldAt_getLsbD]
    interval_cases i <;> simp
  · simp only [Cfg.word, BitVec.getLsbD_or, fieldAt_getLsbD]
    cases e <;> simp [endianCode, endianOf]
  · apply BitVec.eq_of_getLsbD_eq
    intro i hi
    rw [BitVec.getLsbD_extractLsb']
    simp only [Cfg.word, BitVec.getLsbD_or, fieldAt_getLsbD]
    interval_cases i <;> simp
  · apply BitVec.eq_of_getLsbD_eq
    intro i hi
    rw [BitVec.getLsbD_extractLsb']
    simp only [Cfg.word, BitVec.getLsbD_or, fieldAt_getLsbD]
    interval_cases i <;> simp
  · simp only [Cfg.word, BitVec.getLsbD_or, fieldAt_getLsbD, bit_getLsbD]
    cases x <;> simp
  · apply BitVec.eq_of_getLsbD_eq
    intro i hi
    rw [BitVec.getLsbD_extractLsb']
    simp only [Cfg.word, BitVec.getLsbD_or, fieldAt_getLsbD]
    interval_cases i <;> simp

/-- A host write of STATUS clears STICKY when bit 24 is written 1, and changes no other bit (10_state.md R39, R40). -/
theorem Status.word_hostWritten (st : Status) (v : Word) :
    (st.hostWritten v).word = if v.getLsbD 24 then st.word &&& ~~~ 0x1000000 else st.word := by
  split
  · rename_i h
    apply BitVec.eq_of_getLsbD_eq
    intro i hi
    simp only [Status.word, Status.hostWritten, h, Bool.not_true, Bool.and_false, BitVec.getLsbD_or, BitVec.getLsbD_and,
      BitVec.getLsbD_not, fieldAt_getLsbD, bit_getLsbD, hi, decide_true, Bool.true_and]
    interval_cases i <;> simp
  · rename_i h
    simp only [Bool.not_eq_true] at h
    simp only [Status.word, Status.hostWritten, h, Bool.not_false, Bool.and_true]

/-- CAPS is HAS_FSER + 2·code(MOTO_SWAP) (10_state.md R34). -/
theorem capsWord_eq (p : Params) : capsWord p = BitVec.ofNat 64 (p.hasFser.toNat + 2 * (swapCode p.motoSwap).toNat) := by
  rcases p with ⟨_ | _, _ | _ | _⟩ <;> decide

/-- The fields of STATUS stand at their bits (10_state.md R36 to R39). -/
theorem Status.word_fields (st : Status) :
    st.word.extractLsb' 0 4 = st.code ∧ st.word.extractLsb' 8 8 = st.info ∧ st.word.extractLsb' 16 8 = st.lastOp
      ∧ st.word.getLsbD 24 = st.sticky := by
  refine ⟨?_, ?_, ?_, by simp [Status.word, -BitVec.getLsbD_eq_getElem]⟩
  all_goals
    apply BitVec.eq_of_getLsbD_eq
    intro i hi
    rw [BitVec.getLsbD_extractLsb']
    simp only [Status.word, BitVec.getLsbD_or, fieldAt_getLsbD, bit_getLsbD]
    interval_cases i <;> simp

/-- STATUS reads 0 outside its fields (10_state.md R40). -/
theorem Status.word_reserved (st : Status) : st.word &&& ~~~ 0x1FFFF0F = 0 := by
  apply BitVec.eq_of_getLsbD_eq
  intro i hi
  simp only [Status.word, BitVec.getLsbD_or, BitVec.getLsbD_and, BitVec.getLsbD_not, fieldAt_getLsbD, bit_getLsbD, hi,
    decide_true, Bool.true_and]
  interval_cases i <;> simp

/-- CFG reads 0 outside its fields (10_state.md R47). -/
theorem Cfg.word_reserved (c : Cfg) : c.word &&& ~~~ 0x1FFFFFFF80FFFF1F = 0 := by
  rw [← Cfg.ofWord_word c, Cfg.word_ofWord, BitVec.and_assoc]
  simp

/-- The fields of FRAME_CTL stand where they are read from. -/
theorem FrameCtl.ofWord_word (c : FrameCtl) : FrameCtl.ofWord c.word = c := by
  rcases c with ⟨d, e, r⟩
  simp only [FrameCtl.ofWord, FrameCtl.mk.injEq]
  refine ⟨?_, ?_, ?_⟩
  · apply BitVec.eq_of_getLsbD_eq
    intro i hi
    rw [BitVec.getLsbD_extractLsb']
    simp only [FrameCtl.word, BitVec.getLsbD_or, fieldAt_getLsbD]
    interval_cases i <;> simp
  · simp only [FrameCtl.word, BitVec.getLsbD_or, fieldAt_getLsbD, bit_getLsbD]
    simp
  · simp only [FrameCtl.word, BitVec.getLsbD_or, fieldAt_getLsbD, bit_getLsbD]
    simp

/-- FRAME_CTL reads 0 outside its fields (10_state.md R57). -/
theorem FrameCtl.word_reserved (c : FrameCtl) : c.word &&& ~~~ 0x30F = 0 := by
  apply BitVec.eq_of_getLsbD_eq
  intro i hi
  simp only [FrameCtl.word, BitVec.getLsbD_or, BitVec.getLsbD_and, BitVec.getLsbD_not, fieldAt_getLsbD, bit_getLsbD, hi,
    decide_true, Bool.true_and]
  interval_cases i <;> simp

/-- A register of one field reads 0 above it (10_state.md R54, R61, R62). -/
theorem setWidth_reserved (n : Nat) (b : BitVec n) : b.setWidth 64 &&& ~~~ lowMask n = 0 := by
  apply BitVec.eq_of_getLsbD_eq
  intro i hi
  by_cases h : i < n
  · simp [h, hi]
  · simp [BitVec.getLsbD_of_ge b i (by omega)]

end Sys2Proof.Machine
end

