-- ==== Sys2Proof/Tests/Slice0.lean ====
section
/-! SUPPORT. The model's own tests. Expected words are the spec's: 95_test_vectors.md unless the comment names another
file. Each test is one command or one access on a small state. The theorems named `test_meets_…` show, for a statement
with hypotheses, concrete operands that meet them all. -/

namespace Sys2Proof.Tests

open Sys2Proof Sys2Proof.Machine

/-! ## Helpers -/

/-- The state after a step, if there is one. -/
def nextOf (r : Result) : Option State :=
  match r with
  | .next s => some s
  | .fault _ => none
  | .refused _ => none

/-- The refusal of a step, if it is one. -/
def refusalOf (r : Result) : Option Refusal :=
  match r with
  | .next _ => none
  | .fault _ => none
  | .refused q => some q

/-- The reset state with CFG and VALUE written. -/
def withValue (c v : Word) : State := { State.reset with cfg := Cfg.ofWord c, value := v }

/-- The reset state with CFG, PAYLOAD_IN and FRAME_DATA written. -/
def withPayload (c p : Word) : State := { State.reset with cfg := Cfg.ofWord c, payloadIn := p, frameData := p }

/-- The reset state with a line of `n` bytes in RXLINE0, RXLINE1 and RXLINE2. -/
def withLine (n : Byte) (w0 w1 w2 : Word) : State :=
  { State.reset with rxLen := n, rxLine := { w0 := w0, w1 := w1, w2 := w2, w3 := 0 }, tsIn := 0x77 }

/-- The reset state with a frame in the frame registers. -/
def withFrame (id : BitVec 29) (ctl data : Word) : State :=
  { State.reset with frameId := id, frameCtl := FrameCtl.ofWord ctl, frameData := data }

/-- The reset state in a build without FSER. -/
def noFser : State := { State.reset with params := { hasFser := false, motoSwap := .floatOnly } }

/-- A state whose next access is the one given. -/
def issuing (a : HostAccess) : State := { State.reset with hostQueue := [a] }

/-! ## Well-formed accesses (20_memory.md R82) -/

theorem test_wellFormed_width : (HostAccess.read 32 0x10).wellFormed = false := by decide
theorem test_wellFormed_aligned : (HostAccess.write 64 0x0C 0).wellFormed = false := by decide
theorem test_wellFormed_window : (HostAccess.read 64 0x100).wellFormed = false := by decide
theorem test_wellFormed_last_slot : (HostAccess.read 64 0xF8).wellFormed = true := by decide
theorem test_wellFormed_reset : HostAccess.reset.wellFormed = true := by decide
theorem test_refused_width : refusalOf (step (issuing (.read 32 0x10))) = some (.accessWidth 32) := by decide
theorem test_refused_misaligned : refusalOf (step (issuing (.write 64 0x0C 0))) = some (.accessMisaligned 0x0C) := by decide
theorem test_refused_outside : refusalOf (step (issuing (.read 64 0x100))) = some (.accessOutsideWindow 0x100) := by decide

/-! ## Decoding: the CMD values of 30_encoding.md section 2, written out -/

theorem test_decode_ENCODE : decode 0x0000000000000001 = .ok .encode := by decide
theorem test_decode_DECODE : decode 0x0000000000000002 = .ok .decode := by decide
theorem test_decode_ENCODE_FRAME : decode 0x0000000000000003 = .ok .encodeFrame := by decide
theorem test_decode_DECODE_FRAME : decode 0x0000000000000004 = .ok .decodeFrame := by decide
theorem test_decode_FRAME_SERIALIZE : decode 0x0000000000000010 = .ok .frameSerialize := by decide
theorem test_decode_FRAME_PARSE : decode 0x0000000000000011 = .ok .frameParse := by decide

/-- L2.7: OP 0x12 and OP 0 are not assigned. -/
theorem test_decode_unassigned : decode 0x12 = .error .unassignedOp ∧ decode 0 = .error .unassignedOp := by decide

/-- L2.7: RSV is looked at before OP. -/
theorem test_decode_reserved : decode 0x8000000000000001 = .error .reservedBits ∧ decode 0x100 = .error .reservedBits := by
  decide

theorem test_decodeTableWord : decodeTableWord 64 0x11 = some .frameParse ∧ decodeTableWord 8 0x104 = some .decodeFrame := by
  decide

/-- The command placed is the one the next step runs (L2.7: FRAME_SERIALIZE straight after reset). -/
theorem test_withFetchWord :
    (nextOf (step (State.reset.withFetchWord 64 0x10))).map (fun t => t.status.word) = some 0x00100000 := by decide

/-! ## ENCODE (L2.1) -/

/-- U16, Intel, 8/16, VALUE 4660.0. -/
theorem test_encode_u16 :
    (nextOf (exec .encode (withValue 0x100803 0x40B2340000000000))).map (fun t => (t.payloadOut, t.status.word))
      = some (0x123400, 0x00010000) := by decide +kernel

/-- S8, VALUE −129.0 wraps to 0x7F. -/
theorem test_encode_wraps :
    (nextOf (exec .encode (withValue 0x080002 0xC060200000000000))).map (fun t => t.payloadOut) = some 0x7F := by
  decide +kernel

/-! ## DECODE (L2.2) -/

/-- S8, Intel, 4/8: sign-extended. -/
theorem test_decode_s8 :
    (nextOf (exec .decode (withPayload 0x080402 0x0F80))).map (fun t => (t.resultWord, t.resultValue))
      = some (0xFFFFFFFFFFFFFFF8, 0xC020000000000000) := by decide +kernel

/-- F32, Motorola, 24/32: the bytes are swapped back. -/
theorem test_decode_f32 :
    (nextOf (exec .decode (withPayload 0x201819 0x803F))).map (fun t => (t.resultWord, t.resultValue))
      = some (0x3F800000, 0x3FF0000000000000) := by decide +kernel

/-! ## ENCODE_FRAME (L2.3) -/

/-- S16, Intel, 0/16, SIG_EXT 1, SIG_ID 0x1ABC_DEF0, VALUE −256.0. -/
theorem test_encodeFrame :
    (nextOf (exec .encodeFrame (withValue 0x1ABCDEF080100004 0xC070000000000000))).map
        (fun t => (t.frameId, t.frameCtl.word, t.frameData, t.payloadOut))
      = some (0x1ABCDEF0, 0x108, 0xFF00, 0xFF00) := by decide +kernel

/-- SIG_ID 0x800, standard: FRAME_INVALID, INFO 2. -/
theorem test_encodeFrame_id :
    (nextOf (exec .encodeFrame (withValue 0x0000080000080001 0x4064A00000000000))).map
        (fun t => (t.status.word, t.payloadOut)) = some (0x01030204, 0) := by decide +kernel

/-! ## DECODE_FRAME (L2.4) -/

/-- FLAG, Motorola, 0/1: effective start 7. -/
theorem test_decodeFrame :
    (nextOf (exec .decodeFrame (withPayload 0x010010 0x80))).map (fun t => (t.resultWord, t.resultValue, t.status.word))
      = some (1, 0x3FF0000000000000, 0x00040000) := by decide +kernel

/-- START 200: INVALID_FIELD_SPEC, INFO 2. -/
theorem test_decodeFrame_start :
    (nextOf (exec .decodeFrame (withPayload 0x08C801 0))).map (fun t => t.status.word) = some 0x01040201 := by decide

/-! ## FRAME_SERIALIZE (L2.5) -/

/-- `T1ABCDEF080102030405060708` and CR. -/
theorem test_frameSerialize :
    (nextOf (exec .frameSerialize (withFrame 0x1ABCDEF0 0x108 0x0807060504030201))).map (fun t => (t.txLine, t.txLen))
      = some (⟨0x4645444342413154, 0x3330323031303830, 0x3730363035303430, 0x00000000000D3830⟩, 27) := by decide +kernel

/-- DLC 9 is reported before the id and RTR. -/
theorem test_frameSerialize_dlc :
    (nextOf (exec .frameSerialize (withFrame 0x800 0x209 0))).map (fun t => t.status.word) = some 0x01100104 := by decide

/-! ## FRAME_PARSE (L2.6) -/

/-- `T1ABCDEF0200FF` and CR. -/
theorem test_frameParse :
    (nextOf (exec .frameParse (withLine 15 0x4645444342413154 0x000D464630303230 0))).map
        (fun t => (t.frameId, t.frameCtl.word, t.frameData, t.frameTs)) = some (0x1ABCDEF0, 0x102, 0xFF00, 0x77) := by
  decide +kernel

/-- `t0A8101`, CR, CR: the byte after the CR, at index 8. -/
theorem test_frameParse_after_CR :
    (nextOf (exec .frameParse (withLine 9 0x0D31303138413074 0x0D 0))).map (fun t => t.status.word) = some 0x01110806 := by
  decide +kernel

/-! ## Registers (L2.8) -/

/-- CFG written with ones reads without its reserved bits. -/
theorem test_write_CFG :
    (nextOf (step (issuing (.write 64 0x18 0xFFFFFFFFFFFFFFFF)))).map (readReg .cfg) = some 0x1FFFFFFF80FFFF1F := by decide

/-- Only STICKY is cleared by a write of STATUS. -/
theorem test_write_STATUS :
    (nextOf (step { issuing (.write 64 0x10 0xFFFFFFFFFFFFFFFF) with status := ⟨1, 3, 1, true⟩ })).map (readReg .status)
      = some 0x00010301 := by decide

/-- RXLEN of a build without FSER. -/
theorem test_write_RXLEN_absent :
    (nextOf (step { noFser with hostQueue := [.write 64 0x78 0x1FF] })).map (readReg .rxLen) = some 0 := by decide

/-! ## The hypotheses of the statements can be met -/

theorem test_meets_OpcodeRoundTrip : Instr.encode.wellFormed = true ∧ Instr.frameParse.wellFormed = true := by decide

/-- Each clause: RSV ≠ 0 at its lowest bit; OP 0 and 0xFF, the ends of its range; both FSER commands absent; a command. -/
theorem test_meets_IllegalCommandReported :
    (issuing (.write 64 0x08 0x100)).hostQueue = [.write 64 0x08 0x100] ∧ (0x100 : Word) >>> 8 ≠ 0
      ∧ (0xFF : Word) >>> 8 = 0 ∧ (0xFF : Word).toNat ∉ [0x01, 0x02, 0x03, 0x04, 0x10, 0x11]
      ∧ (0 : Word) >>> 8 = 0 ∧ (0 : Word).toNat ∉ [0x01, 0x02, 0x03, 0x04, 0x10, 0x11]
      ∧ (0x10 : Word).toNat ∈ [0x10, 0x11] ∧ (0x11 : Word).toNat ∈ [0x10, 0x11] ∧ noFser.params.hasFser = false
      ∧ (0x04 : Word).toNat ∈ [0x01, 0x02, 0x03, 0x04] ∧ State.reset.params.hasFser = true := by decide

theorem test_meets_StepRunsDecodedCommand :
    (issuing (.write 64 0x08 0x10)).hostQueue = [.write 64 0x08 0x10] ∧ decode 0x10 = .ok .frameSerialize
      ∧ Instr.frameSerialize.wellFormed = true := by decide

/-- Both sides: an access of each undefined kind, and the last defined slot. -/
theorem test_meets_UndefinedAccessRefused :
    (issuing (.read 64 0xF8)).hostQueue = [.read 64 0xF8] ∧ (HostAccess.read 64 0xF8).wellFormed = true
      ∧ (HostAccess.write 63 0 0).wellFormed = false ∧ (HostAccess.write 64 4 0).wellFormed = false
      ∧ (HostAccess.write 64 0x100 0).wellFormed = false := by decide

theorem test_meets_ResetAccess : (issuing .reset).hostQueue = [.reset] := by decide

/-- The lowest and the highest offset; a read with nothing after it, and a repeated read. -/
theorem test_meets_HostReadPure :
    0 % 8 = 0 ∧ 0xF8 % 8 = 0 ∧ 0xF8 < 0x100 ∧ (issuing (.read 64 0)).hostQueue = .read 64 0 :: []
      ∧ ({ State.reset with hostQueue := [.read 64 0xF8, .read 64 0xF8] } : State).hostQueue
        = .read 64 0xF8 :: .read 64 0xF8 :: [] := by decide

/-- A register of each clause: read-write, and STATUS. -/
theorem test_meets_HostWriteEffect :
    Reg.rxLine3 ≠ .cmd ∧ Reg.status ≠ .cmd
      ∧ (issuing (.write 64 0xB8 1)).hostQueue = [.write 64 Reg.rxLine3.offset 1]
      ∧ (issuing (.write 64 0x10 0x1000000)).hostQueue = [.write 64 Reg.status.offset 0x1000000] := by decide

/-- A command that completes, one that raises, and a write of STATUS. -/
theorem test_meets_StickyWriteOneToClear :
    ((nextOf (step (issuing (.write 64 0x08 0x10)))).map fun t => t.status.code) = some 0
      ∧ ((nextOf (step (issuing (.write 64 0x08 0x01)))).map fun t => t.status.code) = some 1
      ∧ (issuing (.write 64 0x10 0)).hostQueue = [.write 64 0x10 0] := by decide

/-- A build of each MOTO_SWAP, and a step. -/
theorem test_meets_CapsConstant :
    ({ State.reset with params := ⟨true, .none⟩ } : State).params.motoSwap = .none
      ∧ State.reset.params.motoSwap = .floatOnly
      ∧ ({ State.reset with params := ⟨true, .allMultibyte⟩ } : State).params.motoSwap = .allMultibyte
      ∧ (nextOf (step (issuing (.write 64 0x00 0xFF)))).isSome = true := by decide

theorem test_meets_FserAbsentUnit :
    noFser.params.hasFser = false ∧ isFserReg .txLen = true ∧ isFserReg .rxLine3 = true
      ∧ ({ noFser with hostQueue := [.write 64 0x70 5] } : State).hostQueue = [.write 64 Reg.txLen.offset 5]
      ∧ (nextOf (exec .frameParse noFser)).isSome = true := by decide

/-- The hypothesis of the FSER clause; the others have none. -/
theorem test_meets_ReservedBitsReadZero : State.reset.params.hasFser = true := by decide

theorem test_meets_WindowMap : regAt 0xB8 = some .rxLine3 ∧ 0xC0 % 8 = 0 ∧ 0xF8 % 8 = 0 ∧ 0xF8 < 0x100 := by decide

/-- The first and the last reserved slot. -/
theorem test_meets_ReservedSlots :
    0 < 8 ∧ 7 < 8 ∧ (issuing (.read 64 0xC0)).hostQueue = [.read 64 (0xC0 + 8 * 0)]
      ∧ (issuing (.write 64 0xF8 1)).hostQueue = [.write 64 (0xC0 + 8 * 7) 1] := by decide

/-- The largest fields, and a line of 32 bytes. -/
theorem test_meets_NotationSetsUpOperands :
    255 < 256 ∧ 2 ^ 29 - 1 < 2 ^ 29 ∧ State.reset.params.hasFser = true ∧ (List.replicate 32 (0x30 : Byte)).length ≤ 32 := by
  decide +kernel

/-- A command that raises and one that completes. -/
theorem test_meets_StatusOfEveryCommand :
    ((nextOf (step (issuing (.write 64 0x08 0xFF)))).map fun t => t.status.code) = some 3
      ∧ ((nextOf (step (issuing (.write 64 0x08 0x10)))).map fun t => t.status.code) = some 0 := by decide

theorem test_meets_StatusNeverInfluences : (nextOf (exec .decode State.reset)).isSome = true := by decide

theorem test_meets_CommandsAreRepeatable : (nextOf (exec .frameSerialize State.reset)).isSome = true := by decide

/-- Two states that differ in every register the commands do not read, each command completing. -/
theorem test_meets_CommandsDependOnTheirInputs :
    (let s := { withPayload 0x080001 0xA5 with rxLen := 6, rxLine := ⟨0x0D3030303074, 0, 0, 0⟩ }
     let s' := { s with status := ⟨1, 1, 1, true⟩, payloadOut := 5, resultWord := 5, resultValue := 5, txLen := 5 }
     s.params = s'.params ∧ s.cfg = s'.cfg ∧ s.value = s'.value ∧ s.tsIn = s'.tsIn ∧ s.payloadIn = s'.payloadIn
      ∧ s.frameId = s'.frameId ∧ s.frameCtl = s'.frameCtl ∧ s.frameData = s'.frameData ∧ s.rxLen = s'.rxLen
      ∧ rxBytes s = rxBytes s'
      ∧ [Instr.encode, .decode, .encodeFrame, .decodeFrame, .frameSerialize, .frameParse].all
          (fun i => (nextOf (exec i s)).map (fun t => t.status.code) == some 0) = true) := by decide +kernel

theorem test_meets_CodecCommandFrames :
    [Instr.encode, .decode, .encodeFrame, .decodeFrame].all
      (fun i => (nextOf (exec i (withValue 0x080001 0))).map (fun t => t.status.code) == some 0) = true := by decide +kernel

theorem test_meets_FserCommandFrames :
    (nextOf (exec .frameSerialize State.reset)).map (fun t => t.status.code) = some 0
      ∧ (nextOf (exec .frameParse (withLine 6 0x0D3030303074 0 0))).map (fun t => t.status.code) = some 0 := by
  decide +kernel

/-- Each clause at the boundary of its range: TYPE 11; START 64 with TYPE 10; LEN 0 and LEN 65 with START 63; the widest
field in range. -/
theorem test_meets_FieldCheck :
    isCodecCommand .decode = true ∧ 11 ≤ (Cfg.ofWord 0x00400B).dtype.toNat
      ∧ (Cfg.ofWord 0x00400A).dtype.toNat ≤ 10 ∧ 64 ≤ (Cfg.ofWord 0x00400A).start.toNat
      ∧ (Cfg.ofWord 0x003F0A).start.toNat ≤ 63 ∧ (Cfg.ofWord 0x003F0A).len.toNat = 0
      ∧ (Cfg.ofWord 0x413F0A).dtype.toNat ≤ 10 ∧ 65 ≤ (Cfg.ofWord 0x413F0A).len.toNat ∧ (Cfg.ofWord 0x403F0A).Legal := by
  decide

/-- Each clause: the NaNs and the infinities at the ends of their ranges, TYPE 8, TYPE 9, the largest finite
value, a command that reads no value, LEN 0. -/
theorem test_meets_NonFiniteRefused :
    Instr.encodeFrame ∈ [Instr.encode, .encodeFrame] ∧ (withValue 0x080008 0).cfg.Legal
      ∧ (withValue 0x080008 0).cfg.dtype.toNat ≤ 8 ∧ NaN64 0x7FF0000000000001 ∧ NaN64 0xFFFFFFFFFFFFFFFF
      ∧ Inf64 0x7FF0000000000000 ∧ Inf64 0xFFF0000000000000 ∧ 9 ≤ (withValue 0x080009 0).cfg.dtype.toNat
      ∧ Finite64 0x7FEFFFFFFFFFFFFF ∧ Instr.frameParse ∈ [Instr.decode, .decodeFrame, .frameSerialize, .frameParse]
      ∧ ¬ (withValue 0x000008 0x7FF0000000000001).cfg.Legal := by decide

/-- Each clause at the boundary of its range: DLC 9; id 0x800 with DLC 8; RTR with id 0x7FF; a frame that passes; the same
ids for ENCODE_FRAME. -/
theorem test_meets_FrameChecks :
    State.reset.params.hasFser = true ∧ 8 < (withFrame 0 0x9 0).frameCtl.dlc.toNat
      ∧ (withFrame 0x800 0x8 0).frameCtl.dlc.toNat ≤ 8 ∧ (withFrame 0x800 0x8 0).frameCtl.ext = false
      ∧ 0x7FF < (withFrame 0x800 0x8 0).frameId.toNat ∧ (withFrame 0x7FF 0x208 0).frameId.toNat ≤ 0x7FF
      ∧ (withFrame 0x7FF 0x208 0).frameCtl.rtr = true ∧ (withFrame 0x7FF 0x008 0).frameCtl.rtr = false
      ∧ (withValue 0x0000080000080001 0).cfg.Legal ∧ Finite64 (withValue 0x0000080000080001 0).value
      ∧ (withValue 0x0000080000080001 0).cfg.sigExt = false ∧ 0x7FF < (withValue 0x0000080000080001 0).cfg.sigId.toNat
      ∧ (withValue 0x000007FF00080001 0).cfg.sigId.toNat ≤ 0x7FF := by decide

/-- ENCODE, DECODE and DECODE_FRAME complete: a type, a legal field and a finite value. -/
theorem test_meets_EncodeWritesPayload :
    dataTypeOf (withValue 0x403F08 0x43E0000000000000).cfg.dtype = some .s64
      ∧ ((withValue 0x403F08 0x43E0000000000000).cfg.field .s64).Legal
      ∧ Finite64 (withValue 0x403F08 0x43E0000000000000).value := by decide

theorem test_meets_EncodeFrameBuildsFrame :
    dataTypeOf (withValue 0x000007FF00080001 0).cfg.dtype = some .u8 ∧ ((withValue 0x000007FF00080001 0).cfg.field .u8).Legal
      ∧ Finite64 (withValue 0x000007FF00080001 0).value ∧ (withValue 0x000007FF00080001 0).cfg.sigExt = false
      ∧ (withValue 0x000007FF00080001 0).cfg.sigId.toNat ≤ 0x7FF := by decide

theorem test_meets_DecodeReadsPayload :
    dataTypeOf (withPayload 0x01001A 0).cfg.dtype = some .f64 ∧ ((withPayload 0x01001A 0).cfg.field .f64).Legal := by decide

theorem test_meets_DecodeFrameReadsFrame :
    dataTypeOf (withPayload 0x403F10 1).cfg.dtype = some .flag ∧ ((withPayload 0x403F10 1).cfg.field .flag).Legal := by decide

/-- The first code that is no type's; the least negative word of S8. -/
theorem test_meets_ResultWordExtension : 11 ≤ (11 : BitVec 4).toNat ∧ (0x80 : Word).toNat < 2 ^ (typeRow .s8).width := by
  decide

/-- Both signs of the effective start, and a field that negative start leaves nothing of. -/
theorem test_meets_PlacedWord :
    (⟨.flag, .motorola, 63, 64⟩ : FieldSpec).Legal ∧ (1 : Word).toNat < 2 ^ typeWidth .flag
      ∧ 0 ≤ effStart ⟨.flag, .motorola, 63, 64⟩ ∧ (⟨.u16, .motorola, 0, 8⟩ : FieldSpec).Legal
      ∧ (0xFFFF : Word).toNat < 2 ^ typeWidth .u16
      ∧ effStart ⟨.u16, .motorola, 0, 8⟩ ≤ -(truncLen ⟨.u16, .motorola, 0, 8⟩ : ℤ) := by decide

theorem test_meets_ExtractedField :
    (⟨.u8, .intel, 63, 1⟩ : FieldSpec).Legal ∧ 0 ≤ effStart ⟨.u8, .intel, 63, 1⟩
      ∧ (⟨.u64, .motorola, 0, 56⟩ : FieldSpec).Legal
      ∧ effStart ⟨.u64, .motorola, 0, 56⟩ ≤ -(truncLen ⟨.u64, .motorola, 0, 56⟩ : ℤ) := by decide

theorem test_meets_PlacedWordRoundTrip :
    (⟨.u16, .motorola, 8, 16⟩ : FieldSpec).Legal ∧ (0xFFFF : Word).toNat < 2 ^ typeWidth .u16 := by decide

/-- A field the conditions admit and one they do not. -/
theorem test_meets_InRangeConditions :
    (⟨.u16, .motorola, 48, 16⟩ : FieldSpec).Legal
      ∧ keptMask ⟨.u16, .motorola, 48, 16⟩ &&& lowMask 16 = lowMask 16 ∧ (⟨.u16, .motorola, 49, 16⟩ : FieldSpec).Legal
      ∧ keptMask ⟨.u16, .motorola, 49, 16⟩ &&& lowMask 16 ≠ lowMask 16 := by decide

theorem test_meets_EncodeFootprint :
    dataTypeOf (withValue 0x100803 0x40B2340000000000).cfg.dtype = some .u16
      ∧ (nextOf (exec .encode (withValue 0x100803 0x40B2340000000000))).map (fun t => t.status.code) = some 0
      ∧ ¬ inFootprint ((withValue 0x100803 0).cfg.field .u16) 7 ∧ ¬ inFootprint ((withValue 0x100803 0).cfg.field .u16) 24 := by
  decide +kernel

/-- Two fields of 8 bits side by side. -/
theorem test_meets_DisjointFieldsCombine :
    (⟨.u8, .intel, 0, 8⟩ : FieldSpec).Legal ∧ (⟨.u8, .intel, 8, 8⟩ : FieldSpec).Legal ∧ (0xFF : Word).toNat < 2 ^ typeWidth .u8
      ∧ ∀ i < 64, ¬ (inFootprint ⟨.u8, .intel, 0, 8⟩ i ∧ inFootprint ⟨.u8, .intel, 8, 8⟩ i) := by decide +kernel

theorem test_meets_MotorolaByteSwap :
    2 ∈ [2, 4, 8] ∧ 8 ∈ [2, 4, 8] ∧ (0xFFFF : Word).toNat < 2 ^ (8 * 2) ∧ (0xFFFFFFFFFFFFFFFF : Word).toNat < 2 ^ (8 * 8) := by
  decide

theorem test_meets_RoundHalfAwayExact : Finite64 0x3FE0000000000000 ∧ Finite64 0x8000000000000000 := by decide

/-- The largest value that rounds to a finite binary32, and the least that overflows (40_codec_datapath.md R170). -/
theorem test_meets_NarrowNearestEven :
    (Finite64 0x47EFFFFFEFFFFFFF ∧ |real64 0x47EFFFFFEFFFFFFF| < 2 ^ 128 - 2 ^ 103)
      ∧ Finite64 0xC7EFFFFFF0000000 ∧ 2 ^ 128 - 2 ^ 103 ≤ |real64 0xC7EFFFFFF0000000| := by
  have h1 : real64 0x47EFFFFFEFFFFFFF = 1 * ((2 ^ 52 + (0xFFFFFEFFFFFFF : ℕ)) * 2 ^ ((1150 : ℕ) - 1075 : ℤ)) := rfl
  have h2 : real64 0xC7EFFFFFF0000000 = -1 * ((2 ^ 52 + (0xFFFFFF0000000 : ℕ)) * 2 ^ ((1150 : ℕ) - 1075 : ℤ)) := rfl
  rw [h1, h2]
  refine ⟨⟨by decide, ?_⟩, by decide, ?_⟩ <;> norm_num [abs_of_pos, abs_of_neg]

/-- R148: a quiet and a signalling NaN. -/
theorem test_meets_NarrowSpecialValues : NaN64 0x7FF8000000000000 ∧ NaN64 0xFFF0000000000001 := by decide

theorem test_meets_IntegerToBinary64 :
    DataType.s64 ∉ [DataType.f32, .f64] ∧ (0x8000000000000000 : Word).toNat < 2 ^ (typeRow .s64).width ∧ |(2 ^ 64 : ℤ)| ≤ 2 ^ 64
      ∧ |(2 ^ 53 : ℤ)| ≤ 2 ^ 53 ∧ Finite64 0x7FEFFFFFFFFFFFFF := by decide

/-- R166: the least subnormal, the largest finite value and a NaN. -/
theorem test_meets_WidenExact :
    Finite32 0x00000001 ∧ Finite32 0xFF7FFFFF ∧ (0x7F800001 : Word).toNat < 2 ^ 32
      ∧ (0x7F800001 : Word).extractLsb' 23 8 = 0xFF ∧ (0x7F800001 : Word).extractLsb' 0 23 ≠ 0 := by decide

/-- 0.5 has an encoding and 0.1 has none. -/
theorem test_meets_DecimalLiteralExact :
    decimalBits false 5 1 = some 0x3FE0000000000000 ∧ decimalBits false 1 1 = none ∧ Finite64 0x3FE0000000000000 := by
  decide +kernel

theorem test_meets_FrameCodecRoundTrip :
    dataTypeOf (withValue 0x201819 0x3FF0000000000000).cfg.dtype = some .f32
      ∧ (nextOf (exec .encodeFrame (withValue 0x201819 0x3FF0000000000000))).map (fun t => t.status.code) = some 0
      ∧ storedWord .floatOnly ((withValue 0x201819 0).cfg.field .f32) 0x3FF0000000000000 = .ok 0x803F := by decide +kernel

/-- S8, −128: the least integer of the type. -/
theorem test_meets_IntegerValuesRoundTrip :
    dataTypeOf (withValue 0x080002 0xC060000000000000).cfg.dtype = some .s8 ∧ isFloat .s8 = false
      ∧ ((withValue 0x080002 0).cfg.field .s8).Legal
      ∧ keptMask ((withValue 0x080002 0).cfg.field .s8) &&& lowMask (typeWidth .s8) = lowMask (typeWidth .s8)
      ∧ (0xC060000000000000 : Word) = toBinary64 (-128) ∧ (withValue 0x080002 0).cfg.sigId.toNat ≤ 0x7FF := by decide +kernel

theorem test_meets_IntegerValuesRoundTrip_range : inTypeRange .s8 (-128) := by simp [inTypeRange, typeRow]

theorem test_meets_IntegerValuesRoundTrip_real : real64 0xC060000000000000 = ((-128 : ℤ) : ℚ) := by
  have h : real64 0xC060000000000000 = -1 * ((2 ^ 52 + (0 : ℕ)) * 2 ^ ((1030 : ℕ) - 1075 : ℤ)) := rfl
  rw [h]
  norm_num

/-- F32 in Motorola forward, 24/32, and F64 in Intel, 0/64. -/
theorem test_meets_FloatPatternsRoundTrip :
    dataTypeOf (withValue 0x201819 0x3FF0000000000000).cfg.dtype = some .f32
      ∧ ((withValue 0x201819 0).cfg.field .f32).Legal
      ∧ keptMask ((withValue 0x201819 0).cfg.field .f32) &&& lowMask 32 = lowMask 32
      ∧ (0x3F800000 : Word).toNat < 2 ^ 32 ∧ ¬ NaN32 0x3F800000
      ∧ (0x3FF0000000000000 : Word) = widen32 0x3F800000 ∧ (withValue 0x201819 0).cfg.sigId.toNat ≤ 0x7FF
      ∧ dataTypeOf (withValue 0x40000A 5).cfg.dtype = some .f64 ∧ ((withValue 0x40000A 5).cfg.field .f64).Legal
      ∧ keptMask ((withValue 0x40000A 5).cfg.field .f64) &&& lowMask 64 = lowMask 64 := by decide +kernel

theorem test_meets_LineBufferLayout : 31 < 32 ∧ (List.replicate 32 (0x30 : Byte)).length ≤ 32 := by decide

/-- An extended frame of 8 bytes with the largest id. -/
theorem test_meets_FrameSerializeWritesLine :
    (withFrame 0x1FFFFFFF 0x108 0).params.hasFser = true ∧ (withFrame 0x1FFFFFFF 0x108 0).frameCtl.dlc.toNat ≤ 8
      ∧ (withFrame 0x1FFFFFFF 0x108 0).frameCtl.ext = true ∧ (withFrame 0x1FFFFFFF 0x108 0).frameCtl.rtr = false := by decide

theorem test_meets_SerializedLineShape :
    (nextOf (exec .frameSerialize (withFrame 0x7FF 0x8 0))).map (fun t => t.status.code) = some 0 := by decide +kernel

/-- `t7FF0` and CR: the largest standard id, no data. -/
theorem test_meets_FrameParseReadsLine :
    (withLine 6 0x0D3046463774 0 0).rxLen.toNat ≤ 32
      ∧ rxBytes (withLine 6 0x0D3046463774 0 0) = lineOf false [0x37, 0x46, 0x46] 0 []
      ∧ PartsOk false [0x37, 0x46, 0x46] 0 [] ∧ hexNumber [0x37, 0x46, 0x46] ≤ idLimit false := by decide +kernel

/-- A line that is accepted and one that is not. -/
theorem test_meets_FrameParseAcceptsExactlyTheGrammar :
    (withLine 6 0x0D3046463774 0 0).params.hasFser = true
      ∧ (nextOf (exec .frameParse (withLine 6 0x0D3046463774 0 0))).map (fun t => t.status.code) = some 0
      ∧ (nextOf (exec .frameParse (withLine 1 0x78 0 0))).map (fun t => t.status.code) = some 6 := by decide +kernel

/-- Each clause: RXLEN 33; `t8001` and CR, whose id is out of range; the empty line. -/
theorem test_meets_FrameParseReportsFirstBreak :
    32 < (withLine 33 0 0 0).rxLen.toNat
      ∧ (nextOf (exec .frameParse (withLine 33 0 0 0))).map (fun t => t.status.word) = some 0x0111FF06
      ∧ rxBytes (withLine 6 0x0D3130303874 0 0) = 0x74 :: ([0x38, 0x30, 0x30] ++ [0x31, 0x0D])
      ∧ idLimit false < hexNumber [0x38, 0x30, 0x30] ∧ (∀ b ∈ ([0x38, 0x30, 0x30] : List Byte), IsHex b)
      ∧ (nextOf (exec .frameParse (withLine 6 0x0D3130303874 0 0))).map (fun t => t.status.word) = some 0x01110106
      ∧ (nextOf (exec .frameParse (withLine 0 0 0 0))).map (fun t => t.status.word) = some 0x01110006 := by decide +kernel

theorem test_meets_FrameParseReportsFirstBreak_in_range : ¬ IdOutOfRange (rxBytes (withLine 0 0 0 0)) := by
  rintro ⟨ext, ids, rest, -, -, -, h⟩
  exact absurd h (by simp [rxBytes, withLine])

theorem test_meets_SerializeThenParse :
    (withFrame 0x7FF 0x8 5).params.hasFser = true ∧ (withFrame 0x7FF 0x8 5).frameCtl.dlc.toNat ≤ 8
      ∧ (withFrame 0x7FF 0x8 5).frameId.toNat ≤ 0x7FF ∧ (withFrame 0x7FF 0x8 5).frameCtl.rtr = false := by decide

/-- `t0a8101` and CR, in lower case. -/
theorem test_meets_ParseThenSerialize :
    (nextOf (exec .frameParse (withLine 8 0x0D31303138613074 0 0))).map (fun t => t.status.code) = some 0 := by decide +kernel

theorem test_meets_BuiltFramesValid :
    Instr.frameParse ∈ [Instr.encodeFrame, .frameParse]
      ∧ (nextOf (exec .frameParse (withLine 8 0x0D31303138613074 0 0))).map (fun t => t.status.code) = some 0
      ∧ (nextOf (exec .encodeFrame (withValue 0x080001 0))).map (fun t => t.status.code) = some 0 := by decide +kernel

theorem test_meets_StepKeepsInvariant :
    (issuing (.write 64 0x08 0x10)).Inv ∧ (nextOf (step (issuing (.write 64 0x08 0x10)))).isSome = true :=
  ⟨⟨by decide, ⟨.inl rfl, by decide +kernel⟩, by decide⟩, by decide⟩

/-- A line in TXLINE: `t0000` and CR (L2.5). -/
theorem test_meets_StepKeepsInvariant_line :
    TxLegal { State.reset with txLen := 6, txLine := ⟨0x0D3030303074, 0, 0, 0⟩ } :=
  ⟨.inr ⟨false, [0x30, 0x30, 0x30], 0, [], by decide +kernel, by decide +kernel, by decide +kernel, by decide,
    by decide +kernel⟩, by decide +kernel⟩

/-- Two CMD writes, the first of which raises. -/
theorem test_meets_StickyRecordsAnyRaise :
    ({ State.reset with hostQueue := [.write 64 0x08 0x01, .write 64 0x08 0x10] } : State).hostQueue
        = ([0x01, 0x10] : List Word).map (HostAccess.write 64 0x08)
      ∧ (nextOf (Sys2Proof.core.run 2 { State.reset with hostQueue := [.write 64 0x08 0x01, .write 64 0x08 0x10] })).map
          (fun t => t.status.word) = some 0x01100000 := by decide +kernel

end Sys2Proof.Tests
end

/-! # The family 00_scope.md: the byte swap (R16, R150) and the integer rounding (R15) -/

section
namespace Sys2Proof.Machine

/-! ## The byte swap -/

/-- The bytes of a byte-swapped word are the word's own, in reverse order. -/
theorem bytesOf_bswap {n : Nat} (hn : n ≤ 8) (v : Word) : bytesOf n (bswap n v) = (bytesOf n v).reverse := by
  rw [bswap, bytesOf_wordOf hn _ (by simp)]
  simp

/-- A byte-swapped word has nothing above its n bytes. -/
theorem bswap_toNat_lt {n : Nat} (hn : n ≤ 8) (v : Word) : (bswap n v).toNat < 2 ^ (8 * n) := by
  have hmask : bswap n v &&& lowMask (8 * n) = bswap n v := by
    rw [← wordOf_bytesOf, bytesOf_bswap hn, bswap]
  rw [← hmask]
  exact toNat_and_lowMask_lt _ _

/-- Swapping twice keeps the n bytes swapped and clears those above. -/
theorem bswap_bswap {n : Nat} (hn : n ≤ 8) (v : Word) : bswap n (bswap n v) = v &&& lowMask (8 * n) := by
  rw [bswap, bytesOf_bswap hn, List.reverse_reverse, wordOf_bytesOf]

/-- F32 and F64 are the float types (40_codec_datapath.md R141). -/
theorem isFloat_iff (t : DataType) : isFloat t = true ↔ t ∈ [.f32, .f64] := by
  cases t <;> simp [isFloat]

/-- When a word is swapped (40_codec_datapath.md R150). -/
theorem swapApplies_iff (m : MotoSwap) (t : DataType) (e : Endian) :
    swapApplies m t e = true
      ↔ e = .motorola ∧ 16 ≤ typeWidth t ∧ (m = .allMultibyte ∨ m = .floatOnly ∧ t ∈ [.f32, .f64]) := by
  cases e with
  | intel => simp [swapApplies]
  | motorola => cases m <;> simp [swapApplies, isFloat_iff]

/-! ## The integer rounding -/

/-- With k ≥ 0, m·2^k is an integer, and adding 1/2 does not reach the next one. -/
theorem floor_half_of_nonneg (m : Nat) {k : Int} (hk : 0 ≤ k) :
    ⌊(m : ℚ) * 2 ^ k + 1 / 2⌋ = ((m * 2 ^ k.toNat : ℕ) : ℤ) := by
  obtain ⟨j, rfl⟩ := Int.eq_ofNat_of_zero_le hk
  have hint : (m : ℚ) * 2 ^ (j : ℤ) = ((m * 2 ^ j : ℕ) : ℚ) := by simp
  have hhalf : ⌊(1 / 2 : ℚ)⌋ = 0 := by norm_num
  rw [hint, Int.floor_natCast_add, hhalf, add_zero, Int.toNat_natCast]

/-- With k = −(i+1), m·2^k + 1/2 is (m + 2^i)/2^(i+1), whose floor is the quotient of naturals. -/
theorem floor_half_of_neg (m : Nat) {k : Int} (hk : k < 0) :
    ⌊(m : ℚ) * 2 ^ k + 1 / 2⌋ = (((m + 2 ^ ((-k).toNat - 1)) / 2 ^ (-k).toNat : ℕ) : ℤ) := by
  obtain ⟨j, rfl⟩ := Int.exists_eq_neg_ofNat hk.le
  obtain ⟨i, rfl⟩ := Nat.exists_eq_succ_of_ne_zero (show j ≠ 0 by omega)
  have hquot : (m : ℚ) * 2 ^ (-((i + 1 : ℕ) : ℤ)) + 1 / 2 = ((m + 2 ^ i : ℕ) : ℚ) / ((2 ^ (i + 1) : ℕ) : ℚ) := by
    rw [zpow_neg, zpow_natCast]
    push_cast
    field_simp
    ring
  rw [hquot, Rat.floor_natCast_div_natCast]
  simp

/-- The model's rounding takes the floor of the magnitude plus 1/2 and then puts the sign back. -/
theorem roundHalfAway_eq_floor (x : Exact) :
    roundHalfAway x
      = if x.neg then -⌊(x.mant : ℚ) * 2 ^ x.exp + 1 / 2⌋ else ⌊(x.mant : ℚ) * 2 ^ x.exp + 1 / 2⌋ := by
  unfold roundHalfAway
  by_cases hk : 0 ≤ x.exp
  · rw [floor_half_of_nonneg x.mant hk]
    simp only [if_pos hk]
  · rw [floor_half_of_neg x.mant (by omega)]
    simp only [if_neg hk]

/-- R15's formula on a magnitude with a sign. At 0 both of its cases give 0, so the sign of a zero does not matter. -/
theorem roundHalfAwayQ_signed (neg : Bool) {y : ℚ} (hy : 0 ≤ y) :
    roundHalfAwayQ ((if neg then -1 else 1) * y) = if neg then -⌊y + 1 / 2⌋ else ⌊y + 1 / 2⌋ := by
  cases neg with
  | false => simp [roundHalfAwayQ, hy]
  | true =>
    rcases hy.eq_or_lt with rfl | hpos
    · norm_num [roundHalfAwayQ]
    · simp [roundHalfAwayQ, hpos]

end Sys2Proof.Machine
end

section
namespace Sys2Proof.Proofs

open Sys2Proof Sys2Proof.Machine

/-- Settles O39: the bytes by `extract_bswap`, the bound and the second swap from the reversed byte list, and the
condition by cases on the endianness and the build. -/
theorem motorolaByteSwap : Obligations.MotorolaByteSwap := by
  unfold Obligations.MotorolaByteSwap
  refine ⟨fun n v hn hv => ?_, fun m t e w => ?_⟩
  · have hn8 : n ≤ 8 := by
      simp only [List.mem_cons, List.not_mem_nil, or_false] at hn
      omega
    refine ⟨fun k hk => extract_bswap v hn8 hk, bswap_toNat_lt hn8 v, ?_⟩
    rw [bswap_bswap hn8, and_lowMask_of_lt hv]
  · simp only [motoSwapWord, swapApplies_iff]

/-- Settles O40: the model and R15 both round the magnitude `mant·2^exp` by the floor of it plus 1/2, and give it the
pattern's sign. -/
theorem roundHalfAwayExact : Obligations.RoundHalfAwayExact := by
  unfold Obligations.RoundHalfAwayExact
  intro x _
  rw [real64_eq, roundHalfAwayQ_signed _ (by positivity), roundHalfAway_eq_floor]

end Sys2Proof.Proofs
end

/-! # The family 10_state.md: STICKY (R39, R40), CAPS (R34) and the reset values (R68) -/

section
namespace Sys2Proof.Machine

/-! ## STATUS after a command, and after a host write -/

/-- A command ends in one of two ways (00_scope.md R13): it completes, or it raises and changes STATUS alone. -/
theorem exec_completes_or_raises {i : Instr} {s t : State} (h : exec i s = .next t) :
    t.status = s.status.completed (opcodeOf i) ∨ ∃ e, t = s.raise (opcodeOf i) e := by
  cases i with
  | encode =>
    rcases execEncode_cases h with ⟨_, _, rfl⟩ | ⟨e, _, rfl⟩
    · exact .inl rfl
    · exact .inr ⟨e, rfl⟩
  | decode =>
    rcases execDecode_cases h with ⟨_, _, _, rfl⟩ | ⟨e, _, rfl⟩
    · exact .inl rfl
    · exact .inr ⟨e, rfl⟩
  | encodeFrame =>
    rcases execEncodeFrame_cases h with ⟨_, _, _, rfl⟩ | ⟨e, _, rfl⟩ | ⟨_, _, _, rfl⟩
    · exact .inl rfl
    · exact .inr ⟨e, rfl⟩
    · exact .inr ⟨_, rfl⟩
  | decodeFrame =>
    rcases execDecodeFrame_cases h with ⟨_, _, _, rfl⟩ | ⟨e, _, rfl⟩
    · exact .inl rfl
    · exact .inr ⟨e, rfl⟩
  | frameSerialize =>
    rcases execFrameSerialize_cases h with ⟨_, _, rfl⟩ | ⟨_, e, _, rfl⟩ | ⟨_, rfl⟩
    · exact .inl rfl
    · exact .inr ⟨e, rfl⟩
    · exact .inr ⟨_, rfl⟩
  | frameParse =>
    rcases execFrameParse_cases h with ⟨_, _, _, _, rfl⟩ | ⟨_, _, _, _, rfl⟩ | ⟨_, _, rfl⟩ | ⟨_, rfl⟩
    · exact .inl rfl
    · exact .inr ⟨_, rfl⟩
    · exact .inr ⟨_, rfl⟩
    · exact .inr ⟨_, rfl⟩

/-- A CMD write of any value ends in the same two ways: a value that selects no command raises. -/
theorem runCommand_completes_or_raises {v : Word} {s t : State} (h : runCommand v s = .next t) :
    (∃ op, t.status = s.status.completed op) ∨ ∃ op e, t = s.raise op e := by
  rcases runCommand_cases h with ⟨i, _, hi⟩ | ⟨_, rfl⟩ | ⟨_, rfl⟩
  · rcases exec_completes_or_raises hi with hc | ⟨e, hr⟩
    · exact .inl ⟨_, hc⟩
    · exact .inr ⟨_, e, hr⟩
  · exact .inr ⟨_, _, rfl⟩
  · exact .inr ⟨_, _, rfl⟩

/-- STICKY after a CMD write (10_state.md R39): CODE tells a raise, which sets it, from a completion, which keeps it. -/
theorem runCommand_sticky {v : Word} {s t : State} (h : runCommand v s = .next t) :
    (t.status.code ≠ 0 → t.status.sticky = true) ∧ (t.status.code = 0 → t.status.sticky = s.status.sticky) := by
  rcases runCommand_completes_or_raises h with ⟨op, hc⟩ | ⟨op, e, rfl⟩
  · simp [hc]
  · exact ⟨fun _ => rfl, fun h0 => absurd h0 e.code.number_ne_zero⟩

/-- STICKY alone is written by a host write of STATUS, and only to be cleared (10_state.md R39, R40). -/
theorem Status.hostWritten_eq (st : Status) (v : Word) :
    st.hostWritten v = { st with sticky := if v.getLsbD 24 then false else st.sticky } := by
  cases hv : v.getLsbD 24 <;> simp only [Status.hostWritten, hv] <;> simp

/-! ## CAPS and the parameters -/

/-- The fields of CAPS stand at their bits, and CAPS reads 0 above them (10_state.md R34). -/
theorem capsWord_fields (p : Params) :
    (capsWord p).getLsbD 0 = p.hasFser ∧ (capsWord p).extractLsb' 1 2 = swapCode p.motoSwap
      ∧ (capsWord p).extractLsb' 3 61 = 0 := by
  rcases p with ⟨_ | _, _ | _ | _⟩ <;> decide

/-- Code 3 is no MOTO_SWAP (00_scope.md R6). -/
theorem swapCode_ne_three (m : MotoSwap) : swapCode m ≠ 3 := by cases m <;> decide

/-- CAPS is the value 10_state.md R68 gives it. -/
theorem capsWord_eq_capsValue (p : Params) : capsWord p = capsValue p := by
  rcases p with ⟨_ | _, _ | _ | _⟩ <;> decide

/-- A CMD write leaves the parameters as they were. -/
theorem runCommand_params {v : Word} {s t : State} (h : runCommand v s = .next t) : t.params = s.params := by
  rcases runCommand_cases h with ⟨i, _, hi⟩ | ⟨_, rfl⟩ | ⟨_, rfl⟩
  · exact (exec_host_frame hi).1
  · rfl
  · rfl

/-- No step changes the parameters: not a command, not a store, not the reset input. -/
theorem step_params {s t : State} (h : step s = .next t) : t.params = s.params := by
  rcases step_cases h with
    ⟨_, rfl⟩ | ⟨_, _, _, ⟨_, rfl⟩ | ⟨_, _, _, _, rfl⟩ | ⟨_, v, _, _, _, ⟨_, hcmd⟩ | ⟨r, _, _, rfl⟩ | ⟨_, rfl⟩⟩⟩
  · rfl
  · rfl
  · rfl
  · simpa using runCommand_params hcmd
  · exact (writeReg_frame r v _).1
  · rfl

/-! ## The reset values -/

/-- A register of the FSER unit that holds 0 reads 0, present or not (10_state.md R60). -/
@[simp] theorem State.fserWord_zero (s : State) : s.fserWord 0 = 0 := by simp [State.fserWord]

/-- Every register but CAPS reads 0 after reset, in a build with any parameters (10_state.md R68). -/
theorem readReg_reset {r : Reg} (p : Params) (hr : r ≠ .caps) : readReg r { State.reset with params := p } = 0 := by
  cases r with
  | caps => exact absurd rfl hr
  | txLen | rxLen | txLine0 | txLine1 | txLine2 | txLine3 | rxLine0 | rxLine1 | rxLine2 | rxLine3 =>
    exact State.fserWord_zero _
  | status => exact (by decide : State.reset.status.word = 0)
  | cfg => exact (by decide : State.reset.cfg.word = 0)
  | frameCtl => exact (by decide : State.reset.frameCtl.word = 0)
  | cmd | value | payloadIn | payloadOut | resultWord | resultValue | tsIn | frameId | frameData | frameTs => rfl

end Sys2Proof.Machine
end

section
namespace Sys2Proof.Proofs

open Sys2Proof Sys2Proof.Machine

/-- Settles O12: a CMD write by the two ways a command can end (`runCommand_sticky`), a STATUS write by
`Status.hostWritten_eq`, and the reserved bits by `Status.word_reserved`. -/
theorem stickyWriteOneToClear : Obligations.StickyWriteOneToClear := by
  unfold Obligations.StickyWriteOneToClear
  refine ⟨fun s v rest t hq hstep => ?_, fun s v rest hq => ?_, fun s => s.status.word_reserved, rfl⟩
  · rw [step_command hq] at hstep
    simpa only using runCommand_sticky hstep
  · rw [step_write (r := .status) (by decide) hq, writeReg, Status.hostWritten_eq]

/-- Settles O13: CAPS is a function of the parameters (`capsWord_fields`), and no step changes them (`step_params`). -/
theorem capsConstant : Obligations.CapsConstant := by
  unfold Obligations.CapsConstant
  refine ⟨fun s => ?_, fun s t hstep => ?_⟩
  · obtain ⟨hfser, hswap, hzero⟩ := capsWord_fields s.params
    simp only [readReg, hswap]
    exact ⟨hfser, fun hm => hm ▸ rfl, fun hm => hm ▸ rfl, fun hm => hm ▸ rfl, swapCode_ne_three _, hzero⟩
  · have hparams := step_params hstep
    exact ⟨hparams, by simp only [readReg, hparams]⟩

/-- Settles O8: the fields are those of `State.reset`; the words the host reads are `capsWord_eq_capsValue` and
`readReg_reset`. -/
theorem resetValues : Obligations.ResetValues := by
  unfold Obligations.ResetValues
  intro p
  refine ⟨capsWord_eq_capsValue p, ?_⟩
  exact ⟨rfl, rfl, rfl, rfl, rfl, rfl, rfl, rfl, rfl, rfl, rfl, rfl, rfl, rfl, rfl, rfl, fun _ hr => readReg_reset p hr⟩

end Sys2Proof.Proofs
end

/-! # The family 20_memory.md: the host's accesses (R82, R83), its reads (R85) and its writes (R84) -/

section
namespace Sys2Proof.Machine

/-! ## Accesses with and without a meaning -/

/-- A read is well formed exactly when the host port does not refuse it (20_memory.md R82). -/
theorem wellFormed_read_iff (bits off : Nat) :
    (HostAccess.read bits off).wellFormed = true ↔ accessRefusal bits off = none := by
  simp only [HostAccess.wellFormed, Bool.and_eq_true, beq_iff_eq, decide_eq_true_eq, accessRefusal_eq_none]
  omega

/-- A write is well formed exactly when the host port does not refuse it (20_memory.md R82). -/
theorem wellFormed_write_iff (bits off : Nat) (v : Word) :
    (HostAccess.write bits off v).wellFormed = true ↔ accessRefusal bits off = none :=
  wellFormed_read_iff bits off

/-- Every access the block defines has a next state. -/
theorem performAccess_of_wellFormed {a : HostAccess} (s : State) (ha : a.wellFormed = true) :
    ∃ t, performAccess a s = .next t := by
  cases a with
  | read bits off => simp [performAccess, (wellFormed_read_iff bits off).1 ha]
  | write bits off v =>
    simpa [performAccess, (wellFormed_write_iff bits off v).1 ha] using hostWrite_next off v s
  | reset => exact ⟨_, rfl⟩

/-- Every access the block does not define is refused. -/
theorem performAccess_of_not_wellFormed {a : HostAccess} (s : State) (ha : a.wellFormed = false) :
    ∃ r, performAccess a s = .refused r := by
  cases a with
  | read bits off =>
    have hne : accessRefusal bits off ≠ none := by simp [← wellFormed_read_iff, ha]
    obtain ⟨r, hr⟩ := Option.ne_none_iff_exists'.1 hne
    exact ⟨r, by simp [performAccess, hr]⟩
  | write bits off v =>
    have hne : accessRefusal bits off ≠ none := by simp [← wellFormed_write_iff bits off v, ha]
    obtain ⟨r, hr⟩ := Option.ne_none_iff_exists'.1 hne
    exact ⟨r, by simp [performAccess, hr]⟩
  | reset => cases ha

/-! ## Accesses at a defined offset -/

/-- The word the host reads depends on no field of the host port. -/
@[simp] theorem hostRead_host (off : Nat) (s : State) (q : List HostAccess) (d : Option Word) :
    hostRead off { s with hostQueue := q, hostData := d } = hostRead off s := by
  unfold hostRead
  split
  · exact readReg_host _ s q d
  · rfl

/-- A read at a defined offset, register or reserved slot, answers the word there and changes nothing else. -/
theorem step_read_at {s : State} {off : Nat} {rest : List HostAccess} (h8 : off % 8 = 0) (hoff : off < 0x100)
    (h : s.hostQueue = .read 64 off :: rest) :
    step s = .next { s with hostQueue := rest, hostData := some (hostRead off s) } := by
  rw [step_access h]
  simp only [performAccess, accessRefusal_eq_none.2 ⟨rfl, hoff, h8⟩, hostRead_host]

/-- A write at a defined offset is the host port's write of it. -/
theorem step_write_at {s : State} {off : Nat} {v : Word} {rest : List HostAccess} (h8 : off % 8 = 0)
    (hoff : off < 0x100) (h : s.hostQueue = .write 64 off v :: rest) :
    step s = hostWrite off v { s with hostQueue := rest, hostData := none } := by
  rw [step_access h]
  simp only [performAccess, accessRefusal_eq_none.2 ⟨rfl, hoff, h8⟩]

/-- The slots from 0xC0 to 0xF8 hold no register (20_memory.md R83). -/
theorem regAt_reserved {k : Nat} (hk : k < 8) : regAt (0xC0 + 8 * k) = none := by
  interval_cases k <;> rfl

/-- Where there is no register the host reads 0. -/
theorem hostRead_of_regAt_none {off : Nat} (s : State) (h : regAt off = none) : hostRead off s = 0 := by
  simp only [hostRead, h]

/-- Where there is no register a host write changes nothing. -/
theorem hostWrite_of_regAt_none {off : Nat} (v : Word) (s : State) (h : regAt off = none) :
    hostWrite off v s = .next s := by
  simp only [hostWrite, h]

/-! ## Reserved bits -/

/-- A register of the FSER unit reads 0 where its word does, present or not. -/
theorem State.fserWord_reserved (s : State) {w m : Word} (h : w &&& m = 0) : s.fserWord w &&& m = 0 := by
  unfold State.fserWord
  split
  · exact h
  · exact BitVec.zero_and

/-- CAPS reads 0 outside its fields (10_state.md R34). -/
theorem capsWord_reserved (p : Params) : capsWord p &&& ~~~ 0x7 = 0 := by
  rcases p with ⟨_ | _, _ | _ | _⟩ <;> decide

/-- A word all of whose bits are defined has no reserved bit. -/
theorem and_not_ones (w : Word) : w &&& ~~~ 0xFFFFFFFFFFFFFFFF = 0 := by
  rw [show (~~~ 0xFFFFFFFFFFFFFFFF : Word) = 0 by decide]
  exact BitVec.and_zero

/-- Reserved bits read 0 (10_state.md R34 to R64). -/
theorem readReg_reserved (r : Reg) (s : State) : readReg r s &&& ~~~ definedMask r = 0 := by
  cases r with
  | caps => exact capsWord_reserved _
  | cmd => exact BitVec.zero_and
  | status => exact Status.word_reserved _
  | cfg => exact Cfg.word_reserved _
  | frameId => exact setWidth_reserved 29 _
  | frameCtl => exact FrameCtl.word_reserved _
  | txLen | rxLen => exact s.fserWord_reserved (setWidth_reserved 8 _)
  | value | payloadIn | payloadOut | resultWord | resultValue | tsIn | frameData | frameTs => exact and_not_ones _
  | txLine0 | txLine1 | txLine2 | txLine3 | rxLine0 | rxLine1 | rxLine2 | rxLine3 =>
    exact s.fserWord_reserved (and_not_ones _)

/-! ## Masked writes -/

/-- A write that stores no bit leaves the word. -/
theorem masked_zero (v w : Word) : (v &&& 0) ||| (w &&& ~~~ 0) = w :=
  (congrArg₂ (· ||| ·) BitVec.and_zero BitVec.and_allOnes).trans BitVec.zero_or

/-- Where the bits that are not stored are 0, the word after the write is the written value's stored bits. -/
theorem masked_of_reserved {m w : Word} (v : Word) (h : w &&& ~~~ m = 0) : (v &&& m) ||| (w &&& ~~~ m) = v &&& m := by
  rw [h]
  exact BitVec.or_zero

/-- A write that stores every bit leaves nothing of the word before it. -/
theorem masked_ones (v w : Word) : (v &&& 0xFFFFFFFFFFFFFFFF) ||| (w &&& ~~~ 0xFFFFFFFFFFFFFFFF) = v :=
  (masked_of_reserved v (and_not_ones w)).trans BitVec.and_allOnes

/-- A field of the low n bits, as the host reads it back. -/
theorem setWidth_extractLsb'_eq_and (n : Nat) (v : Word) : (v.extractLsb' 0 n).setWidth 64 = v &&& lowMask n := by
  apply BitVec.eq_of_getLsbD_eq
  intro i hi
  simp [hi, Bool.and_comm]

/-! ## The register written -/

/-- A host write of a register other than STATUS stores the bits of the register's write mask and leaves its others
(20_memory.md R84). -/
theorem readReg_writeReg_same {r : Reg} (v : Word) (s : State) (hr : r ≠ .status) :
    readReg r (writeReg r v s) = (v &&& writeMask s.params r) ||| (readReg r s &&& ~~~ writeMask s.params r) := by
  cases r with
  | status => exact absurd rfl hr
  | caps | cmd | payloadOut | resultWord | resultValue | txLen | txLine0 | txLine1 | txLine2 | txLine3 =>
    exact (masked_zero _ _).symm
  | value | payloadIn | tsIn | frameData | frameTs => exact (masked_ones _ _).symm
  | cfg => exact (Cfg.word_ofWord v).trans (masked_of_reserved v s.cfg.word_reserved).symm
  | frameId =>
    exact (setWidth_extractLsb'_eq_and 29 v).trans (masked_of_reserved v (setWidth_reserved 29 s.frameId)).symm
  | frameCtl => exact (FrameCtl.word_ofWord v).trans (masked_of_reserved v s.frameCtl.word_reserved).symm
  | rxLen =>
    cases hf : s.params.hasFser with
    | false => simp [writeReg, readReg, State.ifFser, State.fserWord, writeMask, hf]
    | true =>
      simp only [writeReg, readReg, State.ifFser, State.fserWord, writeMask, hf, if_true]
      exact (setWidth_extractLsb'_eq_and 8 v).trans (masked_of_reserved v (setWidth_reserved 8 s.rxLen)).symm
  | rxLine0 | rxLine1 | rxLine2 | rxLine3 =>
    cases hf : s.params.hasFser with
    | false => simp [writeReg, readReg, State.ifFser, State.fserWord, writeMask, hf]
    | true => simp only [writeReg, readReg, State.ifFser, State.fserWord, writeMask, hf, if_true, masked_ones]

end Sys2Proof.Machine
end

section
namespace Sys2Proof.Proofs

open Sys2Proof Sys2Proof.Machine

/-- Settles O6: a step with an access pending is that access, which has a next state when it is well formed
(`performAccess_of_wellFormed`) and is refused when it is not (`performAccess_of_not_wellFormed`). -/
theorem undefinedAccessRefused : Obligations.UndefinedAccessRefused := by
  unfold Obligations.UndefinedAccessRefused
  intro s a rest hq
  rw [step_access hq]
  cases ha : a.wellFormed with
  | true =>
    obtain ⟨t, ht⟩ := performAccess_of_wellFormed { s with hostQueue := rest, hostData := none } ha
    simp [ht]
  | false =>
    obtain ⟨r, hr⟩ := performAccess_of_not_wellFormed { s with hostQueue := rest, hostData := none } ha
    simp [hr]

/-- Settles O9: both reads are `step_read_at`, and the second finds the first's word because the word at an offset does
not depend on the host port (`hostRead_host`). -/
theorem hostReadPure : Obligations.HostReadPure := by
  unfold Obligations.HostReadPure
  intro s off rest h8 hoff hq
  refine ⟨step_read_at h8 hoff hq, fun rest' hrest => ?_⟩
  have hagain := step_read_at (s := { s with hostQueue := rest, hostData := some (hostRead off s) }) h8 hoff hrest
  rw [hostRead_host] at hagain
  exact hagain

/-- Settles O16: a reserved slot is a defined offset with no register (`regAt_reserved`). -/
theorem reservedSlots : Obligations.ReservedSlots := by
  unfold Obligations.ReservedSlots
  intro s k rest hk
  have h8 : (0xC0 + 8 * k) % 8 = 0 := by omega
  have hoff : 0xC0 + 8 * k < 0x100 := by omega
  refine ⟨fun hq => ?_, fun v hq => ?_⟩
  · rw [step_read_at h8 hoff hq, hostRead_of_regAt_none s (regAt_reserved hk)]
  · rw [step_write_at h8 hoff hq, hostWrite_of_regAt_none v _ (regAt_reserved hk)]

/-- Settles O10: the step is `writeReg` of the register (`step_write`); the register written is `readReg_writeReg_same`,
or `Status.word_hostWritten` for STATUS, and the others are `readReg_writeReg_of_ne`. -/
theorem hostWriteEffect : Obligations.HostWriteEffect := by
  unfold Obligations.HostWriteEffect
  intro s r v rest hcmd hq
  obtain ⟨hparams, hqueue, hdata⟩ := writeReg_frame r v { s with hostQueue := rest, hostData := none }
  refine ⟨_, step_write hcmd hq, hqueue, hdata, hparams, fun r' hne => ?_, fun hstatus => ?_, ?_,
    readReg_reserved r _, rfl⟩
  · rw [readReg_writeReg_of_ne v _ hne, readReg_host]
  · rw [readReg_writeReg_same v _ hstatus, readReg_host]
  · rintro rfl
    exact s.status.word_hostWritten v

end Sys2Proof.Proofs
end

/-! # The family 30_encoding.md: the data type table (R115, R140, R141) and RESULT_WORD (R164) -/

section
namespace Sys2Proof.Machine

/-! ## The data type table -/

/-- S8, S16, S32 and S64 are the signed integer types (40_codec_datapath.md R141). -/
theorem isSigned_iff (t : DataType) : isSigned t = true ↔ t ∈ [.s8, .s16, .s32, .s64] := by
  cases t <;> simp [isSigned]

/-- The model's code, width and class of a data type are its row of the table (30_encoding.md R115). -/
theorem typeRow_eq (t : DataType) :
    typeRow t = { code := typeCode t, width := typeWidth t, signed := isSigned t, float := isFloat t } := by
  cases t <;> rfl

/-- Every type is at least one bit wide (40_codec_datapath.md R140). -/
theorem typeWidth_pos (t : DataType) : 0 < typeWidth t := by cases t <;> decide

/-- No type is wider than the word (40_codec_datapath.md R140). -/
theorem typeWidth_le (t : DataType) : typeWidth t ≤ 64 := by cases t <;> decide

/-! ## The sign extension -/

/-- On a word of n bits, adding 2^64 − 2^n when bit n − 1 is set is the sign extension of its low n bits
(00_scope.md R10). -/
theorem sext64_eq_signExtend {n : Nat} {w : Word} (hpos : 0 < n) (hn : n ≤ 64) (hw : w.toNat < 2 ^ n) :
    sext64 w n = (w.setWidth n).signExtend 64 := by
  have hsign : (w.setWidth n).msb = w.getLsbD (n - 1) := by simp [BitVec.msb_setWidth, hpos]
  have hcut : ((w.setWidth n).setWidth 64).toNat = w.toNat := by
    rw [BitVec.toNat_setWidth, BitVec.toNat_setWidth, Nat.mod_eq_of_lt hw, Nat.mod_eq_of_lt w.isLt]
  have hle : 2 ^ n ≤ 2 ^ 64 := Nat.pow_le_pow_right (by decide) hn
  have hones : (BitVec.ofNat 64 (2 ^ 64 - 2 ^ n)).toNat = 2 ^ 64 - 2 ^ n := by
    rw [BitVec.toNat_ofNat, Nat.mod_eq_of_lt (by omega)]
  apply BitVec.eq_of_toNat_eq
  rw [BitVec.toNat_signExtend, hsign, hcut, sext64]
  split
  · rw [BitVec.toNat_add_of_lt (by omega), hones]
  · rfl

end Sys2Proof.Machine
end

section
namespace Sys2Proof.Proofs

open Sys2Proof Sys2Proof.Machine

/-- Settles O32: the table is `typeRow_eq`, read back from a code by `dataTypeOf_eq_some`; the codes of no type are
`dataTypeOf_eq_none`; and a signed type's RESULT_WORD is `sext64_eq_signExtend`. -/
theorem resultWordExtension : Obligations.ResultWordExtension := by
  unfold Obligations.ResultWordExtension
  refine ⟨fun t => ?_, fun c hc => dataTypeOf_eq_none.2 hc, fun t w hw => ?_⟩
  · rw [typeRow_eq]
    exact ⟨dataTypeOf_eq_some.2 rfl, rfl, rfl, rfl, rfl⟩
  · rw [typeRow_eq] at hw ⊢
    simp only [resultWordOf, isSigned_iff, sext64_eq_signExtend (typeWidth_pos t) (typeWidth_le t) hw]

end Sys2Proof.Proofs
end

/-! # The family 40_codec_datapath.md: the field check (R142), placement and extraction (R152 to R161), and the values
(R148, R165, R166) -/

section
namespace Sys2Proof.Machine

/-! ## The field check -/

/-- A codec command whose field check fails raises what the check answers (40_codec_datapath.md R142). -/
theorem exec_of_checkSpec_error {i : Instr} {s : State} {e : Raised} (hi : isCodecCommand i = true)
    (h : checkSpec s.cfg = .error e) : exec i s = .next (s.raise (opcodeOf i) e) := by
  have henc : encodeWord s.params.motoSwap s.cfg s.value = .error e := by simp only [encodeWord, h]
  have hdec (p : Word) : decodeInto p s = .error e := by simp only [decodeInto, decodeWord, h]
  cases i with
  | encode => simp only [exec, execEncode, henc, State.finish_error]
  | decode => simp only [exec, execDecode, hdec, State.finish_error]
  | encodeFrame => simp only [exec, execEncodeFrame, henc, State.finish_error]
  | decodeFrame => simp only [exec, execDecodeFrame, hdec, State.finish_error]
  | frameSerialize => cases hi
  | frameParse => cases hi

/-- An encode raises what the field check answers, or VALUE_NOT_FINITE after it. -/
theorem encodeWord_error {m : MotoSwap} {c : Cfg} {x : Word} {e : Raised} (h : encodeWord m c x = .error e) :
    checkSpec c = .error e ∨ e.code = .valueNotFinite := by
  unfold encodeWord at h
  split at h
  · cases h
    exact .inl ‹_›
  · rename_i f _
    unfold storedWord at h
    cases hw : typeWord f.dtype x with
    | ok w => simp [hw] at h
    | error e' =>
      obtain rfl : e' = e := by simpa [hw] using h
      obtain ⟨_, ⟨_, rfl⟩ | ⟨_, rfl⟩⟩ := typeWord_error hw <;> exact .inr rfl

/-- A decode raises nothing but what the field check answers. -/
theorem decodeWord_error {m : MotoSwap} {c : Cfg} {p : Word} {e : Raised} (h : decodeWord m c p = .error e) :
    checkSpec c = .error e := by
  unfold decodeWord at h
  split at h
  · cases h
    assumption
  · cases h

/-- INVALID_FIELD_SPEC is number 1, and no other error is (60_exceptions.md R271). -/
theorem ErrorCode.number_eq_one {c : ErrorCode} : c.number = 1 ↔ c = .invalidFieldSpec := by cases c <;> decide

/-- After a codec command, CODE is INVALID_FIELD_SPEC only where the field check failed (60_exceptions.md R273). -/
theorem checkSpec_error_of_code {i : Instr} {s t : State} (hi : isCodecCommand i = true) (h : exec i s = .next t)
    (hcode : t.status.code = 1) : ∃ e, checkSpec s.cfg = .error e := by
  have hdone {u : State} {op : Byte} (hu : (u.complete op).status.code = 1) : False := absurd hu (by simp [Status.completed])
  have henc {e : Raised} {op : Byte} (he : encodeWord s.params.motoSwap s.cfg s.value = .error e)
      (hu : (s.raise op e).status.code = 1) : ∃ e, checkSpec s.cfg = .error e := by
    rcases encodeWord_error he with hc | hc
    · exact ⟨e, hc⟩
    · rw [ErrorCode.number_eq_one.1 hu] at hc
      cases hc
  cases i with
  | encode =>
    rcases execEncode_cases h with ⟨_, _, rfl⟩ | ⟨e, he, rfl⟩
    · exact (hdone hcode).elim
    · exact henc he hcode
  | decode =>
    rcases execDecode_cases h with ⟨_, _, _, rfl⟩ | ⟨e, he, rfl⟩
    · exact (hdone hcode).elim
    · exact ⟨e, decodeWord_error he⟩
  | encodeFrame =>
    rcases execEncodeFrame_cases h with ⟨_, _, _, rfl⟩ | ⟨e, he, rfl⟩ | ⟨_, _, _, rfl⟩
    · exact (hdone hcode).elim
    · exact henc he hcode
    · exact absurd hcode (by decide : ErrorCode.frameInvalid.number ≠ 1)
  | decodeFrame =>
    rcases execDecodeFrame_cases h with ⟨_, _, _, rfl⟩ | ⟨e, he, rfl⟩
    · exact (hdone hcode).elim
    · exact ⟨e, decodeWord_error he⟩
  | frameSerialize => cases hi
  | frameParse => cases hi

/-- Every command answers a next state (60_exceptions.md R270). -/
theorem exec_next (i : Instr) (s : State) : ∃ t, exec i s = .next t := by
  obtain ⟨r, hr⟩ := exec_eq_finish i s
  exact hr ▸ s.finish_next _ r

/-! ## Placement and extraction, in arithmetic -/

/-- Masking with the low n bits is the remainder by 2^n. -/
theorem toNat_and_lowMask (w : Word) {n : Nat} (hn : n ≤ 64) : (w &&& lowMask n).toNat = w.toNat % 2 ^ n := by
  have hle : 2 ^ n ≤ 2 ^ 64 := Nat.pow_le_pow_right (by decide) hn
  have hmask : (lowMask n).toNat = 2 ^ n - 1 := by
    rw [lowMask, BitVec.toNat_ofNat, Nat.mod_eq_of_lt (by omega)]
  rw [BitVec.toNat_and, hmask, Nat.and_two_pow_sub_one_eq_mod]

/-- A low mask without its lowest bits is the low mask of the bits that remain. -/
theorem lowMask_ushiftRight {n : Nat} (hn : n ≤ 64) (a : Nat) : lowMask n >>> a = lowMask (n - a) := by
  apply BitVec.eq_of_getLsbD_eq
  intro i hi
  simp only [BitVec.getLsbD_ushiftRight, lowMask_getLsbD, ← Bool.decide_and, decide_eq_decide]
  omega

/-- The effective start, with the width of the data type table (40_codec_datapath.md R152). -/
theorem effStart_eq (f : FieldSpec) :
    effStart f
      = match f.endian with
        | .intel => (f.start : ℤ)
        | .motorola => (f.start : ℤ) + 8 - (typeRow f.dtype).width := by
  rw [effStart, typeRow_eq]
  cases f.endian with
  | intel => rfl
  | motorola => exact (add_sub_assoc _ _ _).symm

/-- The truncated length, over the integers (40_codec_datapath.md R153). -/
theorem truncLen_cast {f : FieldSpec} (h : f.Legal) : (truncLen f : ℤ) = min (f.len : ℤ) (64 - f.start) := by
  obtain ⟨hstart, _, _⟩ := h
  simp only [truncLen]
  omega

/-- Placement at a start that is not negative (40_codec_datapath.md R155). -/
theorem place_toNat_of_nonneg {f : FieldSpec} (w : Word) (h : f.Legal) (hs : 0 ≤ effStart f) :
    (place f w).toNat = w.toNat % 2 ^ truncLen f * 2 ^ (effStart f).toNat % 2 ^ 64 := by
  rw [place, if_pos hs, BitVec.toNat_shiftLeft, fieldMask, toNat_and_lowMask w (truncLen_bounds h).2, Nat.shiftLeft_eq]

/-- Placement at a negative start (40_codec_datapath.md R156). -/
theorem place_toNat_of_neg {f : FieldSpec} (w : Word) (h : f.Legal) (hs : effStart f < 0) :
    (place f w).toNat = w.toNat % 2 ^ truncLen f / 2 ^ (-effStart f).toNat := by
  rw [place, if_neg (by omega), ← BitVec.ushiftRight_and_distrib, BitVec.toNat_ushiftRight, fieldMask,
    toNat_and_lowMask w (truncLen_bounds h).2, Nat.shiftRight_eq_div_pow]

/-- Extraction at a start that is not negative (40_codec_datapath.md R160). -/
theorem extract_toNat_of_nonneg {f : FieldSpec} (p : Word) (h : f.Legal) (hs : 0 ≤ effStart f) :
    (extract f p).toNat = p.toNat / 2 ^ (effStart f).toNat % 2 ^ truncLen f := by
  rw [extract, if_pos hs, fieldMask, toNat_and_lowMask _ (truncLen_bounds h).2, BitVec.toNat_ushiftRight,
    Nat.shiftRight_eq_div_pow]

/-- The low n − a bits of a number, moved up by a, stay below 2^n; where a exceeds n there are none. -/
theorem mod_two_pow_mul_lt (p n a : Nat) : p % 2 ^ (n - a) * 2 ^ a < 2 ^ n := by
  rcases le_total a n with ha | ha
  · calc p % 2 ^ (n - a) * 2 ^ a < 2 ^ (n - a) * 2 ^ a :=
          Nat.mul_lt_mul_of_pos_right (Nat.mod_lt _ (Nat.two_pow_pos _)) (Nat.two_pow_pos a)
      _ = 2 ^ n := by rw [← pow_add, Nat.sub_add_cancel ha]
  · simp [Nat.sub_eq_zero_of_le ha, Nat.mod_one]

/-- Extraction at a negative start (40_codec_datapath.md R161). -/
theorem extract_toNat_of_neg {f : FieldSpec} (p : Word) (h : f.Legal) (hs : effStart f < 0) :
    (extract f p).toNat = p.toNat % 2 ^ (truncLen f - (-effStart f).toNat) * 2 ^ (-effStart f).toNat := by
  have hlen := (truncLen_bounds h).2
  have hlt : p.toNat % 2 ^ (truncLen f - (-effStart f).toNat) * 2 ^ (-effStart f).toNat < 2 ^ 64 :=
    (mod_two_pow_mul_lt _ _ _).trans_le (Nat.pow_le_pow_right (by decide) hlen)
  rw [extract, if_neg (by omega), fieldMask, lowMask_ushiftRight hlen, BitVec.toNat_shiftLeft,
    toNat_and_lowMask p (by omega), Nat.shiftLeft_eq, Nat.mod_eq_of_lt hlt]

/-- A field that lies wholly below bit 0 places nothing. -/
theorem place_eq_zero {f : FieldSpec} (w : Word) (h : f.Legal) (hs : effStart f ≤ -(truncLen f : ℤ)) : place f w = 0 := by
  have hpos := (truncLen_bounds h).1
  apply BitVec.eq_of_toNat_eq
  rw [place_toNat_of_neg w h (by omega)]
  exact Nat.div_eq_of_lt ((Nat.mod_lt _ (Nat.two_pow_pos _)).trans_le (Nat.pow_le_pow_right (by decide) (by omega)))

/-- A field that lies wholly below bit 0 extracts nothing. -/
theorem extract_eq_zero {f : FieldSpec} (p : Word) (h : f.Legal) (hs : effStart f ≤ -(truncLen f : ℤ)) :
    extract f p = 0 := by
  have hpos := (truncLen_bounds h).1
  have hnone : truncLen f - (-effStart f).toNat = 0 := by omega
  apply BitVec.eq_of_toNat_eq
  rw [extract_toNat_of_neg p h (by omega), hnone]
  simp [Nat.mod_one]

/-! ## NaN patterns -/

/-- Bit vectors joined are the upper one times a power of two plus the lower one. -/
theorem toNat_append_eq_add {m n : Nat} (x : BitVec m) (y : BitVec n) : (x ++ y).toNat = x.toNat * 2 ^ n + y.toNat := by
  rw [BitVec.toNat_append, ← Nat.shiftLeft_add_eq_or_of_lt y.isLt, Nat.shiftLeft_eq]

/-- The one-bit field at bit i of a word. -/
theorem toNat_extractLsb'_one (x : Word) (i : Nat) : (x.extractLsb' i 1).toNat = if x.getLsbD i then 1 else 0 := by
  rw [BitVec.extractLsb'_toNat, Nat.shiftRight_eq_div_pow, BitVec.getLsbD, Nat.testBit_eq_decide_div_mod_eq]
  rcases Nat.mod_two_eq_zero_or_one (x.toNat / 2 ^ i) with h | h <;> simp [h]

/-- The narrowed NaN, field by field (40_codec_datapath.md R148). -/
theorem nan64to32_eq (x : Word) :
    nan64to32 x
      = ((0 : BitVec 32) ++ x.extractLsb' 63 1 ++ (0xFF : BitVec 8) ++ (x.extractLsb' 29 23 ||| 0x400000) : Word) := by
  have hfrac : (x.extractLsb' 29 23).setWidth 64 ||| 0x400000 = (x.extractLsb' 29 23 ||| 0x400000).setWidth 64 := by
    rw [BitVec.setWidth_or]
    rfl
  rw [nan64to32, hfrac]
  generalize x.extractLsb' 29 23 ||| 0x400000 = g
  have hlt := g.isLt
  apply BitVec.eq_of_toNat_eq
  rw [toNat_append_eq_add, toNat_append_eq_add, toNat_append_eq_add, toNat_extractLsb'_one, BitVec.toNat_add,
    BitVec.toNat_setWidth]
  cases x.getLsbD 63 <;> simp <;> omega

/-- The fraction of a widened NaN has 52 bits: cutting it to them loses nothing. -/
theorem setWidth_quiet_fraction (g : BitVec 23) :
    g.setWidth 64 <<< 29 ||| (0x8000000000000 : Word) = (g.setWidth 52 <<< 29 ||| (1 : BitVec 52) <<< 51).setWidth 64 := by
  have hquiet : ((1 : BitVec 52) <<< 51).setWidth 64 = 0x8000000000000 := by decide
  have hmoved : (g.setWidth 52 <<< 29).setWidth 64 = g.setWidth 64 <<< 29 := by
    have hlt := g.isLt
    apply BitVec.eq_of_toNat_eq
    simp only [BitVec.toNat_setWidth, BitVec.toNat_shiftLeft, Nat.shiftLeft_eq]
    omega
  rw [BitVec.setWidth_or, hquiet, hmoved]

/-- The widened NaN, field by field (40_codec_datapath.md R166). -/
theorem widen32_of_nan {w : Word} (h : binary32.isNaN w.toNat = true) :
    widen32 w
      = (w.extractLsb' 31 1 ++ (0x7FF : BitVec 11)
          ++ ((w.extractLsb' 0 23).setWidth 52 <<< 29 ||| (1 : BitVec 52) <<< 51) : Word) := by
  rw [widen32, if_pos h, setWidth_quiet_fraction]
  generalize (w.extractLsb' 0 23).setWidth 52 <<< 29 ||| (1 : BitVec 52) <<< 51 = g
  have hlt := g.isLt
  apply BitVec.eq_of_toNat_eq
  rw [toNat_append_eq_add, toNat_append_eq_add, toNat_extractLsb'_one, BitVec.toNat_add, BitVec.toNat_setWidth]
  cases w.getLsbD 31 <;> simp <;> omega

/-! ## Encodings as integers

An encoding without its sign bit is the number d·2^F + R of a significand R at the scale d, R below the hidden one only at
scale 0; its magnitude is then R·2^(minExp + d). A significand may also be 2^(F+1), the carry of a rounding. -/

/-- The exponent of a format's subnormals, which is the least there is (00_scope.md R17). -/
def Format.minExp (f : Format) : ℤ := 1 - f.bias - f.fracBits

/-- The number an encoding denotes, without its sign (00_scope.md R17). -/
def Format.magnitude (f : Format) (b : Nat) : ℚ := (f.exactOf b).mant * 2 ^ (f.exactOf b).exp

/-- The factor of a sign bit, (−1)^sign (00_scope.md R17). -/
def signFactor (neg : Bool) : ℚ := if neg then -1 else 1

theorem abs_signFactor (neg : Bool) : |signFactor neg| = 1 := by cases neg <;> simp [signFactor]

theorem signFactor_of_ne {neg neg' : Bool} (h : neg' ≠ neg) : signFactor neg' = -signFactor neg := by
  revert h
  cases neg <;> cases neg' <;> simp [signFactor]

/-- The number a binary64 pattern denotes is its magnitude with its sign. -/
theorem real64_eq_magnitude (x : Word) :
    real64 x = signFactor (binary64.signOf x.toNat) * binary64.magnitude x.toNat := real64_eq x

theorem Format.magnitude_nonneg (f : Format) (b : Nat) : 0 ≤ f.magnitude b := by
  unfold Format.magnitude
  positivity

/-- The magnitude of an encoding with exponent field E and fraction g. -/
theorem Format.magnitude_fields (f : Format) {E g : Nat} (hE : E < 2 ^ f.expBits) (hg : g < 2 ^ f.fracBits) :
    f.magnitude (E * 2 ^ f.fracBits + g)
      = ((if E = 0 then g else 2 ^ f.fracBits + g : ℕ) : ℚ) * 2 ^ (f.minExp + ((max E 1 - 1 : ℕ) : ℤ)) := by
  have hexp : f.expOf (E * 2 ^ f.fracBits + g) = E := by
    rw [Format.expOf, mul_comm, Nat.mul_add_div (Nat.two_pow_pos _), Nat.div_eq_of_lt hg, add_zero, Nat.mod_eq_of_lt hE]
  have hfrac : f.fracOf (E * 2 ^ f.fracBits + g) = g := by
    rw [Format.fracOf, mul_comm, Nat.mul_add_mod, Nat.mod_eq_of_lt hg]
  have hmin : (max E 1 : ℤ) - f.bias - f.fracBits = f.minExp + ((max E 1 - 1 : ℕ) : ℤ) := by
    rw [Format.minExp]
    omega
  rw [Format.magnitude, Format.exactOf, hexp, hfrac]
  simp only [hmin]

/-- The magnitude of d·2^F + R, for a carried significand too. -/
theorem Format.magnitude_scaled (f : Format) {d R : Nat} (hd : d = 0 ∨ 2 ^ f.fracBits ≤ R) (hR : R ≤ 2 ^ (f.fracBits + 1))
    (hfin : d * 2 ^ f.fracBits + R < f.expOnes * 2 ^ f.fracBits) :
    f.magnitude (d * 2 ^ f.fracBits + R) = R * 2 ^ (f.minExp + (d : ℤ)) := by
  have htwo : 2 ^ (f.fracBits + 1) = 2 ^ f.fracBits + 2 ^ f.fracBits := by ring
  have hpos := Nat.two_pow_pos f.fracBits
  have hmax {E : Nat} (hE : E * 2 ^ f.fracBits ≤ d * 2 ^ f.fracBits + R) : E < 2 ^ f.expBits :=
    (Nat.lt_of_mul_lt_mul_right (hE.trans_lt hfin)).trans_le (Nat.sub_le _ _)
  by_cases hsub : R < 2 ^ f.fracBits
  · obtain rfl : d = 0 := by omega
    rw [f.magnitude_fields (hmax (by omega)) hsub]
    simp
  · by_cases hcarry : R < 2 ^ (f.fracBits + 1)
    · have hfields : d * 2 ^ f.fracBits + R = (d + 1) * 2 ^ f.fracBits + (R - 2 ^ f.fracBits) := by
        rw [add_mul]
        omega
      rw [hfields, f.magnitude_fields (hmax (by omega)) (by omega), if_neg (by omega), Nat.add_sub_cancel' (by omega)]
      simp
    · have hfields : d * 2 ^ f.fracBits + R = (d + 2) * 2 ^ f.fracBits + 0 := by
        rw [add_mul]
        omega
      have hscale : f.minExp + ((max (d + 2) 1 - 1 : ℕ) : ℤ) = f.minExp + (d : ℤ) + 1 := by omega
      have hR' : R = 2 ^ f.fracBits * 2 := by omega
      rw [hfields, f.magnitude_fields (hmax (by omega)) hpos, if_neg (by omega), hscale, zpow_add_one₀ (by norm_num), hR']
      push_cast
      ring

/-- The significand of an encoding has at most F + 1 bits. -/
theorem Format.exactOf_mant_lt (f : Format) (b : Nat) : (f.exactOf b).mant < 2 ^ (f.fracBits + 1) := by
  have hfrac : f.fracOf b < 2 ^ f.fracBits := Nat.mod_lt _ (Nat.two_pow_pos _)
  simp only [Format.exactOf, pow_succ]
  split <;> omega

/-- The magnitude of any encoding is a significand of at most F + 1 bits at some scale. -/
theorem Format.exists_magnitude (f : Format) (b : Nat) :
    ∃ (M : Nat) (d : Nat), M < 2 ^ (f.fracBits + 1) ∧ f.magnitude b = M * 2 ^ (f.minExp + (d : ℤ)) := by
  have hexp : (f.exactOf b).exp = f.minExp + ((max (f.expOf b) 1 - 1 : ℕ) : ℤ) := by
    simp only [Format.exactOf, Format.minExp]
    omega
  exact ⟨(f.exactOf b).mant, max (f.expOf b) 1 - 1, f.exactOf_mant_lt b, by rw [Format.magnitude, hexp]⟩

/-! ## Nearest, ties to even -/

/-- Rounding `x` to `r` is no worse than rounding it to `v`: `r` is as near, and where `v` is as near too, they are equal or
`r` is the even one. -/
def NearestEven (even : Prop) (x r v : ℚ) : Prop := |x - r| ≤ |x - v| ∧ (|x - r| = |x - v| → v = r ∨ even)

theorem NearestEven.mul_right {even : Prop} {x r v c : ℚ} (h : NearestEven even x r v) (hc : 0 < c) :
    NearestEven even (x * c) (r * c) (v * c) := by
  have hscaled (y : ℚ) : |x * c - y * c| = |x - y| * c := by rw [← sub_mul, abs_mul, abs_of_pos hc]
  obtain ⟨hnear, htie⟩ := h
  rw [NearestEven, hscaled, hscaled]
  exact ⟨mul_le_mul_of_nonneg_right hnear hc.le,
    fun heq => (htie (mul_right_cancel₀ hc.ne' heq)).imp_left (fun hv => by rw [hv])⟩

/-- A rounding of magnitudes is one of signed numbers: a number of the other sign is farther away. -/
theorem NearestEven.signed {even : Prop} {x r v : ℚ} (h : NearestEven even x r v) (neg neg' : Bool) (hx : 0 ≤ x)
    (hv : 0 ≤ v) (h0 : x = 0 → r = 0) :
    NearestEven even (signFactor neg * x) (signFactor neg * r) (signFactor neg' * v) := by
  have habs (y : ℚ) : |signFactor neg * x - signFactor neg * y| = |x - y| := by
    rw [← mul_sub, abs_mul, abs_signFactor, one_mul]
  obtain ⟨hnear, htie⟩ := h
  by_cases hsame : neg' = neg
  · subst hsame
    rw [NearestEven, habs, habs]
    exact ⟨hnear, fun heq => (htie heq).imp_left (fun hvr => by rw [hvr])⟩
  · have hfar : |x - v| ≤ x + v := abs_le.2 ⟨by linarith, by linarith⟩
    rw [signFactor_of_ne hsame, neg_mul_comm, NearestEven, habs, habs, sub_neg_eq_add, abs_of_nonneg (add_nonneg hx hv)]
    refine ⟨hnear.trans hfar, fun heq => ?_⟩
    have hzero : x = 0 ∨ v = 0 := by
      rcases abs_cases (x - v) with ⟨habs, _⟩ | ⟨habs, _⟩
      · exact .inr (by linarith)
      · exact .inl (by linarith)
    rcases hzero with rfl | rfl
    · obtain rfl := h0 rfl
      rw [sub_self, abs_zero] at heq
      exact .inl (by rw [show v = 0 by linarith, neg_zero])
    · rw [neg_zero]
      exact (htie (by linarith)).imp_left (fun hr => by rw [hr])

/-! ## Rounding to an integer -/

theorem roundEven_zero (k : ℤ) : roundEven 0 k = 0 := by simp [roundEven]

/-- `rte` is within half a unit, and even where it is exactly half a unit away (40_codec_datapath.md R170). -/
theorem roundEven_half (m : Nat) (k : ℤ) :
    |(m : ℚ) * 2 ^ k - roundEven m k| ≤ 1 / 2
      ∧ (|(m : ℚ) * 2 ^ k - roundEven m k| = 1 / 2 → roundEven m k % 2 = 0) := by
  rcases le_or_gt 0 k with hk | hk
  · obtain ⟨j, rfl⟩ := Int.eq_ofNat_of_zero_le hk
    have hexact : (m : ℚ) * 2 ^ (j : ℤ) - roundEven m j = 0 := by
      rw [roundEven_nonneg m hk]
      simp
    rw [hexact]
    norm_num
  · obtain ⟨j, rfl⟩ := Int.exists_eq_neg_ofNat hk.le
    obtain ⟨hup, hdown, heven⟩ := roundEven_neg m j (by omega)
    have hunit : (0 : ℚ) < 2 ^ j := by positivity
    have hdist : (m : ℚ) * 2 ^ (-(j : ℤ)) - roundEven m (-(j : ℤ))
        = ((m : ℚ) - roundEven m (-(j : ℤ)) * 2 ^ j) / 2 ^ j := by
      rw [zpow_neg, zpow_natCast]
      field_simp
    generalize roundEven m (-(j : ℤ)) = r at *
    have hup' : 2 * ((r : ℚ) * 2 ^ j) ≤ 2 * m + 2 ^ j := by exact_mod_cast hup
    have hdown' : 2 * (m : ℚ) ≤ 2 * (r * 2 ^ j) + 2 ^ j := by exact_mod_cast hdown
    rw [hdist, abs_div, abs_of_pos hunit]
    refine ⟨?_, fun htie => heven ?_⟩
    · rw [div_le_iff₀ hunit, abs_le]
      constructor <;> linarith
    · rw [div_eq_iff hunit.ne'] at htie
      rcases abs_cases ((m : ℚ) - r * 2 ^ j) with ⟨habs, _⟩ | ⟨habs, _⟩
      · exact .inr (by exact_mod_cast (by linarith : 2 * (m : ℚ) = 2 * (r * 2 ^ j) + 2 ^ j))
      · exact .inl (by exact_mod_cast (by linarith : 2 * ((r : ℚ) * 2 ^ j) = 2 * m + 2 ^ j))

/-- `rte` is a nearest integer, and of two the even one (40_codec_datapath.md R170). -/
theorem roundEven_nearest (m : Nat) (k : ℤ) (j : Nat) :
    NearestEven (roundEven m k % 2 = 0) (m * 2 ^ k) (roundEven m k) j := by
  obtain ⟨hhalf, heven⟩ := roundEven_half m k
  generalize roundEven m k = r at *
  by_cases hj : j = r
  · subst hj
    exact ⟨le_rfl, fun _ => .inl rfl⟩
  · have hapart : (1 : ℚ) ≤ |(r : ℚ) - j| := by
      have hint : (1 : ℤ) ≤ |(r : ℤ) - j| := Int.one_le_abs (by omega)
      exact_mod_cast hint
    have htri : |(r : ℚ) - j| ≤ |(m : ℚ) * 2 ^ k - r| + |(m : ℚ) * 2 ^ k - j| := by
      rw [abs_sub_comm ((m : ℚ) * 2 ^ k) r]
      exact abs_sub_le _ _ _
    exact ⟨by linarith, fun htie => .inr (heven (by linarith))⟩

/-! ## Rounding to a format -/

/-- The scale of the encoding that m·2^k rounds to: 0 for the subnormals, and one more with each binade. -/
def Format.scale (f : Format) (m : Nat) (k : ℤ) : Nat := ((Nat.log2 m : ℤ) + k - (1 - (f.bias : ℤ))).toNat

/-- The significand that m·2^k rounds to, an integer multiple of the unit 2^(minExp + scale). -/
def Format.significand (f : Format) (m : Nat) (k : ℤ) : Nat := roundEven m (k - (f.minExp + f.scale m k))

/-- A significand has at most F + 1 bits, or it is the carry 2^(F+1). -/
theorem Format.significand_le (f : Format) (m : Nat) (k : ℤ) : f.significand m k ≤ 2 ^ (f.fracBits + 1) := by
  have hlt : m ≤ 2 ^ (Nat.log2 m + 1) := Nat.lt_log2_self.le
  have hunit : k - (f.minExp + f.scale m k) ≤ (f.fracBits : ℤ) - Nat.log2 m := by
    simp only [Format.minExp, Format.scale]
    omega
  refine (roundEven_bounds (a := 0) (by simp) (fun hneg => ?_) (by simp) (fun hnonneg => ?_)).2
  · rw [← pow_add]
    exact hlt.trans (Nat.pow_le_pow_right (by decide) (by omega))
  · refine (Nat.mul_le_mul_right _ hlt).trans ?_
    rw [← pow_add]
    exact Nat.pow_le_pow_right (by decide) (by omega)

/-- From the least normal on, a significand has its hidden one. -/
theorem Format.significand_ge (f : Format) {m : Nat} {k : ℤ} (hm : m ≠ 0) (hnormal : 1 - (f.bias : ℤ) ≤ Nat.log2 m + k) :
    2 ^ f.fracBits ≤ f.significand m k := by
  have hle : 2 ^ Nat.log2 m ≤ m := Nat.log2_self_le hm
  have hlt : m ≤ 2 ^ (Nat.log2 m + 1) := Nat.lt_log2_self.le
  have hunit : k - (f.minExp + f.scale m k) = (f.fracBits : ℤ) - Nat.log2 m := by
    simp only [Format.minExp, Format.scale]
    omega
  refine (roundEven_bounds (b := m * 2 ^ f.fracBits) (fun hneg => ?_) (fun hneg => ?_) (fun hnonneg => ?_)
    (fun hnonneg => ?_)).1
  · rw [← pow_add]
    exact (Nat.pow_le_pow_right (by decide) (by omega)).trans hle
  · rw [mul_assoc]
    exact Nat.le_mul_of_pos_right _ (by positivity)
  · refine le_trans ?_ (Nat.mul_le_mul_right _ hle)
    rw [← pow_add]
    exact Nat.pow_le_pow_right (by decide) (by omega)
  · exact Nat.mul_le_mul_left _ (Nat.pow_le_pow_right (by decide) (by omega))

/-- The encoding of a rounded number is its significand at its scale, the carry of R170 into the next binade being the
carry of this sum; or it is the infinity, of a number at the last binade or above. -/
theorem Format.roundTo_eq (f : Format) {m : Nat} (k : ℤ) (hm : m ≠ 0) :
    f.roundTo m k = f.scale m k * 2 ^ f.fracBits + f.significand m k
      ∨ (f.bias : ℤ) ≤ Nat.log2 m + k ∧ f.roundTo m k = f.expOnes * 2 ^ f.fracBits := by
  rcases f.roundTo_cases k hm with ⟨hsub, hround⟩ | ⟨e, r, hnormal, hr, hround⟩
  · have hscale : f.scale m k = 0 := by
      simp only [Format.scale]
      omega
    left
    rw [hround, Format.significand, hscale, Format.minExp]
    simp
  · have htwo : 2 ^ (f.fracBits + 1) = 2 ^ f.fracBits + 2 ^ f.fracBits := by ring
    have hge := f.significand_ge hm hnormal
    have hunit : f.minExp + f.scale m k = Nat.log2 m + k - f.fracBits := by
      simp only [Format.minExp, Format.scale]
      omega
    have hsig : f.significand m k = roundEven m (k - (Nat.log2 m + k - f.fracBits)) := by rw [Format.significand, hunit]
    rw [hsig] at hge ⊢
    by_cases hinf : (f.bias : ℤ) < e
    · exact .inr ⟨by omega, by rw [hround, if_pos hinf]⟩
    · left
      rw [hround, if_neg hinf]
      rcases hr with ⟨rfl, rfl, _⟩ | ⟨rfl, rfl, hcarry⟩
      · have hE : ((Nat.log2 m : ℤ) + k + f.bias).toNat = f.scale m k + 1 := by
          simp only [Format.scale]
          omega
        rw [hE, add_mul]
        omega
      · have hE : ((Nat.log2 m : ℤ) + k + 1 + f.bias).toNat = f.scale m k + 2 := by
          simp only [Format.scale]
          omega
        rw [add_sub_cancel_right] at hcarry
        rw [hE, hcarry, add_mul]
        omega

/-- Below the last binade, a rounded number is finite. -/
theorem Format.roundTo_lt (f : Format) (hexp : 1 < f.expBits) {m : Nat} {k : ℤ} (h : (Nat.log2 m : ℤ) + k < f.bias) :
    f.roundTo m k < f.expOnes * 2 ^ f.fracBits := by
  have hones : f.expOnes = 2 * f.bias + 1 ∧ 1 ≤ f.bias := by
    obtain ⟨n, hn⟩ : ∃ n, f.expBits = n + 2 := ⟨f.expBits - 2, by omega⟩
    have hpos := Nat.two_pow_pos n
    simp only [Format.expOnes, Format.bias, hn, show n + 2 - 1 = n + 1 by omega, pow_succ]
    omega
  by_cases hm : m = 0
  · subst hm
    simp only [Format.roundTo, if_true]
    exact Nat.mul_pos (by omega) (Nat.two_pow_pos _)
  · rcases f.roundTo_eq k hm with heq | ⟨hge, _⟩
    · have hscale : f.scale m k + 2 < f.expOnes := by
        simp only [Format.scale]
        omega
      calc f.roundTo m k ≤ f.scale m k * 2 ^ f.fracBits + 2 ^ (f.fracBits + 1) := by
            rw [heq]
            exact Nat.add_le_add_left (f.significand_le m k) _
        _ = (f.scale m k + 2) * 2 ^ f.fracBits := by ring
        _ < f.expOnes * 2 ^ f.fracBits := Nat.mul_lt_mul_of_pos_right hscale (Nat.two_pow_pos _)
    · omega

/-- What a rounded encoding denotes: its significand, in its unit. -/
theorem Format.magnitude_roundTo (f : Format) {m : Nat} {k : ℤ} (hfin : f.roundTo m k < f.expOnes * 2 ^ f.fracBits) :
    f.magnitude (f.roundTo m k) = f.significand m k * 2 ^ (f.minExp + (f.scale m k : ℤ)) := by
  by_cases hm : m = 0
  · subst hm
    have h0 := f.magnitude_fields (Nat.two_pow_pos f.expBits) (Nat.two_pow_pos f.fracBits)
    simpa [Format.roundTo, Format.significand, roundEven_zero] using h0
  · rcases f.roundTo_eq k hm with heq | ⟨_, heq⟩
    · rw [heq] at hfin ⊢
      refine f.magnitude_scaled ?_ (f.significand_le m k) hfin
      by_cases hnormal : 1 - (f.bias : ℤ) ≤ Nat.log2 m + k
      · exact .inr (f.significand_ge hm hnormal)
      · left
        simp only [Format.scale]
        omega
    · omega

/-- A finite rounded encoding is even exactly when its significand is. -/
theorem Format.roundTo_mod_two (f : Format) (hfrac : 0 < f.fracBits) {m : Nat} {k : ℤ}
    (hfin : f.roundTo m k < f.expOnes * 2 ^ f.fracBits) : f.roundTo m k % 2 = f.significand m k % 2 := by
  by_cases hm : m = 0
  · subst hm
    simp [Format.roundTo, Format.significand, roundEven_zero]
  · obtain ⟨n, hn⟩ := Nat.exists_eq_succ_of_ne_zero hfrac.ne'
    have heq := (f.roundTo_eq k hm).resolve_right (fun h => by omega)
    rw [heq, hn, pow_succ, ← mul_assoc, Nat.mul_add_mod_self_right]

/-- No multiple of the unit is nearer than the significand, and none as near where the significand is odd. -/
theorem Format.significand_nearest (f : Format) (m : Nat) (k : ℤ) (j : Nat) :
    NearestEven (f.significand m k % 2 = 0) (m * 2 ^ k) (f.significand m k * 2 ^ (f.minExp + (f.scale m k : ℤ)))
      (j * 2 ^ (f.minExp + (f.scale m k : ℤ))) := by
  rw [Format.significand]
  generalize f.minExp + (f.scale m k : ℤ) = q
  have hk : (m : ℚ) * 2 ^ k = m * 2 ^ (k - q) * 2 ^ q := by rw [mul_assoc, ← zpow_add₀ (by norm_num), sub_add_cancel]
  rw [hk]
  exact (roundEven_nearest m (k - q) j).mul_right (by positivity)

/-- A number that is a multiple of its unit is rounded to itself. -/
theorem Format.magnitude_roundTo_exact (f : Format) {m j : Nat} {k : ℤ}
    (hfin : f.roundTo m k < f.expOnes * 2 ^ f.fracBits)
    (h : (m : ℚ) * 2 ^ k = j * 2 ^ (f.minExp + (f.scale m k : ℤ))) : f.magnitude (f.roundTo m k) = m * 2 ^ k := by
  have hnear := (f.significand_nearest m k j).1
  rw [h, sub_self, abs_zero, ← h, ← f.magnitude_roundTo hfin] at hnear
  exact (sub_eq_zero.1 (abs_nonpos_iff.1 hnear)).symm

/-- A number whose last bit does not lie below its unit is rounded to itself. -/
theorem Format.magnitude_roundTo_of_le (f : Format) {m : Nat} {k : ℤ}
    (hfin : f.roundTo m k < f.expOnes * 2 ^ f.fracBits) (h : f.minExp + (f.scale m k : ℤ) ≤ k) :
    f.magnitude (f.roundTo m k) = m * 2 ^ k := by
  obtain ⟨i, hi⟩ := Int.eq_ofNat_of_zero_le (sub_nonneg.2 h)
  apply f.magnitude_roundTo_exact (j := m * 2 ^ i) hfin
  have hk : (2 : ℚ) ^ k = 2 ^ i * 2 ^ (f.minExp + (f.scale m k : ℤ)) := by
    rw [← zpow_natCast, ← hi, ← zpow_add₀ (by norm_num), sub_add_cancel]
  conv_lhs => rw [hk]
  push_cast
  ring

/-- A number rounded above scale 0 is at least the least number of its binade. -/
theorem Format.binade_le (f : Format) {m : Nat} {k : ℤ} (hm : m ≠ 0) (hscale : 0 < f.scale m k) :
    (2 ^ f.fracBits : ℕ) * (2 : ℚ) ^ (f.minExp + (f.scale m k : ℤ)) ≤ m * 2 ^ k := by
  have hle : ((2 ^ Nat.log2 m : ℕ) : ℚ) ≤ m := by exact_mod_cast Nat.log2_self_le hm
  have hunit : (f.fracBits : ℤ) + (f.minExp + f.scale m k) = Nat.log2 m + k := by
    simp only [Format.minExp, Format.scale] at *
    omega
  calc ((2 ^ f.fracBits : ℕ) : ℚ) * 2 ^ (f.minExp + (f.scale m k : ℤ)) = (2 ^ Nat.log2 m : ℕ) * (2 : ℚ) ^ k := by
        push_cast
        rw [← zpow_natCast, ← zpow_natCast, ← zpow_add₀ (by norm_num), ← zpow_add₀ (by norm_num), hunit]
    _ ≤ m * 2 ^ k := mul_le_mul_of_nonneg_right hle (by positivity)

/-- A number with a significand of F + 1 bits at a smaller scale is below the binade. -/
theorem Format.lt_binade (f : Format) {M d s : Nat} (hM : M < 2 ^ (f.fracBits + 1)) (hd : d < s) :
    (M : ℚ) * 2 ^ (f.minExp + (d : ℤ)) < (2 ^ f.fracBits : ℕ) * 2 ^ (f.minExp + (s : ℤ)) := by
  calc (M : ℚ) * 2 ^ (f.minExp + (d : ℤ)) < (2 ^ (f.fracBits + 1) : ℕ) * 2 ^ (f.minExp + (d : ℤ)) :=
        mul_lt_mul_of_pos_right (by exact_mod_cast hM) (by positivity)
    _ = (2 ^ f.fracBits : ℕ) * 2 ^ (f.minExp + (d : ℤ) + 1) := by
        rw [zpow_add_one₀ (by norm_num)]
        push_cast
        ring
    _ ≤ (2 ^ f.fracBits : ℕ) * 2 ^ (f.minExp + (s : ℤ)) :=
        mul_le_mul_of_nonneg_left (zpow_le_zpow_right₀ (by norm_num) (by omega)) (by positivity)

/-- Rounding to nearest, ties to even (40_codec_datapath.md R170), of the magnitudes: no encoding is nearer than the
rounded one, and of two as near the rounded one is even. An encoding of a smaller scale is below the binade, so the least
number of the binade is nearer than it. -/
theorem Format.roundTo_nearest (f : Format) (hfrac : 0 < f.fracBits) {m : Nat} {k : ℤ}
    (hfin : f.roundTo m k < f.expOnes * 2 ^ f.fracBits) (b : Nat) :
    NearestEven (f.roundTo m k % 2 = 0) (m * 2 ^ k) (f.magnitude (f.roundTo m k)) (f.magnitude b) := by
  by_cases hm : m = 0
  · subst hm
    have h0 := f.magnitude_roundTo hfin
    rw [Format.significand, roundEven_zero, Nat.cast_zero, zero_mul] at h0
    exact ⟨by simp [h0], fun _ => .inr (by simp [Format.roundTo])⟩
  · obtain ⟨M, d, hM, hb⟩ := f.exists_magnitude b
    rw [f.roundTo_mod_two hfrac hfin, f.magnitude_roundTo hfin, hb]
    rcases le_or_gt (f.scale m k) d with hd | hd
    · obtain ⟨i, rfl⟩ := Nat.exists_eq_add_of_le hd
      have hgrid : (M : ℚ) * 2 ^ (f.minExp + ((f.scale m k + i : ℕ) : ℤ))
          = (M * 2 ^ i : ℕ) * 2 ^ (f.minExp + (f.scale m k : ℤ)) := by
        push_cast
        rw [← add_assoc, zpow_add₀ (by norm_num), zpow_natCast]
        ring
      rw [hgrid]
      exact f.significand_nearest m k (M * 2 ^ i)
    · have hbinade := f.binade_le hm (Nat.zero_lt_of_lt hd)
      have hbelow := f.lt_binade hM hd
      have hnear := (f.significand_nearest m k (2 ^ f.fracBits)).1
      rw [abs_of_nonneg (sub_nonneg.2 hbinade)] at hnear
      rw [NearestEven, abs_of_nonneg (sub_nonneg.2 (hbelow.le.trans hbinade))]
      exact ⟨by linarith, fun h => by linarith⟩

/-! ## Binary64 patterns with a sign -/

/-- The binary64 of a sign and a finite encoding: what it denotes, its sign bit and its last bit. -/
theorem binary64_signed (neg : Bool) {rest : Nat} (h : rest < binary64.expOnes * 2 ^ binary64.fracBits) :
    Finite64 (BitVec.ofNat 64 (binary64.signed neg rest))
      ∧ real64 (BitVec.ofNat 64 (binary64.signed neg rest)) = signFactor neg * binary64.magnitude rest
      ∧ (BitVec.ofNat 64 (binary64.signed neg rest)).getLsbD 63 = neg
      ∧ ((BitVec.ofNat 64 (binary64.signed neg rest)).getLsbD 0 = false ↔ rest % 2 = 0) := by
  have hlt : rest < 2047 * 2 ^ 52 := h
  have hval : binary64.signed neg rest = (if neg then 2 ^ 63 else 0) + rest := rfl
  have hnat : (BitVec.ofNat 64 (binary64.signed neg rest)).toNat = (if neg then 2 ^ 63 else 0) + rest := by
    rw [BitVec.toNat_ofNat, hval, Nat.mod_eq_of_lt (by cases neg <;> simp <;> omega)]
  have hsign : binary64.signOf ((if neg then 2 ^ 63 else 0) + rest) = neg := by
    rw [Format.signOf, Nat.testBit_eq_decide_div_mod_eq]
    cases neg <;> simp [binary64] <;> omega
  have hexp : binary64.expOf ((if neg then 2 ^ 63 else 0) + rest) = binary64.expOf rest := by
    cases neg <;> simp [Format.expOf, binary64]
    omega
  have hfrac : binary64.fracOf ((if neg then 2 ^ 63 else 0) + rest) = binary64.fracOf rest := by
    cases neg <;> simp [Format.fracOf, binary64]
    omega
  refine ⟨?_, ?_, ?_, ?_⟩
  · rw [finite64_iff, hnat, hexp]
    simp only [Format.expOf, Format.expOnes, binary64]
    omega
  · rw [real64_eq_magnitude, hnat, hsign, Format.magnitude, Format.exactOf, hexp, hfrac]
    rfl
  · rw [BitVec.getLsbD, hnat]
    exact hsign
  · rw [BitVec.getLsbD, hnat, Nat.testBit_eq_decide_div_mod_eq]
    cases neg <;> simp
    omega

/-! ## RESULT_VALUE of an integer -/

/-- The integer a word of n bits stands for in two's complement (00_scope.md R10). -/
theorem signedOf_eq_toInt {n : Nat} {w : Word} (hpos : 0 < n) (hw : w.toNat < 2 ^ n) : signedOf w n = (w.setWidth n).toInt := by
  have hsign : (w.setWidth n).msb = w.getLsbD (n - 1) := by simp [BitVec.msb_setWidth, hpos]
  have hcut : (w.setWidth n).toNat = w.toNat := by rw [BitVec.toNat_setWidth, Nat.mod_eq_of_lt hw]
  rw [BitVec.toInt_eq_msb_cond, hsign, hcut, signedOf]
  simp

/-- RESULT_VALUE of an integer type is the binary64 of the integer its word stands for (40_codec_datapath.md R165). -/
theorem resultValueOf_integer {t : DataType} {w : Word} (ht : t ∉ [DataType.f32, .f64]) :
    resultValueOf t w = toBinary64 (if isSigned t then signedOf w (typeWidth t) else w.toNat) := by
  cases t with
  | f32 | f64 => simp at ht
  | flag | u8 | u16 | u32 | u64 => rfl
  | s8 | s16 | s32 | s64 => rfl

/-- An integer is its magnitude with its sign. -/
theorem intCast_eq_signed_natAbs (n : ℤ) : (n : ℚ) = signFactor (decide (n < 0)) * ((n.natAbs : ℚ) * 2 ^ (0 : ℤ)) := by
  rcases lt_or_ge n 0 with h | h
  · have habs : ((n.natAbs : ℤ) : ℚ) = (-n : ℤ) := by rw [Int.ofNat_natAbs_of_nonpos h.le]
    rw [Int.cast_natCast] at habs
    simp [signFactor, h, habs]
  · have habs : ((n.natAbs : ℤ) : ℚ) = n := by rw [Int.natAbs_of_nonneg h]
    rw [Int.cast_natCast] at habs
    simp [signFactor, not_lt.2 h, habs]

/-- An integer and its magnitude have the same bounds. -/
theorem natAbs_le_two_pow {n : ℤ} {j : Nat} (hn : |n| ≤ 2 ^ j) : n.natAbs ≤ 2 ^ j := by
  rw [Int.abs_eq_natAbs] at hn
  exact_mod_cast hn

/-- A number below 2^j has its leading one below bit j. -/
theorem log2_lt_of_lt {m j : Nat} (hj : j ≠ 0) (h : m < 2 ^ j) : Nat.log2 m < j := by
  rw [Nat.log2_eq_log_two]
  exact Nat.log_lt_of_lt_pow' hj h

/-- An integer of at most 65 bits is far below the largest binary64. -/
theorem roundTo_natAbs_lt {n : ℤ} (hn : |n| ≤ 2 ^ 64) :
    binary64.roundTo n.natAbs 0 < binary64.expOnes * 2 ^ binary64.fracBits := by
  have hbias : binary64.bias = 1023 := rfl
  have hlog : Nat.log2 n.natAbs < 65 :=
    log2_lt_of_lt (by decide) ((natAbs_le_two_pow hn).trans_lt (by decide))
  exact binary64.roundTo_lt (by decide) (by omega)

/-- Up to 2^53 an integer's magnitude is a binary64's (40_codec_datapath.md R165). -/
theorem magnitude_roundTo_natAbs {n : ℤ} (hn : |n| ≤ 2 ^ 53) :
    binary64.magnitude (binary64.roundTo n.natAbs 0) = (n.natAbs : ℚ) * 2 ^ (0 : ℤ) := by
  have hfin := roundTo_natAbs_lt (hn.trans (by norm_num))
  have hle := natAbs_le_two_pow hn
  have hunit : binary64.minExp + (binary64.scale n.natAbs 0 : ℤ) = Nat.log2 n.natAbs - 52 := by
    have hmin : binary64.minExp = -1074 := rfl
    have hbias : binary64.bias = 1023 := rfl
    simp only [Format.scale, hmin, hbias]
    omega
  rcases hle.lt_or_eq with hlt | heq
  · have hlog := log2_lt_of_lt (by decide) hlt
    exact binary64.magnitude_roundTo_of_le hfin (by omega)
  · refine binary64.magnitude_roundTo_exact (j := 2 ^ 52) hfin ?_
    rw [hunit, heq, Nat.log2_two_pow]
    norm_num

/-! ## RESULT_VALUE of F32 -/

/-- A binary32 is a NaN for the model exactly when R17's fields say so. -/
theorem binary32_isNaN (w : Word) : binary32.isNaN w.toNat = true ↔ NaN32 w := by
  have hexp : w.extractLsb' 23 8 = 0xFF ↔ binary32.expOf w.toNat = binary32.expOnes := by
    rw [← BitVec.toNat_inj]
    simp [Format.expOf, Format.expOnes, binary32, Nat.shiftRight_eq_div_pow]
  have hfrac : w.extractLsb' 0 23 ≠ 0 ↔ binary32.fracOf w.toNat ≠ 0 := by
    rw [Ne, ← BitVec.toNat_inj]
    simp [Format.fracOf, binary32]
  rw [NaN32, hexp, hfrac]
  simp [Format.isNaN]

/-- A finite binary32 is widened by encoding its number anew (40_codec_datapath.md R166). -/
theorem widen32_of_finite {w : Word} (h : Finite32 w) :
    widen32 w
      = BitVec.ofNat 64
          (binary64.signed (binary32.exactOf w.toNat).neg
            (binary64.roundTo (binary32.exactOf w.toNat).mant (binary32.exactOf w.toNat).exp)) := by
  have hexp : binary32.expOf w.toNat ≠ binary32.expOnes := by
    intro hc
    apply h.2
    rw [← BitVec.toNat_inj]
    simpa [Format.expOf, Format.expOnes, binary32, Nat.shiftRight_eq_div_pow] using hc
  simp [widen32, Format.isNaN, Format.isInf, hexp]

/-- Every binary32 number is a multiple of the unit its number has in binary64, and far below the largest binary64. -/
theorem magnitude_roundTo_exactOf (w : Word) :
    binary64.roundTo (binary32.exactOf w.toNat).mant (binary32.exactOf w.toNat).exp
        < binary64.expOnes * 2 ^ binary64.fracBits
      ∧ binary64.magnitude (binary64.roundTo (binary32.exactOf w.toNat).mant (binary32.exactOf w.toNat).exp)
        = (binary32.exactOf w.toNat).mant * 2 ^ (binary32.exactOf w.toNat).exp := by
  have hmin : binary64.minExp = -1074 := rfl
  have hbias : binary64.bias = 1023 := rfl
  have hlog : Nat.log2 (binary32.exactOf w.toNat).mant < 24 :=
    log2_lt_of_lt (by decide) (binary32.exactOf_mant_lt w.toNat)
  have hexp : -149 ≤ (binary32.exactOf w.toNat).exp ∧ (binary32.exactOf w.toNat).exp < 128 := by
    have hb : binary32.bias = 127 := rfl
    simp only [Format.exactOf, Format.expOf, hb]
    simp only [binary32]
    omega
  have hfin := binary64.roundTo_lt (by decide)
    (show (Nat.log2 (binary32.exactOf w.toNat).mant : ℤ) + (binary32.exactOf w.toNat).exp < binary64.bias by omega)
  refine ⟨hfin, binary64.magnitude_roundTo_of_le hfin ?_⟩
  simp only [Format.scale, hmin, hbias]
  omega

end Sys2Proof.Machine
end

section
namespace Sys2Proof.Proofs

open Sys2Proof Sys2Proof.Machine

/-- Settles O25: where the field check fails the command raises what it answers (`exec_of_checkSpec_error`); where it
passes, nothing else raises INVALID_FIELD_SPEC (`checkSpec_error_of_code`). -/
theorem fieldCheck : Obligations.FieldCheck := by
  unfold Obligations.FieldCheck
  intro i s hi
  refine ⟨fun ht => exec_of_checkSpec_error hi (checkSpec_type ht),
    fun ht hs => exec_of_checkSpec_error hi (checkSpec_start ht hs),
    fun ht hs hl => exec_of_checkSpec_error hi (checkSpec_len ht hs hl), fun hlegal => ?_⟩
  obtain ⟨t, ht⟩ := exec_next i s
  refine ⟨t, ht, fun hcode => ?_⟩
  obtain ⟨e, he⟩ := checkSpec_error_of_code hi ht hcode
  obtain ⟨_, _, hillegal⟩ := checkSpec_error he
  exact hillegal hlegal

/-- Settles O33: the start and the length as R152 and R153 compute them, and `place` as a number on either side of a start
of 0. -/
theorem placedWord : Obligations.PlacedWord := by
  unfold Obligations.PlacedWord
  refine ⟨fun f hf => ?_, fun f w hf _ => ?_⟩
  · obtain ⟨hlow, hhigh⟩ := effStart_bounds hf
    exact ⟨effStart_eq f, hlow, hhigh, truncLen_cast hf⟩
  · exact ⟨place_toNat_of_nonneg w hf, place_toNat_of_neg w hf, place_eq_zero w hf⟩

/-- Settles O34: `extract` as a number on either side of a start of 0. -/
theorem extractedField : Obligations.ExtractedField := by
  unfold Obligations.ExtractedField
  exact fun f p hf => ⟨extract_toNat_of_nonneg p hf, extract_toNat_of_neg p hf, extract_eq_zero p hf⟩

/-- Settles O42: the zeros and the infinities by evaluation, and a NaN by `nan64to32_eq`. -/
theorem narrowSpecialValues : Obligations.NarrowSpecialValues := by
  unfold Obligations.NarrowSpecialValues
  refine ⟨by decide, by decide, by decide, by decide, fun x hx => ?_⟩
  rw [narrow32, if_pos ((binary64_isNaN x).2 hx), nan64to32_eq]

/-- Settles O43: the integer by `resultValueOf_integer`; its binary64 is its sign with its magnitude rounded
(`binary64_signed`), which is exact up to 2^53 (`magnitude_roundTo_natAbs`) and the nearest one beyond
(`Format.roundTo_nearest`, carried to signed numbers by `NearestEven.signed`). -/
theorem integerToBinary64 : Obligations.IntegerToBinary64 := by
  unfold Obligations.IntegerToBinary64
  refine ⟨fun t w ht hw => ?_, by decide, fun n hn => ?_⟩
  · rw [typeRow_eq] at hw ⊢
    simp only [resultValueOf_integer ht, isSigned_iff, signedOf_eq_toInt (typeWidth_pos t) hw]
  · have hfin := roundTo_natAbs_lt hn
    obtain ⟨hfinite, hreal, _, heven⟩ := binary64_signed (decide (n < 0)) hfin
    have hvalue := intCast_eq_signed_natAbs n
    refine ⟨hfinite, fun hsmall => ?_, fun y _ => ?_⟩
    · rw [toBinary64, hreal, magnitude_roundTo_natAbs hsmall, ← hvalue]
    · rw [toBinary64, hreal, heven, real64_eq_magnitude y, hvalue]
      refine (binary64.roundTo_nearest (by decide) hfin _).signed _ _ (by positivity) (binary64.magnitude_nonneg _)
        (fun hzero => ?_)
      obtain rfl : n = 0 := by simpa using hzero
      rw [magnitude_roundTo_natAbs (by norm_num), hzero]

/-- Settles O44: a finite pattern is encoded anew (`widen32_of_finite`) without loss (`magnitude_roundTo_exactOf`), the
infinities by evaluation, and a NaN by `widen32_of_nan`. -/
theorem widenExact : Obligations.WidenExact := by
  unfold Obligations.WidenExact
  refine ⟨fun w hw => ?_, by decide, by decide, fun w _ hexp hfrac => ?_⟩
  · obtain ⟨hfin, hexact⟩ := magnitude_roundTo_exactOf w
    obtain ⟨hfinite, hreal, hsign, _⟩ := binary64_signed (binary32.exactOf w.toNat).neg hfin
    rw [resultValueOf, widen32_of_finite hw]
    exact ⟨hfinite, by rw [hreal, hexact, real32_eq, signFactor], hsign⟩
  · exact widen32_of_nan ((binary32_isNaN w).2 ⟨hexp, hfrac⟩)

end Sys2Proof.Proofs
end

/-! # The family 42_frame_serializer.md: the lines FRAME_PARSE accepts (R239, R240) and the INFO of the others (R241) -/

section
namespace Sys2Proof.Machine

/-! ## Where a set of byte strings is left

The grammar of R239 is a sequence of parts, and each reader reads one of them. What may stand at a reader's position is a
set of byte strings, and the reader's answer says where the bytes leave it. -/

/-- `q` is the index of the first byte with which the bytes begin no member of `L`, a missing byte counting as one:
`FirstBreak` for a set other than that of the lines. -/
def BreaksAt (L : List Byte → Prop) (bs : List Byte) (q : Nat) : Prop :=
  q ≤ bs.length ∧ (∃ more, L (bs.take q ++ more)) ∧ (q < bs.length → ¬ ∃ more, L (bs.take (q + 1) ++ more)) ∧ ¬ L bs

theorem firstBreak_iff (bs : List Byte) (q : Nat) : FirstBreak bs q ↔ BreaksAt LineShape bs q := Iff.rfl

/-- Bytes leave a set at once when it has members, but none with their first byte, and they are not a member
themselves. -/
theorem breaksAt_zero {L : List Byte → Prop} {bs : List Byte} (hL : ∃ x, L x)
    (hhead : ∀ b, bs.head? = some b → ∀ x, ¬ L (b :: x)) (hnil : bs = [] → ¬ L []) : BreaksAt L bs 0 := by
  refine ⟨Nat.zero_le _, hL, ?_, ?_⟩
  · rintro hlen ⟨more, h⟩
    cases bs with
    | nil => simp at hlen
    | cons b bs => exact hhead b rfl more h
  · cases bs with
    | nil => exact hnil rfl
    | cons b bs => exact hhead b rfl bs

/-- Where bytes leave `L'`, the bytes with `a` before them leave every `L` in which `a` is followed by exactly `L'`. -/
theorem BreaksAt.append {L L' : List Byte → Prop} {a bs : List Byte} {q : Nat} (hfollow : ∀ x, L (a ++ x) ↔ L' x)
    (h : BreaksAt L' bs q) : BreaksAt L (a ++ bs) (a.length + q) := by
  obtain ⟨hle, hbegin, hnext, hnot⟩ := h
  have htake : ∀ k, (a ++ bs).take (a.length + k) = a ++ bs.take k := fun k => List.take_length_add_append k
  refine ⟨by simp [hle], ?_, fun hlt => ?_, by rwa [hfollow]⟩
  · simpa only [htake, List.append_assoc, hfollow] using hbegin
  · simpa only [Nat.add_assoc, htake, List.append_assoc, hfollow] using hnext (by simpa using hlt)

/-! ## The grammar, part by part -/

/-- The marker of a frame kind (42_frame_serializer.md R231, R232). -/
def marker (ext : Bool) : Byte := if ext then 0x54 else 0x74

/-- The length digit (42_frame_serializer.md R231). -/
def dlcDigit (dlc : Nat) : Byte := BitVec.ofNat 8 (0x30 + dlc)

/-- `n` hex digits and then a member of `L`. -/
def HexThen (n : Nat) (L : List Byte → Prop) (bs : List Byte) : Prop :=
  ∃ ds x, ds.length = n ∧ (∀ b ∈ ds, IsHex b) ∧ L x ∧ bs = ds ++ x

/-- What may stand after the data digits: CR. -/
def EndShape (bs : List Byte) : Prop := bs = [carriageReturn]

/-- What may stand after the id digits: the length digit, the data digits and CR. -/
def DlcShape (bs : List Byte) : Prop := ∃ dlc x, dlc ≤ 8 ∧ HexThen (2 * dlc) EndShape x ∧ bs = dlcDigit dlc :: x

/-- What may stand after the marker. -/
def BodyShape (ext : Bool) : List Byte → Prop := HexThen (idDigits ext) DlcShape

theorem lineOf_eq (ext : Bool) (ids : List Byte) (dlc : Nat) (ds : List Byte) :
    lineOf ext ids dlc ds = marker ext :: (ids ++ dlcDigit dlc :: (ds ++ [carriageReturn])) := rfl

theorem marker_injective {ext ext' : Bool} (h : marker ext = marker ext') : ext = ext' := by
  revert h; revert ext ext'; decide

theorem dlcDigit_injective {dlc dlc' : Nat} (hd : dlc ≤ 8) (hd' : dlc' ≤ 8) (h : dlcDigit dlc = dlcDigit dlc') :
    dlc = dlc' := by
  have := congrArg BitVec.toNat h
  simp only [dlcDigit, BitVec.toNat_ofNat] at this
  omega

/-- The largest id the parser lets through is the largest id of R240. -/
theorem maxId_eq (ext : Bool) : maxId ext = idLimit ext := by cases ext <;> rfl

theorem exists_hexThen {L : List Byte → Prop} (n : Nat) (hL : ∃ x, L x) : ∃ x, HexThen n L x := by
  obtain ⟨x, hx⟩ := hL
  exact ⟨_, hexDigits n 0, x, hexDigits_length n 0, fun b hb => (hexDigits_upper n 0 b hb).1, hx, rfl⟩

theorem exists_endShape : ∃ x, EndShape x := ⟨_, rfl⟩

theorem exists_dlcShape : ∃ x, DlcShape x := by
  obtain ⟨x, hx⟩ := exists_hexThen (2 * 0) exists_endShape
  exact ⟨_, 0, x, by decide, hx, rfl⟩

@[simp] theorem hexThen_zero (L : List Byte → Prop) (bs : List Byte) : HexThen 0 L bs ↔ L bs := by
  constructor
  · rintro ⟨ds, x, hlen, -, hx, rfl⟩
    rw [List.length_eq_zero_iff] at hlen
    rwa [hlen]
  · exact fun h => ⟨[], bs, rfl, by simp, h, rfl⟩

theorem not_hexThen_succ_nil (n : Nat) (L : List Byte → Prop) : ¬ HexThen (n + 1) L [] := by
  rintro ⟨ds, x, hlen, -, -, h⟩
  have := congrArg List.length h
  simp only [List.length_nil, List.length_append, hlen] at this
  omega

theorem hexThen_succ_cons (n : Nat) (L : List Byte → Prop) (b : Byte) (bs : List Byte) :
    HexThen (n + 1) L (b :: bs) ↔ IsHex b ∧ HexThen n L bs := by
  constructor
  · rintro ⟨ds, x, hlen, hhex, hx, h⟩
    obtain ⟨d, ds, rfl⟩ := List.exists_cons_of_length_eq_add_one hlen
    rw [List.cons_append, List.cons.injEq] at h
    obtain ⟨rfl, rfl⟩ := h
    rw [List.forall_mem_cons] at hhex
    exact ⟨hhex.1, ds, x, by simpa using hlen, hhex.2, hx, rfl⟩
  · rintro ⟨hb, ds, x, hlen, hhex, hx, rfl⟩
    exact ⟨b :: ds, x, by simp [hlen], List.forall_mem_cons.2 ⟨hb, hhex⟩, hx, rfl⟩

/-- Some of the hex digits are followed by the others. -/
theorem hexThen_append {ds : List Byte} (hhex : ∀ b ∈ ds, IsHex b) (n : Nat) (L : List Byte → Prop) (bs : List Byte) :
    HexThen (ds.length + n) L (ds ++ bs) ↔ HexThen n L bs := by
  induction ds with
  | nil => simp
  | cons d ds ih =>
    rw [List.forall_mem_cons] at hhex
    rw [List.length_cons, Nat.add_right_comm, List.cons_append, hexThen_succ_cons, ih hhex.2]
    simp [hhex.1]

/-- All of the hex digits are followed by what comes after them. -/
theorem hexThen_digits_append {ds : List Byte} {n : Nat} (hlen : ds.length = n) (hhex : ∀ b ∈ ds, IsHex b)
    (L : List Byte → Prop) (bs : List Byte) : HexThen n L (ds ++ bs) ↔ L bs := by
  rw [← hexThen_zero L bs, ← hlen]
  exact hexThen_append hhex 0 L bs

theorem dlcShape_cons {dlc : Nat} (hd : dlc ≤ 8) (bs : List Byte) :
    DlcShape (dlcDigit dlc :: bs) ↔ HexThen (2 * dlc) EndShape bs := by
  constructor
  · rintro ⟨dlc', x, hd', hx, h⟩
    rw [List.cons.injEq] at h
    obtain ⟨hdigit, rfl⟩ := h
    rwa [dlcDigit_injective hd hd' hdigit]
  · exact fun h => ⟨dlc, bs, hd, h, rfl⟩

/-- The line grammar is the marker and then the parts in their order. -/
theorem lineShape_iff (bs : List Byte) : LineShape bs ↔ ∃ ext x, BodyShape ext x ∧ bs = marker ext :: x := by
  constructor
  · rintro ⟨ext, ids, dlc, ds, ⟨hids, hidhex, hd, hds, hdhex⟩, rfl⟩
    exact ⟨ext, _, ⟨ids, _, hids, hidhex, ⟨dlc, _, hd, ⟨ds, _, hds, hdhex, rfl, rfl⟩, rfl⟩, rfl⟩, rfl⟩
  · rintro ⟨ext, _, ⟨ids, _, hids, hidhex, ⟨dlc, _, hd, ⟨ds, _, hds, hdhex, rfl, rfl⟩, rfl⟩, rfl⟩, rfl⟩
    exact ⟨ext, ids, dlc, ds, ⟨hids, hidhex, hd, hds, hdhex⟩, rfl⟩

theorem lineShape_marker_cons (ext : Bool) (bs : List Byte) : LineShape (marker ext :: bs) ↔ BodyShape ext bs := by
  rw [lineShape_iff]
  constructor
  · rintro ⟨ext', x, hx, h⟩
    rw [List.cons.injEq] at h
    obtain ⟨hmarker, rfl⟩ := h
    rwa [marker_injective hmarker]
  · exact fun h => ⟨ext, bs, h, rfl⟩

theorem exists_lineShape : ∃ x, LineShape x :=
  let ⟨_, hx⟩ := exists_hexThen (idDigits false) exists_dlcShape
  ⟨_, (lineShape_marker_cons false _).2 hx⟩

/-! ## Where a reader fails, the bytes leave the grammar -/

/-- Too few hex digits, and then a byte that is missing or is none. -/
theorem breaksAt_hexThen {L : List Byte → Prop} {ds rest : List Byte} {n : Nat} (hL : ∃ x, L x) (hlen : ds.length < n)
    (hhex : ∀ b ∈ ds, IsHex b) (hrest : ∀ b, rest.head? = some b → ¬ IsHex b) :
    BreaksAt (HexThen n L) (ds ++ rest) ds.length := by
  obtain ⟨k, rfl⟩ := Nat.exists_eq_add_of_lt hlen
  refine BreaksAt.append (q := 0) (hexThen_append hhex (k + 1) L) (breaksAt_zero (exists_hexThen _ hL) ?_ ?_)
  · exact fun b hb x hx => hrest b hb ((hexThen_succ_cons _ _ _ _).1 hx).1
  · exact fun _ => not_hexThen_succ_nil k L

theorem breaksAt_of_readHex_error {L : List Byte → Prop} (hL : ∃ x, L x) {bs : List Byte} {p n acc q : Nat}
    (h : readHex bs p n acc = .error q) : ∃ r, q = p + r ∧ BreaksAt (HexThen n L) bs r := by
  obtain ⟨ds, rest, rfl, hlen, hhex, rfl, hrest⟩ := readHex_error h
  exact ⟨_, rfl, breaksAt_hexThen hL hlen hhex hrest⟩

theorem breaksAt_of_readData_error {L : List Byte → Prop} (hL : ∃ x, L x) {bs : List Byte} {p n q : Nat}
    (h : readData bs p n = .error q) : ∃ r, q = p + r ∧ BreaksAt (HexThen (2 * n) L) bs r := by
  obtain ⟨ds, rest, rfl, hlen, hhex, rfl, hrest⟩ := readData_error h
  exact ⟨_, rfl, breaksAt_hexThen hL hlen hhex hrest⟩

theorem breaksAt_of_readDlc_error {bs : List Byte} {p q : Nat} (h : readDlc bs p = .error q) :
    q = p ∧ BreaksAt DlcShape bs 0 := by
  rcases readDlc_spec bs p with ⟨_, _, _, _, hok⟩ | ⟨herror, hhead⟩
  · rw [hok] at h; cases h
  · obtain rfl : p = q := by simpa [herror] using h
    refine ⟨rfl, breaksAt_zero exists_dlcShape ?_ ?_⟩
    · rintro b hb x ⟨dlc, _, hd, -, h⟩
      exact hhead dlc hd (hb.trans (congrArg List.head? h))
    · rintro - ⟨_, _, _, _, h⟩
      cases h

theorem breaksAt_of_readEnd_error {bs : List Byte} {p q : Nat} (h : readEnd bs p = .error q) :
    ∃ r, q = p + r ∧ BreaksAt EndShape bs r := by
  rcases readEnd_spec bs p with ⟨hok, -⟩ | ⟨herror, hhead⟩ | ⟨herror, b, rest, rfl⟩
  · rw [hok] at h; cases h
  · obtain rfl : p = q := by simpa [herror] using h
    refine ⟨0, rfl, breaksAt_zero exists_endShape ?_ (by simp [EndShape])⟩
    intro b hb x hx
    exact hhead (hb.trans (congrArg List.head? hx))
  · obtain rfl : p + 1 = q := by simpa [herror] using h
    have hfollow : ∀ x, EndShape ([carriageReturn] ++ x) ↔ x = [] := by simp [EndShape]
    exact ⟨1, rfl, BreaksAt.append (q := 0) hfollow (breaksAt_zero ⟨[], rfl⟩ (by simp) (by simp))⟩

/-! ## What the parser answers -/

theorem readDlc_ok {bs rest : List Byte} {p dlc : Nat} :
    readDlc bs p = .ok (dlc, rest) ↔ dlc ≤ 8 ∧ bs = dlcDigit dlc :: rest := by
  rcases readDlc_spec bs p with ⟨dlc', rest', hd', rfl, hok⟩ | ⟨herror, hhead⟩
  · rw [hok]
    constructor
    · rintro ⟨⟩; exact ⟨hd', rfl⟩
    · rintro ⟨hd, h⟩
      rw [List.cons.injEq] at h
      obtain ⟨hdigit, rfl⟩ := h
      rw [dlcDigit_injective hd' hd hdigit]
  · rw [herror]
    constructor
    · rintro ⟨⟩
    · rintro ⟨hd, rfl⟩
      exact absurd rfl (hhead dlc hd)

theorem readEnd_ok {bs : List Byte} {p : Nat} : readEnd bs p = .ok () ↔ bs = [carriageReturn] := by
  rcases readEnd_spec bs p with ⟨hok, rfl⟩ | ⟨herror, hhead⟩ | ⟨herror, b, rest, rfl⟩
  · simp [hok]
  · rw [herror]
    constructor
    · rintro ⟨⟩
    · rintro rfl
      exact absurd rfl hhead
  · simp [herror]

/-- The parser accepts after the marker exactly the rest of a line whose id is in range, and answers what it spells. -/
theorem readBody_ok {ext : Bool} {bs : List Byte} {f : ParsedFrame} :
    readBody ext bs = .ok f ↔
      ∃ ids dlc ds, PartsOk ext ids dlc ds ∧ hexNumber ids ≤ idLimit ext
        ∧ bs = ids ++ dlcDigit dlc :: (ds ++ [carriageReturn]) ∧ f = ⟨ext, hexNumber ids, pairBytes ds⟩ := by
  constructor
  · intro h
    unfold readBody at h
    split at h
    · cases h
    next id rest hread =>
    split_ifs at h with hid
    split at h
    · cases h
    next dlc rest' hdlc =>
    split at h
    · cases h
    next data rest'' hdata =>
    split at h
    · cases h
    next hend =>
    cases h
    obtain ⟨ids, hids, hidhex, rfl, rfl⟩ := readHex_ok.1 hread
    obtain ⟨hd, rfl⟩ := readDlc_ok.1 hdlc
    obtain ⟨ds, hds, hdhex, rfl, rfl⟩ := readData_ok.1 hdata
    obtain rfl := readEnd_ok.1 hend
    exact ⟨ids, dlc, ds, ⟨hids, hidhex, hd, hds, hdhex⟩, maxId_eq ext ▸ not_lt.1 hid, rfl, rfl⟩
  · rintro ⟨ids, dlc, ds, ⟨hids, hidhex, hd, hds, hdhex⟩, hid, rfl, rfl⟩
    have hread : readHex (ids ++ dlcDigit dlc :: (ds ++ [carriageReturn])) 1 (idDigits ext) 0
        = .ok (hexNumber ids, dlcDigit dlc :: (ds ++ [carriageReturn])) := readHex_ok.2 ⟨ids, hids, hidhex, rfl, rfl⟩
    have hdlc : ∀ p, readDlc (dlcDigit dlc :: (ds ++ [carriageReturn])) p = .ok (dlc, ds ++ [carriageReturn]) :=
      fun _ => readDlc_ok.2 ⟨hd, rfl⟩
    have hdata : ∀ p, readData (ds ++ [carriageReturn]) p dlc = .ok (pairBytes ds, [carriageReturn]) :=
      fun _ => readData_ok.2 ⟨ds, hds, hdhex, rfl, rfl⟩
    have hend : ∀ p, readEnd [carriageReturn] p = .ok () := fun _ => readEnd_ok.2 rfl
    unfold readBody
    simp only [hread, maxId_eq, if_neg (not_lt.2 hid), hdlc, hdata, hend]

/-- Where the parser refuses the bytes after a marker, the id is out of range or they leave the grammar there. -/
theorem breaksAt_of_readBody_error {ext : Bool} {bs : List Byte} {q : Nat} (h : readBody ext bs = .error q) :
    IdOutOfRange (marker ext :: bs) ∨ ∃ r, q = 1 + r ∧ BreaksAt (BodyShape ext) bs r := by
  unfold readBody at h
  split at h
  case h_1 _ hread =>
    cases h
    exact .inr (breaksAt_of_readHex_error exists_dlcShape hread)
  next id rest hread =>
  obtain ⟨ids, hids, hidhex, rfl, rfl⟩ := readHex_ok.1 hread
  split_ifs at h with hid
  · exact .inl ⟨ext, ids, rest, hids, hidhex, maxId_eq ext ▸ hid, rfl⟩
  suffices hrest : ∃ r, q = 1 + idDigits ext + r ∧ BreaksAt DlcShape rest r by
    obtain ⟨r, rfl, hr⟩ := hrest
    exact .inr ⟨ids.length + r, by omega, hr.append (hexThen_digits_append hids hidhex DlcShape)⟩
  split at h
  case h_1 _ hdlc =>
    cases h
    obtain ⟨rfl, hr⟩ := breaksAt_of_readDlc_error hdlc
    exact ⟨0, rfl, hr⟩
  next dlc rest' hdlc =>
  obtain ⟨hd, rfl⟩ := readDlc_ok.1 hdlc
  suffices hrest : ∃ r, q = 2 + idDigits ext + r ∧ BreaksAt (HexThen (2 * dlc) EndShape) rest' r by
    obtain ⟨r, rfl, hr⟩ := hrest
    exact ⟨[dlcDigit dlc].length + r, by simp only [List.length_singleton]; omega, hr.append (dlcShape_cons hd)⟩
  split at h
  case h_1 _ hdata =>
    cases h
    exact breaksAt_of_readData_error exists_endShape hdata
  next data rest'' hdata =>
  obtain ⟨ds, hds, hdhex, rfl, rfl⟩ := readData_ok.1 hdata
  split at h
  case h_2 => cases h
  next hend =>
  cases h
  obtain ⟨r, rfl, hr⟩ := breaksAt_of_readEnd_error hend
  exact ⟨ds.length + r, by omega, hr.append (hexThen_digits_append hds hdhex EndShape)⟩

theorem parseLine_marker_cons (ext : Bool) (bs : List Byte) : parseLine (marker ext :: bs) = readBody ext bs := by
  cases ext <;> rfl

/-- The parser looks at the marker first. -/
theorem parseLine_spec (bs : List Byte) :
    (∃ ext rest, bs = marker ext :: rest ∧ parseLine bs = readBody ext rest)
    ∨ (parseLine bs = .error 0 ∧ ∀ ext, bs.head? ≠ some (marker ext)) := by
  cases bs with
  | nil => exact .inr ⟨rfl, by simp⟩
  | cons b rest =>
    by_cases h : ∃ ext, b = marker ext
    · obtain ⟨ext, rfl⟩ := h
      exact .inl ⟨ext, rest, rfl, parseLine_marker_cons ext rest⟩
    · rw [not_exists] at h
      refine .inr ⟨?_, fun ext => by simpa using h ext⟩
      have hstd : b ≠ markStd := h false
      have hext : b ≠ markExt := h true
      simp only [parseLine, if_neg hstd, if_neg hext]

/-- FRAME_PARSE's parser accepts exactly the lines of the grammar whose id is in range, and answers what they spell
(42_frame_serializer.md R238 to R240). -/
theorem parseLine_ok {bs : List Byte} {f : ParsedFrame} :
    parseLine bs = .ok f ↔
      ∃ ext ids dlc ds, PartsOk ext ids dlc ds ∧ hexNumber ids ≤ idLimit ext ∧ bs = lineOf ext ids dlc ds
        ∧ f = ⟨ext, hexNumber ids, pairBytes ds⟩ := by
  constructor
  · intro h
    rcases parseLine_spec bs with ⟨ext, rest, rfl, hbody⟩ | ⟨herror, -⟩
    · obtain ⟨ids, dlc, ds, hparts, hid, rfl, hf⟩ := readBody_ok.1 (hbody.symm.trans h)
      exact ⟨ext, ids, dlc, ds, hparts, hid, rfl, hf⟩
    · rw [herror] at h; cases h
  · rintro ⟨ext, ids, dlc, ds, hparts, hid, rfl, hf⟩
    rw [lineOf_eq, parseLine_marker_cons]
    exact readBody_ok.2 ⟨ids, dlc, ds, hparts, hid, rfl, hf⟩

/-- An id out of range is refused with INFO 1, whatever follows it (42_frame_serializer.md R240). -/
theorem parseLine_of_idOutOfRange {bs : List Byte} (h : IdOutOfRange bs) : parseLine bs = .error 1 := by
  obtain ⟨ext, ids, rest, hids, hidhex, hid, rfl⟩ := h
  have hread : readHex (ids ++ rest) 1 (idDigits ext) 0 = .ok (hexNumber ids, rest) :=
    readHex_ok.2 ⟨ids, hids, hidhex, rfl, rfl⟩
  refine (parseLine_marker_cons ext (ids ++ rest)).trans ?_
  unfold readBody
  simp only [hread, maxId_eq, if_pos hid]

/-- A line the parser refuses has an id out of range, or breaks the grammar first at the index the parser answers
(42_frame_serializer.md R241). -/
theorem firstBreak_of_parseLine_error {bs : List Byte} {q : Nat} (h : parseLine bs = .error q) :
    IdOutOfRange bs ∨ FirstBreak bs q := by
  rw [firstBreak_iff]
  rcases parseLine_spec bs with ⟨ext, rest, rfl, hbody⟩ | ⟨herror, hhead⟩
  · rcases breaksAt_of_readBody_error (hbody.symm.trans h) with hid | ⟨r, rfl, hr⟩
    · exact .inl hid
    · exact .inr (hr.append (a := [marker ext]) (lineShape_marker_cons ext))
  · obtain rfl : 0 = q := by simpa [herror] using h
    refine .inr (breaksAt_zero exists_lineShape ?_ ?_)
    · intro b hb x hx
      obtain ⟨ext, _, -, hline⟩ := (lineShape_iff _).1 hx
      exact hhead ext (hb.trans (congrArg List.head? hline))
    · intro _ hx
      obtain ⟨_, _, -, hline⟩ := (lineShape_iff _).1 hx
      cases hline

end Sys2Proof.Machine
end

section
namespace Sys2Proof.Proofs

open Sys2Proof Sys2Proof.Machine

/-- Settles O53: the command completes where the parser accepts (`execFrameParse_cases`), and the parser accepts the lines
of the grammar with an id in range (`parseLine_ok`). -/
theorem frameParseAcceptsExactlyTheGrammar : Obligations.FrameParseAcceptsExactlyTheGrammar := by
  unfold Obligations.FrameParseAcceptsExactlyTheGrammar
  intro s t hfser h
  rcases execFrameParse_cases h with ⟨-, hlen, f, hf, rfl⟩ | ⟨-, -, q, hq, rfl⟩ | ⟨-, hlen, rfl⟩ | ⟨habsent, -⟩
  · obtain ⟨ext, ids, dlc, ds, hparts, hid, hline, -⟩ := parseLine_ok.1 hf
    exact iff_of_true rfl ⟨hlen, ext, ids, dlc, ds, hparts, hid, hline⟩
  · refine iff_of_false (by simp [ErrorCode.number]) ?_
    rintro ⟨-, ext, ids, dlc, ds, hparts, hid, hline⟩
    cases hq.symm.trans (parseLine_ok.2 ⟨ext, ids, dlc, ds, hparts, hid, hline, rfl⟩)
  · exact iff_of_false (by simp [ErrorCode.number]) fun hr => absurd hr.1 (not_le.2 hlen)
  · rw [hfser] at habsent; cases habsent

/-- Settles O54: a line refused has at most 32 bytes, so its first break (`firstBreak_of_parseLine_error`) fits INFO; an id
out of range gives 1 (`parseLine_of_idOutOfRange`). -/
theorem frameParseReportsFirstBreak : Obligations.FrameParseReportsFirstBreak := by
  unfold Obligations.FrameParseReportsFirstBreak
  intro s t hfser h hcode
  rcases execFrameParse_cases h with ⟨-, -, f, -, rfl⟩ | ⟨-, hlen, q, hq, rfl⟩ | ⟨-, hlen, rfl⟩ | ⟨habsent, -⟩
  · exact absurd rfl hcode
  · refine ⟨rfl, fun hlong => absurd hlong (not_lt.2 hlen), fun _ hid => ?_, fun _ hid => ?_⟩
    · obtain rfl : q = 1 := Except.error.inj (hq.symm.trans (parseLine_of_idOutOfRange hid))
      rfl
    · have hbreak := (firstBreak_of_parseLine_error hq).resolve_left hid
      have hq32 : q ≤ 32 := by
        have hle : q ≤ (s.rxLine.bytes.take s.rxLen.toNat).length := hbreak.1
        rw [List.length_take] at hle
        omega
      have hinfo : (BitVec.ofNat 8 q).toNat = q := Nat.mod_eq_of_lt (by omega)
      rwa [State.raise_status, Status.raised_info, hinfo]
  · exact ⟨rfl, fun _ => rfl, fun hshort => absurd hshort (not_le.2 hlen), fun hshort => absurd hshort (not_le.2 hlen)⟩
  · rw [hfser] at habsent; cases habsent

end Sys2Proof.Proofs
end

/-! # The family 60_exceptions.md: ILLEGAL_COMMAND (R272), VALUE_NOT_FINITE (R274), FRAME_INVALID and FRAME_UNSUPPORTED
(R276, R277) -/

section
namespace Sys2Proof.Machine

/-! ## CMD values -/

/-- RSV is what stands above the low byte of a CMD value (30_encoding.md R110). -/
theorem rsvField_eq_zero (v : Word) : rsvField v = 0 ↔ v >>> 8 = 0 := by
  rw [← BitVec.toNat_inj, ← BitVec.toNat_inj]
  simp only [rsvField, BitVec.extractLsb'_toNat, BitVec.toNat_ushiftRight, BitVec.ofNat_eq_ofNat, BitVec.toNat_ofNat,
    Nat.shiftRight_eq_div_pow]
  omega

/-- A CMD value whose RSV is 0 is its OP (30_encoding.md R110). -/
theorem opField_toNat {v : Word} (h : v >>> 8 = 0) : (opField v).toNat = v.toNat := by
  have hshift : v.toNat / 2 ^ 8 = 0 := by
    rw [← Nat.shiftRight_eq_div_pow, ← BitVec.toNat_ushiftRight, h]
    rfl
  rw [opField, BitVec.extractLsb'_toNat, Nat.shiftRight_zero]
  omega

/-- The unassigned OP values (30_encoding.md R113). -/
theorem instrOfOp_eq_none {op : Byte} (h : op.toNat ∉ [0x01, 0x02, 0x03, 0x04, 0x10, 0x11]) : instrOfOp op = none := by
  unfold instrOfOp
  split <;> simp_all

/-- A CMD value whose RSV is not 0 selects no command, whatever its OP (30_encoding.md R111). -/
theorem decode_of_reserved {v : Word} (h : v >>> 8 ≠ 0) : decode v = .error .reservedBits := by
  rw [decode, if_pos (mt (rsvField_eq_zero v).1 h)]

/-- A CMD value whose RSV is 0 and whose OP is not assigned selects no command (30_encoding.md R113). -/
theorem decode_of_unassigned {v : Word} (h : v >>> 8 = 0) (hv : v.toNat ∉ [0x01, 0x02, 0x03, 0x04, 0x10, 0x11]) :
    decode v = .error .unassignedOp := by
  rw [decode, if_neg (not_not.2 ((rsvField_eq_zero v).2 h)), instrOfOp_eq_none (by rwa [opField_toNat h])]

/-- The CMD values of the codec commands (30_encoding.md R112). -/
theorem decode_codec {v : Word} (hv : v.toNat ∈ [0x01, 0x02, 0x03, 0x04]) :
    ∃ i, decode v = .ok i ∧ isCodecCommand i = true := by
  obtain ⟨n, hn, rfl⟩ : ∃ n ∈ [0x01, 0x02, 0x03, 0x04], v = BitVec.ofNat 64 n := ⟨_, hv, by simp⟩
  simp only [List.mem_cons, List.not_mem_nil, or_false] at hn
  rcases hn with rfl | rfl | rfl | rfl
  · exact ⟨.encode, rfl, rfl⟩
  · exact ⟨.decode, rfl, rfl⟩
  · exact ⟨.encodeFrame, rfl, rfl⟩
  · exact ⟨.decodeFrame, rfl, rfl⟩

/-- The CMD values of the FSER commands (30_encoding.md R112). -/
theorem decode_fser {v : Word} (hv : v.toNat ∈ [0x10, 0x11]) :
    ∃ i, decode v = .ok i ∧ isCodecCommand i = false ∧ opcodeOf i = opField v := by
  obtain ⟨n, hn, rfl⟩ : ∃ n ∈ [0x10, 0x11], v = BitVec.ofNat 64 n := ⟨_, hv, by simp⟩
  simp only [List.mem_cons, List.not_mem_nil, or_false] at hn
  rcases hn with rfl | rfl
  · exact ⟨.frameSerialize, rfl, rfl, rfl⟩
  · exact ⟨.frameParse, rfl, rfl, rfl⟩

/-- A CMD write of a value that selects a command runs it (10_state.md R35). -/
theorem runCommand_of_decode {v : Word} {i : Instr} (s : State) (h : decode v = .ok i) : runCommand v s = exec i s := by
  rw [runCommand, h]

/-! ## The checks -/

/-- A CFG in range passes the field check with its own field. -/
theorem checkSpec_of_legal {c : Cfg} (h : c.Legal) : ∃ t, dataTypeOf c.dtype = some t ∧ checkSpec c = .ok (c.field t) := by
  obtain ⟨htype, hfield⟩ := h
  obtain ⟨t, ht⟩ := exists_dataTypeOf htype
  exact ⟨t, ht, checkSpec_ok ht hfield⟩

/-- The integer class has the TYPE codes 0 to 8 (30_encoding.md R115). -/
theorem isFloat_eq_false_iff {c : BitVec 4} {t : DataType} (h : dataTypeOf c = some t) : isFloat t = false ↔ c.toNat ≤ 8 := by
  rw [dataTypeOf_eq_some.1 h]
  cases t <;> decide

/-- A value that is neither a NaN nor an infinity is finite, and no other is (00_scope.md R17). -/
theorem not_finite64_iff (x : Word) : ¬ Finite64 x ↔ NaN64 x ∨ Inf64 x := by
  simp only [Finite64, NaN64, Inf64, not_not]
  tauto

/-- An encode raises what the field check answers, and after it what the numeric conversion answers. -/
theorem encodeWord_error_iff {m : MotoSwap} {c : Cfg} {x : Word} {e : Raised} :
    encodeWord m c x = .error e
      ↔ checkSpec c = .error e ∨ ∃ f, checkSpec c = .ok f ∧ typeWord f.dtype x = .error e := by
  cases hc : checkSpec c with
  | error e' => simp [encodeWord, hc]
  | ok f => cases hw : typeWord f.dtype x <;> simp [encodeWord, storedWord, hc, hw]

/-- An encode of a field in range, and of a finite value where its type is an integer's, gives a payload. -/
theorem encodeWord_ok {m : MotoSwap} {c : Cfg} {x : Word} (hc : c.Legal) (hx : c.dtype.toNat ≤ 8 → Finite64 x) :
    ∃ p, encodeWord m c x = .ok p := by
  cases he : encodeWord m c x with
  | ok p => exact ⟨p, rfl⟩
  | error e =>
    obtain ⟨t, ht, hok⟩ := checkSpec_of_legal hc
    rcases encodeWord_error_iff.1 he with hfield | ⟨f, hf, hvalue⟩
    · cases hok.symm.trans hfield
    · cases hok.symm.trans hf
      obtain ⟨hint, hspecial⟩ := typeWord_error hvalue
      refine absurd (hx ((isFloat_eq_false_iff ht).1 hint)) ((not_finite64_iff x).2 ?_)
      exact hspecial.imp And.left And.left

/-- A standard id above 0x7FF is too wide (60_exceptions.md R276). -/
theorem idTooWide_iff {ext : Bool} {id : BitVec 29} : idTooWide ext id = true ↔ ext = false ∧ 0x7FF < id.toNat := by
  simp [idTooWide]

/-- An extended id is never too wide, nor a standard one of 11 bits. -/
theorem idTooWide_eq_false {ext : Bool} {id : BitVec 29} (h : ext = false → id.toNat ≤ 0x7FF) : idTooWide ext id = false := by
  rw [← Bool.not_eq_true, idTooWide_iff]
  exact fun ⟨hext, hid⟩ => absurd (h hext) (not_le.2 hid)

/-- The frame check fails with FRAME_INVALID, INFO 1, on a data length above 8. -/
theorem checkFrame_dlc {id : BitVec 29} {c : FrameCtl} (h : 8 < c.dlc.toNat) :
    checkFrame id c = .error { code := .frameInvalid, info := 1 } := by
  rw [checkFrame, if_pos h]

/-- The frame check fails with FRAME_INVALID, INFO 2, on an id too wide for its kind. -/
theorem checkFrame_id {id : BitVec 29} {c : FrameCtl} (h : c.dlc.toNat ≤ 8) (hid : idTooWide c.ext id = true) :
    checkFrame id c = .error { code := .frameInvalid, info := 2 } := by
  rw [checkFrame, if_neg (not_lt.2 h), if_pos hid]

/-- The frame check fails with FRAME_UNSUPPORTED, INFO 1, on a remote request. -/
theorem checkFrame_rtr {id : BitVec 29} {c : FrameCtl} (h : c.dlc.toNat ≤ 8) (hid : idTooWide c.ext id = false)
    (hrtr : c.rtr = true) : checkFrame id c = .error { code := .frameUnsupported, info := 1 } := by
  rw [checkFrame, if_neg (not_lt.2 h), if_neg (Bool.not_eq_true _ ▸ hid), if_pos hrtr]

/-- The frame check passes every other frame (42_frame_serializer.md R236). -/
theorem checkFrame_ok {id : BitVec 29} {c : FrameCtl} (h : c.dlc.toNat ≤ 8) (hid : idTooWide c.ext id = false)
    (hrtr : c.rtr = false) : checkFrame id c = .ok () := by
  simp [checkFrame, not_lt.2 h, hid, hrtr]

/-- The frame check raises FRAME_INVALID or FRAME_UNSUPPORTED (60_exceptions.md R276, R277). -/
theorem checkFrame_error {id : BitVec 29} {c : FrameCtl} {e : Raised} (h : checkFrame id c = .error e) :
    e.code = .frameInvalid ∨ e.code = .frameUnsupported := by
  unfold checkFrame at h
  split_ifs at h
  · cases h
    exact .inl rfl
  · cases h
    exact .inl rfl
  · cases h
    exact .inr rfl

/-! ## Which error a command raises -/

/-- The errors of the commands, each with the check that raises it: `s.Raises i e` when the command `i` raises `e` in the
state `s`. The order of the checks (60_exceptions.md R279) is in what the later ones require of the earlier. -/
inductive State.Raises (s : State) : Instr → Raised → Prop
  /-- The field check of a codec command (60_exceptions.md R273). -/
  | field {i : Instr} {e : Raised} (hi : isCodecCommand i = true) (h : checkSpec s.cfg = .error e) : s.Raises i e
  /-- The numeric conversion of an encode (60_exceptions.md R274). -/
  | value {i : Instr} {f : FieldSpec} {e : Raised} (hi : i ∈ [.encode, .encodeFrame]) (hf : checkSpec s.cfg = .ok f)
      (h : typeWord f.dtype s.value = .error e) : s.Raises i e
  /-- The id check of ENCODE_FRAME (60_exceptions.md R276). -/
  | signalId {p : Word} (hp : encodeWord s.params.motoSwap s.cfg s.value = .ok p)
      (h : idTooWide s.cfg.sigExt s.cfg.sigId = true) : s.Raises .encodeFrame { code := .frameInvalid, info := 2 }
  /-- The frame check of FRAME_SERIALIZE (60_exceptions.md R276, R277). -/
  | frame {e : Raised} (hfser : s.params.hasFser = true) (h : checkFrame s.frameId s.frameCtl = .error e) :
      s.Raises .frameSerialize e
  /-- The length check of FRAME_PARSE (42_frame_serializer.md R241). -/
  | longLine (hfser : s.params.hasFser = true) (h : 32 < s.rxLen.toNat) :
      s.Raises .frameParse { code := .lineMalformed, info := 0xFF }
  /-- The parser of FRAME_PARSE (42_frame_serializer.md R241). -/
  | line {q : Nat} (hfser : s.params.hasFser = true) (hlen : s.rxLen.toNat ≤ 32)
      (h : parseLine (s.rxLine.bytes.take s.rxLen.toNat) = .error q) :
      s.Raises .frameParse { code := .lineMalformed, info := BitVec.ofNat 8 q }
  /-- An FSER command of a build without FSER (60_exceptions.md R272). -/
  | noUnit {i : Instr} (hi : isCodecCommand i = false) (hfser : s.params.hasFser = false) :
      s.Raises i { code := .illegalCommand, info := 3 }

/-- ENCODE and ENCODE_FRAME raise what the encode raises. -/
theorem exec_of_encodeWord_error {i : Instr} {s : State} {e : Raised} (hi : i ∈ [.encode, .encodeFrame])
    (h : encodeWord s.params.motoSwap s.cfg s.value = .error e) : exec i s = .next (s.raise (opcodeOf i) e) := by
  simp only [List.mem_cons, List.not_mem_nil, or_false] at hi
  rcases hi with rfl | rfl
  · simp only [exec, execEncode, h, State.finish_error]
  · simp only [exec, execEncodeFrame, h, State.finish_error]

/-- The errors of `State.Raises` are raised. -/
theorem exec_of_raises {i : Instr} {s : State} {e : Raised} (h : s.Raises i e) :
    exec i s = .next (s.raise (opcodeOf i) e) := by
  cases h with
  | field hi h => exact exec_of_checkSpec_error hi h
  | value hi hf h => exact exec_of_encodeWord_error hi (encodeWord_error_iff.2 (.inr ⟨_, hf, h⟩))
  | signalId hp h => simp only [exec, execEncodeFrame, hp, h, if_true, State.finish_error]
  | frame hfser h => simp only [exec, execFrameSerialize, withFser_present _ hfser, h, State.finish_error]
  | longLine hfser h => simp only [exec, execFrameParse, withFser_present _ hfser, h, if_true, State.finish_error]
  | line hfser hlen h =>
    simp only [exec, execFrameParse, withFser_present _ hfser, not_lt.2 hlen, if_false, h, State.finish_error]
  | noUnit hi hfser =>
    cases i with
    | encode | decode | encodeFrame | decodeFrame => cases hi
    | frameSerialize => simp only [exec, execFrameSerialize, withFser_absent _ hfser, State.finish_error]
    | frameParse => simp only [exec, execFrameParse, withFser_absent _ hfser, State.finish_error]

/-- What an encode raises is the field check's or the numeric conversion's. -/
theorem State.raises_of_encodeWord_error {i : Instr} {s : State} {e : Raised} (hi : i ∈ [.encode, .encodeFrame])
    (h : encodeWord s.params.motoSwap s.cfg s.value = .error e) : s.Raises i e := by
  rcases encodeWord_error_iff.1 h with hfield | ⟨f, hf, hvalue⟩
  · refine .field ?_ hfield
    simp only [List.mem_cons, List.not_mem_nil, or_false] at hi
    rcases hi with rfl | rfl <;> rfl
  · exact .value hi hf hvalue

/-- No other error is raised: a command that raises none of `State.Raises` completes. -/
theorem State.completes_or_raises {i : Instr} {s t : State} (h : exec i s = .next t) :
    t.status = s.status.completed (opcodeOf i) ∨ ∃ e, s.Raises i e ∧ t = s.raise (opcodeOf i) e := by
  cases i with
  | encode =>
    rcases execEncode_cases h with ⟨_, _, rfl⟩ | ⟨e, he, rfl⟩
    · exact .inl rfl
    · exact .inr ⟨e, State.raises_of_encodeWord_error (by simp) he, rfl⟩
  | decode =>
    rcases execDecode_cases h with ⟨_, _, _, rfl⟩ | ⟨e, he, rfl⟩
    · exact .inl rfl
    · exact .inr ⟨e, .field rfl (decodeWord_error he), rfl⟩
  | encodeFrame =>
    rcases execEncodeFrame_cases h with ⟨_, _, _, rfl⟩ | ⟨e, he, rfl⟩ | ⟨_, hp, hid, rfl⟩
    · exact .inl rfl
    · exact .inr ⟨e, State.raises_of_encodeWord_error (by simp) he, rfl⟩
    · exact .inr ⟨_, .signalId hp hid, rfl⟩
  | decodeFrame =>
    rcases execDecodeFrame_cases h with ⟨_, _, _, rfl⟩ | ⟨e, he, rfl⟩
    · exact .inl rfl
    · exact .inr ⟨e, .field rfl (decodeWord_error he), rfl⟩
  | frameSerialize =>
    rcases execFrameSerialize_cases h with ⟨_, _, rfl⟩ | ⟨hfser, e, he, rfl⟩ | ⟨hfser, rfl⟩
    · exact .inl rfl
    · exact .inr ⟨e, .frame hfser he, rfl⟩
    · exact .inr ⟨_, .noUnit rfl hfser, rfl⟩
  | frameParse =>
    rcases execFrameParse_cases h with ⟨_, _, _, _, rfl⟩ | ⟨hfser, hlen, q, hq, rfl⟩ | ⟨hfser, hlen, rfl⟩ | ⟨hfser, rfl⟩
    · exact .inl rfl
    · exact .inr ⟨_, .line hfser hlen hq, rfl⟩
    · exact .inr ⟨_, .longLine hfser hlen, rfl⟩
    · exact .inr ⟨_, .noUnit rfl hfser, rfl⟩

/-- The numbers tell the errors apart (60_exceptions.md R271). -/
theorem ErrorCode.number_injective {c c' : ErrorCode} (h : c.number = c'.number) : c = c' := by
  revert h
  cases c <;> cases c' <;> decide

/-- A command that raises no error completes. -/
theorem exec_completes {i : Instr} {s : State} (h : ∀ e, ¬ s.Raises i e) : ∃ t, exec i s = .next t ∧ t.status.code = 0 := by
  obtain ⟨t, ht⟩ := exec_next i s
  rcases State.completes_or_raises ht with hdone | ⟨e, he, -⟩
  · exact ⟨t, ht, by rw [hdone, Status.completed_code]⟩
  · exact absurd he (h e)

/-! ## What raises a given error -/

/-- What must hold where an error is raised, by its code: the commands that raise it (60_exceptions.md R271) and, where a
statement needs it, the state they raise it in (R272 to R274). -/
def ErrorCode.Cause (i : Instr) (s : State) : ErrorCode → Prop
  | .invalidFieldSpec => isCodecCommand i = true ∧ ¬ s.cfg.Legal
  | .valueNotFinite => i ∈ [.encode, .encodeFrame] ∧ s.cfg.Legal ∧ s.cfg.dtype.toNat ≤ 8 ∧ ¬ Finite64 s.value
  | .illegalCommand => isCodecCommand i = false ∧ s.params.hasFser = false
  | .frameInvalid | .frameUnsupported => i ∈ [.encodeFrame, .frameSerialize]
  | .lineMalformed => i = .frameParse

/-- Every error a command raises has its cause. -/
theorem State.Raises.cause {s : State} {i : Instr} {e : Raised} (h : s.Raises i e) : e.code.Cause i s := by
  cases h with
  | field hi h =>
    obtain ⟨hcode, -, hillegal⟩ := checkSpec_error h
    rw [hcode]
    exact ⟨hi, hillegal⟩
  | value hi hf h =>
    obtain ⟨t, ht, rfl, hlegal⟩ := checkSpec_cases hf
    obtain ⟨hint, hspecial⟩ := typeWord_error h
    have hcode : e.code = .valueNotFinite := by rcases hspecial with ⟨-, rfl⟩ | ⟨-, rfl⟩ <;> rfl
    have hdtype : s.cfg.dtype.toNat ≤ 8 := (isFloat_eq_false_iff ht).1 hint
    rw [hcode]
    exact ⟨hi, ⟨by omega, hlegal⟩, hdtype, (not_finite64_iff _).2 (hspecial.imp And.left And.left)⟩
  | signalId => simp [ErrorCode.Cause]
  | frame _ h => rcases checkFrame_error h with hcode | hcode <;> simp [hcode, ErrorCode.Cause]
  | longLine => rfl
  | line => rfl
  | noUnit hi hfser => exact ⟨hi, hfser⟩

/-- After a command, CODE is no error that has no cause. -/
theorem exec_code_ne (i : Instr) (s : State) :
    ∃ t, exec i s = .next t ∧ ∀ c : ErrorCode, ¬ c.Cause i s → t.status.code ≠ c.number := by
  obtain ⟨t, ht⟩ := exec_next i s
  refine ⟨t, ht, fun c hc hcode => ?_⟩
  rcases State.completes_or_raises ht with hdone | ⟨e, he, rfl⟩
  · rw [hdone] at hcode
    exact c.number_ne_zero hcode.symm
  · exact hc (ErrorCode.number_injective hcode ▸ he.cause)

/-! ## All the errors of the frame commands -/

/-- FRAME_SERIALIZE of a present unit raises what the frame check raises, and nothing else. -/
theorem State.raises_frameSerialize_iff {s : State} {e : Raised} (hfser : s.params.hasFser = true) :
    s.Raises .frameSerialize e ↔ checkFrame s.frameId s.frameCtl = .error e := by
  refine ⟨fun h => ?_, .frame hfser⟩
  cases h with
  | field hi _ => cases hi
  | value hi _ _ => simp at hi
  | frame _ h => exact h
  | noUnit _ habsent => cases hfser.symm.trans habsent

/-- ENCODE_FRAME, where the encode gives a payload, raises FRAME_INVALID with INFO 2 for an id too wide, and nothing else. -/
theorem State.raises_encodeFrame_iff {s : State} {e : Raised} {p : Word}
    (hp : encodeWord s.params.motoSwap s.cfg s.value = .ok p) :
    s.Raises .encodeFrame e
      ↔ idTooWide s.cfg.sigExt s.cfg.sigId = true ∧ e = { code := .frameInvalid, info := 2 } := by
  refine ⟨fun h => ?_, fun ⟨hid, he⟩ => he ▸ .signalId hp hid⟩
  cases h with
  | field _ h => cases hp.symm.trans (encodeWord_error_iff.2 (.inl h))
  | value _ hf h => cases hp.symm.trans (encodeWord_error_iff.2 (.inr ⟨_, hf, h⟩))
  | signalId _ hid => exact ⟨hid, rfl⟩
  | noUnit hi _ => cases hi

end Sys2Proof.Machine
end

section
namespace Sys2Proof.Proofs

open Sys2Proof Sys2Proof.Machine

/-- Settles O4: the decoder refuses RSV and OP (`decode_of_reserved`, `decode_of_unassigned`); a command that is decoded
raises ILLEGAL_COMMAND for the absent unit and for nothing else (`exec_code_ne`). -/
theorem illegalCommandReported : Obligations.IllegalCommandReported := by
  unfold Obligations.IllegalCommandReported
  intro s v rest hq
  rw [step_command hq]
  refine ⟨fun hrsv => ?_, fun hrsv hop => ?_, fun hop hfser => ?_, fun hv => ?_⟩
  · rw [runCommand, decode_of_reserved hrsv]
    rfl
  · rw [runCommand, decode_of_unassigned hrsv hop]
    rfl
  · obtain ⟨i, hi, hunit, hopcode⟩ := decode_fser hop
    have hraise := exec_of_raises (s := { s with hostQueue := rest, hostData := none }) (.noUnit hunit hfser)
    rw [runCommand_of_decode _ hi, hraise, hopcode]
    rfl
  · have hlegal : ∃ i, decode v = .ok i ∧ (isCodecCommand i = true ∨ s.params.hasFser = true) := by
      rcases hv with hcodec | ⟨hop, hfser⟩
      · obtain ⟨i, hi, hunit⟩ := decode_codec hcodec
        exact ⟨i, hi, .inl hunit⟩
      · obtain ⟨i, hi, -⟩ := decode_fser hop
        exact ⟨i, hi, .inr hfser⟩
    obtain ⟨i, hi, hpresent⟩ := hlegal
    obtain ⟨t, ht, hcode⟩ := exec_code_ne i { s with hostQueue := rest, hostData := none }
    refine ⟨t, by rw [runCommand_of_decode _ hi, ht], hcode .illegalCommand ?_⟩
    rintro ⟨habsent, hnone⟩
    rcases hpresent with hunit | hfser
    · cases hunit.symm.trans habsent
    · cases hfser.symm.trans hnone

/-- Settles O26: the conversion of an integer type refuses a NaN and an infinity (`typeWord_nan`, `typeWord_inf`), and nothing
else raises VALUE_NOT_FINITE (`exec_code_ne`). -/
theorem nonFiniteRefused : Obligations.NonFiniteRefused := by
  unfold Obligations.NonFiniteRefused
  intro i s
  refine ⟨fun hi hlegal hint hnan => ?_, fun hi hlegal hint hinf => ?_, fun hother => ?_⟩
  · obtain ⟨t, ht, hok⟩ := checkSpec_of_legal hlegal
    exact exec_of_raises (.value hi hok (typeWord_nan ((isFloat_eq_false_iff ht).2 hint) hnan))
  · obtain ⟨t, ht, hok⟩ := checkSpec_of_legal hlegal
    exact exec_of_raises (.value hi hok (typeWord_inf ((isFloat_eq_false_iff ht).2 hint) hinf))
  · obtain ⟨t, ht, hcode⟩ := exec_code_ne i s
    refine ⟨t, ht, hcode .valueNotFinite ?_⟩
    rintro ⟨hencode, hlegal, hint, hspecial⟩
    rcases hother with hi | hillegal | hfloat | hfinite
    · simp only [List.mem_cons, List.not_mem_nil, or_false] at hencode
      rcases hencode with rfl | rfl <;> simp at hi
    · exact hillegal hlegal
    · omega
    · exact hspecial hfinite

/-- Settles O27: FRAME_SERIALIZE raises exactly what the frame check raises (`State.raises_frameSerialize_iff`), ENCODE_FRAME
after a payload exactly the id's error (`State.raises_encodeFrame_iff`), and no other command one of the two errors
(`exec_code_ne`). -/
theorem frameChecks : Obligations.FrameChecks := by
  unfold Obligations.FrameChecks
  refine ⟨fun s hfser => ⟨fun hdlc => ?_, fun hdlc hext hid => ?_, fun hdlc hid hrtr => ?_, fun hdlc hid hrtr => ?_⟩,
    fun s hlegal hfinite => ?_, fun i s hi => ?_⟩
  · exact exec_of_raises (.frame hfser (checkFrame_dlc hdlc))
  · exact exec_of_raises (.frame hfser (checkFrame_id hdlc (idTooWide_iff.2 ⟨hext, hid⟩)))
  · exact exec_of_raises (.frame hfser (checkFrame_rtr hdlc (idTooWide_eq_false hid) hrtr))
  · refine exec_completes fun e he => ?_
    cases (checkFrame_ok hdlc (idTooWide_eq_false hid) hrtr).symm.trans ((State.raises_frameSerialize_iff hfser).1 he)
  · obtain ⟨p, hp⟩ := encodeWord_ok (m := s.params.motoSwap) hlegal hfinite
    refine ⟨fun hext hid => exec_of_raises (.signalId hp (idTooWide_iff.2 ⟨hext, hid⟩)), fun hid => ?_⟩
    refine exec_completes fun e he => ?_
    cases (idTooWide_eq_false hid).symm.trans ((State.raises_encodeFrame_iff hp).1 he).1
  · have hi' : i ∉ [.encodeFrame, .frameSerialize] := by
      simp only [List.mem_cons, List.not_mem_nil, or_false] at hi
      rcases hi with rfl | rfl | rfl | rfl <;> simp
    obtain ⟨t, ht, hcode⟩ := exec_code_ne i s
    exact ⟨t, ht, hcode .frameInvalid hi', hcode .frameUnsupported hi'⟩

end Sys2Proof.Proofs
end

/-! # The family 70_reset_and_hazards.md: the reset access (R300) -/

section
namespace Sys2Proof.Machine

/-- A reset access resets the registers; the accesses after it stay pending (70_reset_and_hazards.md R303). -/
theorem step_reset {s : State} {rest : List HostAccess} (h : s.hostQueue = .reset :: rest) :
    step s = .next (resetBlock { s with hostQueue := rest, hostData := none }) :=
  step_access h

/-- The block after reset reads as the reset state of the same build: what the host has yet to issue is no register. -/
theorem readReg_resetBlock (r : Reg) (s : State) :
    readReg r (resetBlock s) = readReg r { State.reset with params := s.params } :=
  readReg_host r { State.reset with params := s.params } s.hostQueue none

end Sys2Proof.Machine
end

section
namespace Sys2Proof.Proofs

open Sys2Proof Sys2Proof.Machine

/-- Settles O7: the reset access is `resetBlock` (`step_reset`), after which the registers read as in the reset state of
the same build (`readReg_resetBlock`), whose words are `readReg_reset` and `capsWord_eq_capsValue`. -/
theorem resetAccess : Obligations.ResetAccess := by
  unfold Obligations.ResetAccess
  intro s rest hq
  refine ⟨_, step_reset hq, rfl, fun r hr => ?_, ?_⟩
  · rw [readReg_resetBlock, readReg_reset _ hr]
  · rw [readReg_resetBlock]
    exact capsWord_eq_capsValue s.params

end Sys2Proof.Proofs
end

/-! # The field in the payload: the round trip of placement, its range and its footprint (40_codec_datapath.md section
7) -/

section
namespace Sys2Proof.Machine

/-! ## Placement and extraction undo each other -/

/-- Extraction finds each placed bit again; a bit that placement drops is one outside the kept mask
(40_codec_datapath.md section 7). -/
theorem extract_place {f : FieldSpec} (w : Word) (h : f.Legal) : extract f (place f w) = w &&& keptMask f := by
  apply BitVec.eq_of_getLsbD_eq
  intro j hj
  rw [extract_getLsbD f _ h hj, BitVec.getLsbD_and, keptMask_getLsbD f h hj]
  by_cases hkept : 0 ≤ (j : ℤ) + effStart f ∧ (j : ℤ) + effStart f < 64 ∧ j < truncLen f
  · have hback : (((j : ℤ) + effStart f).toNat : ℤ) - effStart f = j := by omega
    rw [place_getLsbD f w h (by omega), hback]
    simp [hkept]
  · simp [hkept]

/-- A word of n bits keeps to them under any mask. -/
theorem toNat_and_lt {v : Word} {n : Nat} (m : Word) (hv : v.toNat < 2 ^ n) : (v &&& m).toNat < 2 ^ n := by
  rw [BitVec.toNat_and]
  exact Nat.and_le_left.trans_lt hv

/-- The mask of n > 0 low bits keeps within a field's kept bits when its first and its last bit are kept. -/
theorem keptMask_covers_iff {f : FieldSpec} (h : f.Legal) {n : Nat} (hpos : 0 < n) (hn : n ≤ 64) :
    keptMask f &&& lowMask n = lowMask n ↔ 0 ≤ effStart f ∧ n + effStart f ≤ 64 ∧ n ≤ truncLen f := by
  have hbit (j : Nat) (hj : j < 64) :
      (keptMask f &&& lowMask n).getLsbD j
        = decide ((0 ≤ (j : ℤ) + effStart f ∧ (j : ℤ) + effStart f < 64 ∧ j < truncLen f) ∧ j < n) := by
    rw [BitVec.getLsbD_and, keptMask_getLsbD f h hj, lowMask_getLsbD, decide_eq_true hj, Bool.true_and,
      ← Bool.decide_and]
  constructor
  · intro hcover
    have hkept (j : Nat) (hj : j < n) : 0 ≤ (j : ℤ) + effStart f ∧ (j : ℤ) + effStart f < 64 ∧ j < truncLen f := by
      have hj64 : j < 64 := by omega
      have := hbit j hj64
      rw [hcover, lowMask_getLsbD] at this
      simpa [hj, hj64] using this
    have hfirst := hkept 0 hpos
    have hlast := hkept (n - 1) (by omega)
    omega
  · rintro ⟨h0, h64, hlen⟩
    apply BitVec.eq_of_getLsbD_eq
    intro j hj
    rw [hbit j hj, lowMask_getLsbD, decide_eq_true hj, Bool.true_and, decide_eq_decide]
    omega

/-! ## The footprint -/

/-- The footprint is where placement looks at a bit of the word (40_codec_datapath.md R169). -/
theorem inFootprint_iff {f : FieldSpec} (h : f.Legal) {i : Nat} (hi : i < 64) :
    inFootprint f i ↔ 0 ≤ (i : ℤ) - effStart f ∧ (i : ℤ) - effStart f < truncLen f := by
  have hlen := truncLen_bounds h
  unfold inFootprint
  split <;> omega

/-- Placement leaves every bit outside the footprint 0 (40_codec_datapath.md R158). -/
theorem place_getLsbD_of_not_inFootprint {f : FieldSpec} (w : Word) (h : f.Legal) {i : Nat} (hi : i < 64)
    (hout : ¬ inFootprint f i) : (place f w).getLsbD i = false := by
  rw [place_getLsbD f w h hi, decide_eq_false (mt (inFootprint_iff h hi).2 hout), Bool.false_and]

/-- Extraction looks at bits of the footprint only. -/
theorem extract_eq_of_footprint {f : FieldSpec} {p q : Word} (h : f.Legal)
    (hsame : ∀ i < 64, inFootprint f i → p.getLsbD i = q.getLsbD i) : extract f p = extract f q := by
  apply BitVec.eq_of_getLsbD_eq
  intro j hj
  rw [extract_getLsbD f p h hj, extract_getLsbD f q h hj]
  by_cases hkept : 0 ≤ (j : ℤ) + effStart f ∧ (j : ℤ) + effStart f < 64 ∧ j < truncLen f
  · have hi : ((j : ℤ) + effStart f).toNat < 64 := by omega
    rw [hsame _ hi ((inFootprint_iff h hi).2 (by omega))]
  · simp [hkept]

/-- A payload of another field with a disjoint footprint does not disturb a field (70_reset_and_hazards.md section 3).
-/
theorem fieldWord_or_place {m : MotoSwap} {f g : FieldSpec} (p w : Word) (hf : f.Legal) (hg : g.Legal)
    (hdisjoint : ∀ i < 64, ¬ (inFootprint f i ∧ inFootprint g i)) :
    fieldWord m f (p ||| place g w) = fieldWord m f p := by
  have hextract : extract f (p ||| place g w) = extract f p := by
    refine extract_eq_of_footprint hf fun i hi hin => ?_
    have hout : ¬ inFootprint g i := fun hin' => hdisjoint i hi ⟨hin, hin'⟩
    rw [BitVec.getLsbD_or, place_getLsbD_of_not_inFootprint w hg hi hout, Bool.or_false]
  rw [fieldWord, hextract, fieldWord]

/-! ## What an encode places -/

/-- A payload encoded is a stored word placed in CFG's field, which is in range (40_codec_datapath.md section 4). -/
theorem encodeWord_eq_ok {m : MotoSwap} {c : Cfg} {x p : Word} (h : encodeWord m c x = .ok p) :
    ∃ t w, dataTypeOf c.dtype = some t ∧ (c.field t).Legal ∧ storedWord m (c.field t) x = .ok w
      ∧ p = place (c.field t) w := by
  unfold encodeWord at h
  split at h
  · cases h
  next f hf =>
  obtain ⟨t, ht, rfl, hlegal⟩ := checkSpec_cases hf
  split at h
  · cases h
  next w hw =>
  cases h
  exact ⟨t, w, ht, hlegal, hw, rfl⟩

/-- An ENCODE that leaves CODE 0 has written a payload. -/
theorem execEncode_of_code_zero {s t : State} (h : execEncode s = .next t) (hcode : t.status.code = 0) :
    encodeWord s.params.motoSwap s.cfg s.value = .ok t.payloadOut := by
  rcases execEncode_cases h with ⟨p, hp, rfl⟩ | ⟨e, _, rfl⟩
  · exact hp
  · exact absurd hcode e.code.number_ne_zero

end Sys2Proof.Machine
end

section
namespace Sys2Proof.Proofs

open Sys2Proof Sys2Proof.Machine

/-- Settles O35: the word is found again by `extract_place`, and it has its type's width, so the mask of the width takes
nothing more away. -/
theorem placedWordRoundTrip : Obligations.PlacedWordRoundTrip := by
  unfold Obligations.PlacedWordRoundTrip
  intro f w hf hw
  have hback := extract_place w hf
  exact ⟨hback, by rw [hback, and_lowMask_of_lt (toNat_and_lt _ hw)]⟩

/-- Settles O36: the width is covered when its first and its last bit are kept (`keptMask_covers_iff`), which is the
stated range of START and LEN for each width and endianness. -/
theorem inRangeConditions : Obligations.InRangeConditions := by
  unfold Obligations.InRangeConditions
  intro f hf
  rw [keptMask_covers_iff hf (typeWidth_pos _) (typeWidth_le _)]
  rcases f with ⟨t, e, start, len⟩
  obtain ⟨hstart, hlen, hlen'⟩ : start ≤ 63 ∧ 1 ≤ len ∧ len ≤ 64 := hf
  cases e with
  | intel =>
    simp only [effStart, truncLen]
    omega
  | motorola => cases t <;> simp only [effStart, truncLen, typeWidth, iff_false] <;> omega

/-- Settles O37: the payload is a placed word (`encodeWord_eq_ok`), which is 0 outside the footprint. -/
theorem encodeFootprint : Obligations.EncodeFootprint := by
  unfold Obligations.EncodeFootprint
  intro s t ty hty h hcode i hi hout
  obtain ⟨ty', w, hty', hlegal, -, hp⟩ := encodeWord_eq_ok (execEncode_of_code_zero h hcode)
  obtain rfl : ty = ty' := Option.some.inj (hty.symm.trans hty')
  rw [hp]
  exact place_getLsbD_of_not_inFootprint w hlegal hi hout

/-- Settles O38: each field is undisturbed by the other's payload (`fieldWord_or_place`). -/
theorem disjointFieldsCombine : Obligations.DisjointFieldsCombine := by
  unfold Obligations.DisjointFieldsCombine
  intro m f g v w hf hg _ _ hdisjoint
  refine ⟨fieldWord_or_place _ w hf hg hdisjoint, ?_⟩
  rw [BitVec.or_comm]
  exact fieldWord_or_place _ v hg hf fun i hi hin => hdisjoint i hi hin.symm

end Sys2Proof.Proofs
end

/-! # Values: binary32 rounding (40_codec_datapath.md R170) and the decimals of `val` lines (30_encoding.md R123) -/

section
namespace Sys2Proof.Machine

/-! ## Where a format overflows

The largest finite number of a format is (2^(F+1) − 1)·2^(bias − F), so the number half a unit above it, from which
rounding gives infinity, is (2^(F+2) − 1)·2^(bias − F − 1). -/

/-- The least number that is rounded to infinity: half a unit above the largest finite one (40_codec_datapath.md
R170). -/
def Format.overflow (f : Format) : ℚ := (2 ^ (f.fracBits + 1) - 1 / 2) * 2 ^ ((f.bias : ℤ) - f.fracBits)

/-- The exponent field of all ones is above twice the bias by one (00_scope.md R17). -/
theorem Format.expOnes_eq (f : Format) (hexp : 1 < f.expBits) : f.expOnes = 2 * f.bias + 1 ∧ 1 ≤ f.bias := by
  obtain ⟨n, hn⟩ : ∃ n, f.expBits = n + 2 := ⟨f.expBits - 2, by omega⟩
  have hpos := Nat.two_pow_pos n
  simp only [Format.expOnes, Format.bias, hn, show n + 2 - 1 = n + 1 by omega, pow_succ]
  omega

/-- Overflow lies in the last binade. -/
theorem Format.overflow_bounds (f : Format) :
    (2 : ℚ) ^ (f.bias : ℤ) ≤ f.overflow ∧ f.overflow < 2 ^ ((f.bias : ℤ) + 1) := by
  have hunit : (0 : ℚ) < 2 ^ ((f.bias : ℤ) - f.fracBits) := by positivity
  have hlow : (2 : ℚ) ^ (f.bias : ℤ) = 2 ^ f.fracBits * 2 ^ ((f.bias : ℤ) - f.fracBits) := by
    rw [← zpow_natCast, ← zpow_add₀ (by norm_num), add_sub_cancel]
  have hone : (1 : ℚ) ≤ 2 ^ f.fracBits := one_le_pow₀ (by norm_num)
  rw [zpow_add_one₀ (by norm_num), hlow, Format.overflow, pow_succ]
  constructor
  · exact mul_le_mul_of_nonneg_right (by linarith) hunit.le
  · rw [mul_right_comm]
    exact mul_lt_mul_of_pos_right (by linarith) hunit

/-- The binade of a number m·2^k. -/
theorem two_zpow_log2_le {m : Nat} (k : ℤ) (hm : m ≠ 0) : (2 : ℚ) ^ ((Nat.log2 m : ℤ) + k) ≤ m * 2 ^ k := by
  rw [zpow_add₀ (by norm_num), zpow_natCast]
  exact mul_le_mul_of_nonneg_right (by exact_mod_cast Nat.log2_self_le hm) (by positivity)

theorem lt_two_zpow_log2 (m : Nat) (k : ℤ) : (m : ℚ) * 2 ^ k < 2 ^ ((Nat.log2 m : ℤ) + 1 + k) := by
  rw [zpow_add₀ (by norm_num), ← Nat.cast_add_one, zpow_natCast]
  exact mul_lt_mul_of_pos_right (by exact_mod_cast Nat.lt_log2_self) (by positivity)

/-- In the last binade, a number below overflow is rounded below the carry, and one from overflow on is rounded to it.
-/
theorem Format.roundEven_last_binade (f : Format) (m : Nat) (k : ℤ) :
    m * 2 ^ k < f.overflow ↔ roundEven m (k - (f.bias - f.fracBits)) < 2 ^ (f.fracBits + 1) := by
  have hunit : (0 : ℚ) < 2 ^ ((f.bias : ℤ) - f.fracBits) := by positivity
  have hscaled : (m : ℚ) * 2 ^ k = m * 2 ^ (k - (f.bias - f.fracBits)) * 2 ^ ((f.bias : ℤ) - f.fracBits) := by
    rw [mul_assoc, ← zpow_add₀ (by norm_num), sub_add_cancel]
  obtain ⟨hhalf, heven⟩ := roundEven_half m (k - (f.bias - f.fracBits))
  rw [hscaled, Format.overflow, mul_lt_mul_iff_left₀ hunit]
  generalize (m : ℚ) * 2 ^ (k - ((f.bias : ℤ) - f.fracBits)) = y at *
  generalize roundEven m (k - ((f.bias : ℤ) - f.fracBits)) = r at *
  obtain ⟨hlow, hhigh⟩ := abs_le.1 hhalf
  constructor
  · intro hy
    have hr : (r : ℚ) < (2 ^ (f.fracBits + 1) : ℕ) := by push_cast; linarith
    exact_mod_cast hr
  · intro hr
    by_contra hy
    have hr1 : (r : ℚ) + 1 ≤ 2 ^ (f.fracBits + 1) := by exact_mod_cast hr
    have htie : |y - r| = 1 / 2 := le_antisymm hhalf ((by linarith : (1 : ℚ) / 2 ≤ y - r).trans (le_abs_self _))
    have hr2 : (r : ℚ) + 1 = 2 ^ (f.fracBits + 1) := by linarith
    have hr3 : r + 1 = 2 ^ f.fracBits * 2 := by rw [← pow_succ]; exact_mod_cast hr2
    have := heven htie
    omega

/-- From the least normal on, the significand is the number rounded to F bits after the leading one. -/
theorem Format.significand_of_normal (f : Format) {m : Nat} {k : ℤ} (hnormal : 1 - (f.bias : ℤ) ≤ Nat.log2 m + k) :
    f.significand m k = roundEven m (k - (Nat.log2 m + k - f.fracBits)) := by
  have hunit : f.minExp + f.scale m k = Nat.log2 m + k - f.fracBits := by
    simp only [Format.minExp, Format.scale]
    omega
  rw [Format.significand, hunit]

/-- In the last binade, rounding is finite below the carry, and the infinity with it (40_codec_datapath.md R170). -/
theorem Format.roundTo_last_binade (f : Format) (hexp : 1 < f.expBits) {m : Nat} {k : ℤ} (hm : m ≠ 0)
    (hlast : (Nat.log2 m : ℤ) + k = f.bias) :
    (roundEven m (k - (f.bias - f.fracBits)) < 2 ^ (f.fracBits + 1)
        ∧ f.roundTo m k < f.expOnes * 2 ^ f.fracBits)
    ∨ (¬ roundEven m (k - (f.bias - f.fracBits)) < 2 ^ (f.fracBits + 1)
        ∧ f.roundTo m k = f.expOnes * 2 ^ f.fracBits) := by
  obtain ⟨hones, hbias⟩ := f.expOnes_eq hexp
  rcases f.roundTo_cases k hm with ⟨hsub, -⟩ | ⟨e, r, hnormal, hr, hround⟩
  · omega
  have hge := f.significand_ge hm hnormal
  have hle := f.significand_le m k
  rw [f.significand_of_normal hnormal, hlast] at hge hle
  rcases hr with ⟨rfl, rfl, hcarry⟩ | ⟨rfl, rfl, hcarry⟩
  · rw [hlast] at hcarry hround
    have hfield : ((f.bias : ℤ) + f.bias).toNat = 2 * f.bias := by omega
    have htwo : 2 ^ (f.fracBits + 1) = 2 ^ f.fracBits + 2 ^ f.fracBits := by ring
    rw [if_neg (lt_irrefl _), hfield] at hround
    refine .inl ⟨lt_of_le_of_ne hle hcarry, ?_⟩
    rw [hround, hones, add_mul, one_mul]
    omega
  · rw [add_sub_cancel_right, hlast] at hcarry
    rw [if_pos (by omega)] at hround
    exact .inr ⟨by omega, hround⟩

/-- Above the last binade there is only the infinity. -/
theorem Format.roundTo_above (f : Format) {m : Nat} {k : ℤ} (hm : m ≠ 0) (h : (f.bias : ℤ) < Nat.log2 m + k) :
    f.roundTo m k = f.expOnes * 2 ^ f.fracBits := by
  rcases f.roundTo_cases k hm with ⟨hsub, -⟩ | ⟨e, r, -, hr, hround⟩
  · omega
  · have he : (f.bias : ℤ) < e := by rcases hr with ⟨rfl, -⟩ | ⟨rfl, -⟩ <;> omega
    rw [hround, if_pos he]

/-- Rounding is finite below overflow and the infinity from it on (40_codec_datapath.md R170). -/
theorem Format.roundTo_overflow (f : Format) (hexp : 1 < f.expBits) (m : Nat) (k : ℤ) :
    (m * 2 ^ k < f.overflow → f.roundTo m k < f.expOnes * 2 ^ f.fracBits)
      ∧ (f.overflow ≤ m * 2 ^ k → f.roundTo m k = f.expOnes * 2 ^ f.fracBits) := by
  obtain ⟨hlow, hhigh⟩ := f.overflow_bounds
  by_cases hm : m = 0
  · subst hm
    obtain ⟨hones, hbias⟩ := f.expOnes_eq hexp
    have hoverflow : 0 < f.overflow := (by positivity : (0 : ℚ) < 2 ^ (f.bias : ℤ)).trans_le hlow
    rw [Nat.cast_zero, zero_mul, Format.roundTo, if_pos rfl]
    exact ⟨fun _ => Nat.mul_pos (by omega) (Nat.two_pow_pos _), fun h => absurd hoverflow (not_lt.2 h)⟩
  rcases lt_trichotomy ((Nat.log2 m : ℤ) + k) f.bias with hbelow | hlast | habove
  · have hlt : (m : ℚ) * 2 ^ k < f.overflow :=
      (lt_two_zpow_log2 m k).trans_le ((zpow_le_zpow_right₀ (by norm_num) (by omega)).trans hlow)
    exact ⟨fun _ => f.roundTo_lt hexp hbelow, fun h => absurd hlt (not_lt.2 h)⟩
  · rw [← not_lt, f.roundEven_last_binade]
    rcases f.roundTo_last_binade hexp hm hlast with ⟨hlt, hfin⟩ | ⟨hge, hinf⟩
    · exact ⟨fun _ => hfin, fun h => absurd hlt h⟩
    · exact ⟨fun h => absurd h hge, fun _ => hinf⟩
  · have hge : f.overflow ≤ m * 2 ^ k :=
      hhigh.le.trans ((zpow_le_zpow_right₀ (by norm_num) (by omega)).trans (two_zpow_log2_le k hm))
    exact ⟨fun h => absurd hge (not_le.2 h), fun _ => f.roundTo_above hm habove⟩

/-! ## The number of an encoding, and the encoding of a number -/

/-- The sign bit is no part of the magnitude. -/
theorem Format.exactOf_mod (f : Format) (b : Nat) :
    f.expOf (b % 2 ^ (f.fracBits + f.expBits)) = f.expOf b
      ∧ f.fracOf (b % 2 ^ (f.fracBits + f.expBits)) = f.fracOf b := by
  constructor
  · rw [Format.expOf, Format.expOf, pow_add, Nat.mod_mul_right_div_self, Nat.mod_mod]
  · rw [Format.fracOf, Format.fracOf, Nat.mod_mod_of_dvd _ (Nat.pow_dvd_pow 2 (Nat.le_add_right _ _))]

theorem Format.magnitude_mod (f : Format) (b : Nat) :
    f.magnitude (b % 2 ^ (f.fracBits + f.expBits)) = f.magnitude b := by
  obtain ⟨hexp, hfrac⟩ := f.exactOf_mod b
  simp only [Format.magnitude, Format.exactOf, hexp, hfrac]

/-- An encoding is its sign with its other bits. -/
theorem Format.signed_mod (f : Format) {b : Nat} (hb : b < 2 ^ (f.fracBits + f.expBits + 1)) :
    f.signed (f.signOf b) (b % 2 ^ (f.fracBits + f.expBits)) = b := by
  have hdiv := Nat.div_add_mod b (2 ^ (f.fracBits + f.expBits))
  have hlt : b / 2 ^ (f.fracBits + f.expBits) < 2 :=
    Nat.div_lt_of_lt_mul (by rwa [pow_succ] at hb)
  rw [Format.signed, Format.signOf, Nat.testBit_eq_decide_div_mod_eq]
  interval_cases h : b / 2 ^ (f.fracBits + f.expBits) <;> simp at hdiv ⊢ <;> omega

theorem Format.magnitude_zero (f : Format) : f.magnitude 0 = 0 := by
  simp [Format.magnitude, Format.exactOf, Format.expOf, Format.fracOf]

/-- A finite number of a format is its significand at its scale, which is at most 2·bias − 1. -/
theorem Format.magnitude_eq (f : Format) (b : Nat) :
    f.magnitude b = (f.exactOf b).mant * 2 ^ (f.minExp + ((max (f.expOf b) 1 - 1 : ℕ) : ℤ)) := by
  have hexp : (f.exactOf b).exp = f.minExp + ((max (f.expOf b) 1 - 1 : ℕ) : ℤ) := by
    simp only [Format.exactOf, Format.minExp]
    omega
  rw [Format.magnitude, hexp]

/-- Every finite number of a format is below overflow. -/
theorem Format.magnitude_lt_overflow (f : Format) (hexp : 1 < f.expBits) {b : Nat} (hb : f.expOf b ≠ f.expOnes) :
    f.magnitude b < f.overflow := by
  obtain ⟨hones, hbias⟩ := f.expOnes_eq hexp
  have hfield : f.expOf b ≤ f.expOnes := Nat.le_sub_one_of_lt (Nat.mod_lt _ (Nat.two_pow_pos _))
  have hmant : ((f.exactOf b).mant : ℚ) + 1 ≤ 2 ^ (f.fracBits + 1) := by exact_mod_cast f.exactOf_mant_lt b
  have hscale : (2 : ℚ) ^ (f.minExp + ((max (f.expOf b) 1 - 1 : ℕ) : ℤ)) ≤ 2 ^ ((f.bias : ℤ) - f.fracBits) := by
    refine zpow_le_zpow_right₀ (by norm_num) ?_
    simp only [Format.minExp]
    omega
  rw [f.magnitude_eq, Format.overflow]
  exact (mul_le_mul_of_nonneg_left hscale (by positivity)).trans_lt
    (mul_lt_mul_of_pos_right (by linarith) (by positivity))

/-- An encoding without its sign is the number d·2^F + R of its significand R and its scale d, R below the hidden one
only at scale 0. -/
theorem Format.eq_scaled (f : Format) {b : Nat} (hb : b < 2 ^ (f.fracBits + f.expBits)) :
    b = (max (f.expOf b) 1 - 1) * 2 ^ f.fracBits + (f.exactOf b).mant
      ∧ (0 < max (f.expOf b) 1 - 1 → 2 ^ f.fracBits ≤ (f.exactOf b).mant) := by
  have hfield : f.expOf b = b / 2 ^ f.fracBits :=
    Nat.mod_eq_of_lt (Nat.div_lt_of_lt_mul (by rwa [← pow_add]))
  have hdiv := Nat.div_add_mod' b (2 ^ f.fracBits)
  simp only [Format.exactOf, Format.fracOf, hfield]
  generalize b / 2 ^ f.fracBits = E at *
  cases E with
  | zero => simp at hdiv ⊢; omega
  | succ E =>
    rw [add_mul, one_mul] at hdiv
    simp
    omega

/-- Two encodings without a sign that denote the same number are the same. -/
theorem Format.magnitude_injective (f : Format) {b c : Nat} (hb : b < 2 ^ (f.fracBits + f.expBits))
    (hc : c < 2 ^ (f.fracBits + f.expBits)) (h : f.magnitude b = f.magnitude c) : b = c := by
  have hscale {b c : Nat} (hc : c < 2 ^ (f.fracBits + f.expBits)) (h : f.magnitude b = f.magnitude c) :
      max (f.expOf c) 1 - 1 ≤ max (f.expOf b) 1 - 1 := by
    by_contra hlt
    rw [not_le] at hlt
    have hbinade := f.lt_binade (f.exactOf_mant_lt b) hlt
    rw [← f.magnitude_eq, h, f.magnitude_eq] at hbinade
    have hmant := (f.eq_scaled hc).2 (by omega)
    exact absurd (Nat.cast_lt.1 (lt_of_mul_lt_mul_right hbinade (by positivity))) (not_lt.2 hmant)
  have hsame := le_antisymm (hscale hb h.symm) (hscale hc h)
  rw [f.magnitude_eq, f.magnitude_eq, hsame] at h
  have hmant : (f.exactOf b).mant = (f.exactOf c).mant :=
    Nat.cast_injective (mul_right_cancel₀ (zpow_ne_zero _ two_ne_zero) h)
  rw [(f.eq_scaled hb).1, (f.eq_scaled hc).1, hsame, hmant]

/-- A number that a finite encoding denotes is rounded to a finite encoding that denotes it. -/
theorem Format.roundTo_of_magnitude (f : Format) (hexp : 1 < f.expBits) (hfrac : 0 < f.fracBits) {b m : Nat} {k : ℤ}
    (hb : f.expOf b ≠ f.expOnes) (h : f.magnitude b = m * 2 ^ k) :
    f.roundTo m k < f.expOnes * 2 ^ f.fracBits ∧ f.magnitude (f.roundTo m k) = m * 2 ^ k := by
  have hfin := (f.roundTo_overflow hexp m k).1 (h ▸ f.magnitude_lt_overflow hexp hb)
  have hnear := (f.roundTo_nearest hfrac hfin b).1
  rw [h, sub_self, abs_zero] at hnear
  exact ⟨hfin, (sub_eq_zero.1 (abs_nonpos_iff.1 hnear)).symm⟩

/-- A number that an encoding denotes is rounded to that encoding. -/
theorem Format.roundTo_eq_of_magnitude (f : Format) (hexp : 1 < f.expBits) (hfrac : 0 < f.fracBits) {b m : Nat} {k : ℤ}
    (hb : f.expOf b ≠ f.expOnes) (h : f.magnitude b = m * 2 ^ k) :
    f.roundTo m k = b % 2 ^ (f.fracBits + f.expBits) := by
  obtain ⟨hfin, hround⟩ := f.roundTo_of_magnitude hexp hfrac hb h
  have hones : f.expOnes * 2 ^ f.fracBits < 2 ^ (f.fracBits + f.expBits) := by
    rw [pow_add, mul_comm]
    exact Nat.mul_lt_mul_of_pos_left (Nat.sub_lt (Nat.two_pow_pos _) (by decide)) (Nat.two_pow_pos _)
  refine f.magnitude_injective (hfin.trans hones) (Nat.mod_lt _ (Nat.two_pow_pos _)) ?_
  rw [hround, f.magnitude_mod, h]

/-! ## Binary32 patterns with a sign -/

/-- The number a binary32 pattern denotes is its magnitude with its sign. -/
theorem real32_eq_magnitude (w : Word) :
    real32 w = signFactor (binary32.signOf w.toNat) * binary32.magnitude w.toNat := real32_eq w

/-- The word of a binary32's sign and other bits. -/
theorem binary32_signed_toNat (neg : Bool) {rest : Nat} (h : rest < 2 ^ 31) :
    (BitVec.ofNat 64 (binary32.signed neg rest)).toNat = (if neg then 2 ^ 31 else 0) + rest := by
  have hval : binary32.signed neg rest = (if neg then 2 ^ 31 else 0) + rest := rfl
  rw [BitVec.toNat_ofNat, hval, Nat.mod_eq_of_lt (by cases neg <;> simp <;> omega)]

/-- The sign bit and the last bit of a binary32. -/
theorem binary32_signed_bits (neg : Bool) {rest : Nat} (h : rest < 2 ^ 31) :
    (BitVec.ofNat 64 (binary32.signed neg rest)).getLsbD 31 = neg
      ∧ ((BitVec.ofNat 64 (binary32.signed neg rest)).getLsbD 0 = false ↔ rest % 2 = 0) := by
  rw [BitVec.getLsbD, BitVec.getLsbD, binary32_signed_toNat neg h, Nat.testBit_eq_decide_div_mod_eq,
    Nat.testBit_eq_decide_div_mod_eq]
  cases neg <;> simp <;> omega

/-- The binary32 of a sign and a finite encoding: what it denotes. -/
theorem binary32_signed (neg : Bool) {rest : Nat} (h : rest < binary32.expOnes * 2 ^ binary32.fracBits) :
    Finite32 (BitVec.ofNat 64 (binary32.signed neg rest))
      ∧ real32 (BitVec.ofNat 64 (binary32.signed neg rest)) = signFactor neg * binary32.magnitude rest := by
  have hlt : rest < 255 * 2 ^ 23 := h
  have hnat := binary32_signed_toNat neg (by omega : rest < 2 ^ 31)
  have hsign : binary32.signOf (BitVec.ofNat 64 (binary32.signed neg rest)).toNat = neg :=
    (binary32_signed_bits neg (by omega)).1
  have hmod :
      (BitVec.ofNat 64 (binary32.signed neg rest)).toNat % 2 ^ (binary32.fracBits + binary32.expBits) = rest := by
    rw [hnat]
    simp only [binary32]
    cases neg <;> simp <;> omega
  refine ⟨⟨?_, fun hones => ?_⟩, ?_⟩
  · rw [hnat]
    cases neg <;> simp <;> omega
  · have := congrArg BitVec.toNat hones
    rw [BitVec.extractLsb'_toNat, hnat, Nat.shiftRight_eq_div_pow] at this
    cases neg <;> simp at this <;> omega
  · rw [real32_eq_magnitude, hsign, ← binary32.magnitude_mod, hmod]

/-- A finite value is narrowed by rounding its magnitude and keeping its sign (40_codec_datapath.md R147, R170). -/
theorem narrow32_of_finite {x : Word} (h : Finite64 x) :
    narrow32 x
      = BitVec.ofNat 64
          (binary32.signed (binary64.signOf x.toNat)
            (binary32.roundTo (binary64.exactOf x.toNat).mant (binary64.exactOf x.toNat).exp)) := by
  have hexp := (finite64_iff x).1 h
  have hnan : binary64.isNaN x.toNat = false := by simp [Format.isNaN, hexp]
  have hinf : binary64.isInf x.toNat = false := by simp [Format.isInf, hexp]
  simp only [narrow32, hnan, hinf, Bool.false_eq_true, if_false, Format.exactOf]

/-- A rounded binary32 leaves the sign bit free. -/
theorem binary32_roundTo_lt (m : Nat) (k : ℤ) : binary32.roundTo m k < 2 ^ 31 := by
  have hinf : binary32.expOnes * 2 ^ binary32.fracBits = 255 * 2 ^ 23 := rfl
  rcases lt_or_ge ((m : ℚ) * 2 ^ k) binary32.overflow with hlt | hge
  · have := (binary32.roundTo_overflow (by decide) m k).1 hlt
    omega
  · have := (binary32.roundTo_overflow (by decide) m k).2 hge
    omega

/-- Half a unit above the largest binary32 (40_codec_datapath.md R170). -/
theorem binary32_overflow : binary32.overflow = 2 ^ 128 - 2 ^ 103 := by
  have hbias : binary32.bias = 127 := rfl
  rw [Format.overflow, hbias]
  norm_num [binary32]

/-! ## Narrowing a widened pattern -/

/-- A binary32 pattern that is no NaN is finite or one of the two infinities (00_scope.md R17). -/
theorem finite32_or_infinity {p : Word} (hp : p.toNat < 2 ^ 32) (hnan : ¬ NaN32 p) :
    Finite32 p ∨ p = 0x7F800000 ∨ p = 0xFF800000 := by
  by_cases hexp : p.extractLsb' 23 8 = 0xFF
  · have hfrac : p.extractLsb' 0 23 = 0 := by
      by_contra hne
      exact hnan ⟨hexp, hne⟩
    have hexp' := congrArg BitVec.toNat hexp
    have hfrac' := congrArg BitVec.toNat hfrac
    simp [Nat.shiftRight_eq_div_pow] at hexp' hfrac'
    right
    simp only [← BitVec.toNat_inj, BitVec.ofNat_eq_ofNat, BitVec.toNat_ofNat]
    omega
  · exact .inl ⟨hp, hexp⟩

/-- The exponent field of a finite binary32 is not all ones. -/
theorem expOf_ne_of_finite32 {p : Word} (h : Finite32 p) : binary32.expOf p.toNat ≠ binary32.expOnes := by
  intro hones
  apply h.2
  rw [← BitVec.toNat_inj]
  simpa [Format.expOf, Format.expOnes, binary32, Nat.shiftRight_eq_div_pow] using hones

/-- Narrowing gives back a finite pattern that was widened: the number is the pattern's own, and it is rounded to the
encoding that denotes it. -/
theorem narrow32_widen32_of_finite {p : Word} (h : Finite32 p) : narrow32 (widen32 p) = p := by
  obtain ⟨hfin, hexact⟩ := magnitude_roundTo_exactOf p
  obtain ⟨hfinite, hreal, hsign, -⟩ := binary64_signed (binary32.exactOf p.toNat).neg hfin
  rw [← widen32_of_finite h] at hfinite hreal hsign
  have hneg : binary64.signOf (widen32 p).toNat = binary32.signOf p.toNat := hsign
  have hmag : binary32.magnitude p.toNat
      = (binary64.exactOf (widen32 p).toNat).mant * 2 ^ (binary64.exactOf (widen32 p).toNat).exp := by
    rw [real64_eq_magnitude, hexact] at hreal
    have hfactor : signFactor (binary32.exactOf p.toNat).neg ≠ 0 := by
      rw [← abs_ne_zero, abs_signFactor]
      exact one_ne_zero
    rw [hneg] at hreal
    exact (mul_left_cancel₀ hfactor hreal).symm
  rw [narrow32_of_finite hfinite, hneg,
    binary32.roundTo_eq_of_magnitude (by decide) (by decide) (expOf_ne_of_finite32 h) hmag, binary32.signed_mod h.1,
    BitVec.ofNat_toNat, BitVec.setWidth_eq]

/-- Narrowing gives back every widened pattern that is no NaN (40_codec_datapath.md section 7). -/
theorem narrow32_widen32 {p : Word} (hp : p.toNat < 2 ^ 32) (hnan : ¬ NaN32 p) : narrow32 (widen32 p) = p := by
  rcases finite32_or_infinity hp hnan with hfinite | rfl | rfl
  · exact narrow32_widen32_of_finite hfinite
  · decide
  · decide

/-! ## Decimals -/

/-- The significand and the exponent the decimal test looks at: those of the encoding of the scaled digits. -/
theorem mant_eq_iff_magnitude_eq (b m : Nat) :
    (binary64.exactOf b).mant * 2 ^ ((binary64.exactOf b).exp + 1074).toNat = m
      ↔ binary64.magnitude b = m * 2 ^ (-1074 : ℤ) := by
  have hmin : binary64.minExp = -1074 := rfl
  have hexp : ((binary64.exactOf b).exp + 1074).toNat = (binary64.exactOf b).exp + 1074 := by
    have hb : binary64.bias = 1023 := rfl
    have hw : binary64.fracBits = 52 := rfl
    simp only [Format.exactOf, hb, hw]
    omega
  have hmag : binary64.magnitude b
      = ((binary64.exactOf b).mant * 2 ^ ((binary64.exactOf b).exp + 1074).toNat : ℕ) * 2 ^ (-1074 : ℤ) := by
    rw [Nat.cast_mul, Nat.cast_pow, Nat.cast_ofNat, ← zpow_natCast, hexp, mul_assoc, ← zpow_add₀ (by norm_num),
      add_neg_cancel_right]
    rfl
  rw [hmag]
  exact ⟨fun h => by rw [h], fun h => Nat.cast_injective (mul_right_cancel₀ (zpow_ne_zero _ two_ne_zero) h)⟩

/-- Every finite binary64 is a whole multiple of 2^−1074, the least subnormal (00_scope.md R17). -/
theorem exists_magnitude_eq_mul (b : Nat) : ∃ n : ℕ, binary64.magnitude b = n * 2 ^ (-1074 : ℤ) := by
  exact ⟨_, (mant_eq_iff_magnitude_eq b _).1 rfl⟩

/-- The digits scaled to units of 2^−1074 are a whole number of them exactly when the decimal is. -/
theorem decimal_eq_iff (digits places n e : Nat) :
    (digits : ℚ) / 10 ^ places = n * 2 ^ (-(e : ℤ)) ↔ digits * 2 ^ e = n * 10 ^ places := by
  have hten : (10 : ℚ) ^ places ≠ 0 := by positivity
  have htwo : (2 : ℚ) ^ e ≠ 0 := by positivity
  rw [zpow_neg, zpow_natCast, ← div_eq_mul_inv, div_eq_div_iff hten htwo]
  exact_mod_cast Iff.rfl

/-- A decimal that has an encoding is the number of that encoding, with the sign written. -/
theorem decimalBits_eq_some {neg : Bool} {digits places : Nat} {w : Word} (h : decimalBits neg digits places = some w) :
    ∃ b, b < binary64.expOnes * 2 ^ binary64.fracBits ∧ binary64.magnitude b = (digits : ℚ) / 10 ^ places
      ∧ w = BitVec.ofNat 64 (binary64.signed neg b) := by
  simp only [decimalBits, Option.ite_none_right_eq_some] at h
  obtain ⟨⟨hwhole, hfin, hback⟩, hw⟩ := h
  refine ⟨_, hfin, ?_, (Option.some.inj hw).symm⟩
  rw [(mant_eq_iff_magnitude_eq _ _).1 hback]
  exact ((decimal_eq_iff _ _ _ 1074).2 (Nat.div_mul_cancel (Nat.dvd_of_mod_eq_zero hwhole)).symm).symm

/-- A decimal that is the number of a finite encoding has one. -/
theorem decimalBits_ne_none {neg : Bool} {digits places b : Nat} (hb : binary64.expOf b ≠ binary64.expOnes)
    (h : binary64.magnitude b = (digits : ℚ) / 10 ^ places) : decimalBits neg digits places ≠ none := by
  obtain ⟨n, hn⟩ := exists_magnitude_eq_mul b
  have hscaled := (decimal_eq_iff digits places n 1074).1 (h.symm.trans hn)
  have hten : 0 < 10 ^ places := Nat.pow_pos (by decide)
  obtain ⟨hfin, hround⟩ := binary64.roundTo_of_magnitude (by decide) (by decide) hb hn
  have hexact : digits * 2 ^ 1074 % 10 ^ places = 0 := by rw [hscaled, Nat.mul_mod_left]
  have hquot : digits * 2 ^ 1074 / 10 ^ places = n := by rw [hscaled, Nat.mul_div_cancel _ hten]
  unfold decimalBits
  rw [if_pos]
  · exact Option.some_ne_none _
  · rw [hquot]
    exact ⟨hexact, hfin, (mant_eq_iff_magnitude_eq _ _).2 hround⟩

end Sys2Proof.Machine
end

section
namespace Sys2Proof.Proofs

open Sys2Proof Sys2Proof.Machine

/-- Settles O41: narrowing rounds the magnitude and keeps the sign (`narrow32_of_finite`); below overflow it is the
nearest encoding (`Format.roundTo_nearest`, carried to signed numbers by `NearestEven.signed`), and from overflow on
the infinity (`Format.roundTo_overflow`). -/
theorem narrowNearestEven : Obligations.NarrowNearestEven := by
  unfold Obligations.NarrowNearestEven
  intro x hx
  obtain ⟨hfinite, hinf⟩ :=
    binary32.roundTo_overflow (by decide) (binary64.exactOf x.toNat).mant (binary64.exactOf x.toNat).exp
  have hrest := binary32_roundTo_lt (binary64.exactOf x.toNat).mant (binary64.exactOf x.toNat).exp
  obtain ⟨hsign, heven⟩ := binary32_signed_bits (binary64.signOf x.toNat) hrest
  have habs : |real64 x| = (binary64.exactOf x.toNat).mant * 2 ^ (binary64.exactOf x.toNat).exp := by
    rw [real64_eq_magnitude, abs_mul, abs_signFactor, one_mul, abs_of_nonneg (binary64.magnitude_nonneg _)]
    rfl
  rw [narrow32_of_finite hx, ← binary32_overflow, habs]
  refine ⟨hsign, fun hlt => ?_, fun hge => ?_⟩
  · have hfin := hfinite hlt
    obtain ⟨hfinite32, hreal⟩ := binary32_signed (binary64.signOf x.toNat) hfin
    refine ⟨hfinite32, fun y _ => ?_⟩
    rw [hreal, heven, real64_eq_magnitude, real32_eq_magnitude y]
    have hnear := binary32.roundTo_nearest (by decide) hfin y.toNat
    refine hnear.signed _ _ (by positivity) (binary32.magnitude_nonneg _) fun hzero => ?_
    have hzero' := (binary32.roundTo_nearest (by decide) hfin 0).1
    rw [hzero, binary32.magnitude_zero, sub_self, abs_zero, zero_sub, abs_neg] at hzero'
    exact abs_nonpos_iff.1 hzero'
  · rw [hinf hge]
    have hbit : x.getLsbD 63 = binary64.signOf x.toNat := rfl
    rw [hbit]
    cases binary64.signOf x.toNat <;> rfl

/-- Settles O45: what a decimal is encoded to is its number (`decimalBits_eq_some`), and where a binary64 has that
number it is encoded (`decimalBits_ne_none`), the signs aside, which an absolute value drops. -/
theorem decimalLiteralExact : Obligations.DecimalLiteralExact := by
  unfold Obligations.DecimalLiteralExact
  intro neg digits places
  refine ⟨fun b hb => ?_, fun hnone b hfinite hreal => ?_⟩
  · obtain ⟨rest, hfin, hmag, rfl⟩ := decimalBits_eq_some hb
    obtain ⟨hfinite, hreal, hsign, -⟩ := binary64_signed neg hfin
    exact ⟨hfinite, hsign, by rw [hreal, hmag, signFactor, mul_div_assoc]⟩
  · refine decimalBits_ne_none ((finite64_iff b).1 hfinite) ?_ hnone
    have habs := congrArg abs hreal
    rwa [real64_eq_magnitude, mul_div_assoc, ← signFactor, abs_mul, abs_mul, abs_signFactor, abs_signFactor, one_mul,
      one_mul, abs_of_nonneg (binary64.magnitude_nonneg _), abs_of_nonneg (by positivity)] at habs

end Sys2Proof.Proofs
end

/-! # The codec commands: what they write (41_codec_commands.md), and encoding then decoding (40_codec_datapath.md
section 7) -/

section
namespace Sys2Proof.Machine

/-! ## Type-width words -/

/-- The type-width word of an integer is its two's complement in W bits (40_codec_datapath.md R145). -/
theorem ofNat_emod_eq (n : ℤ) (k : Nat) : BitVec.ofNat 64 (n % 2 ^ k).toNat = (BitVec.ofInt k n).setWidth 64 := by
  rw [← BitVec.ofNat_toNat, BitVec.toNat_ofInt]
  norm_cast

theorem toNat_ofNat_emod_lt (n : ℤ) (k : Nat) : (BitVec.ofNat 64 (n % 2 ^ k).toNat).toNat < 2 ^ k := by
  rw [ofNat_emod_eq, BitVec.toNat_setWidth]
  exact (Nat.mod_le _ _).trans_lt (BitVec.ofInt k n).isLt

/-- An integer type takes a finite value to its rounding, mod 2^W (40_codec_datapath.md R145, R146). -/
theorem typeWord_integer {t : DataType} {x : Word} (ht : isFloat t = false) (hx : Finite64 x) :
    typeWord t x = .ok (BitVec.ofNat 64 (roundHalfAwayQ (real64 x) % 2 ^ typeWidth t).toNat) := by
  have hexp := (finite64_iff x).1 hx
  rw [← Proofs.roundHalfAwayExact x hx]
  cases t with
  | f32 | f64 => cases ht
  | flag | u8 | s8 | u16 | s16 | u32 | s32 | u64 | s64 => simp [typeWord, Format.isNaN, Format.isInf, hexp]

/-- The type-width word of a value its type accepts is the spec's, with the rounding over the rationals. -/
theorem typeWord_eq_valueWord {t : DataType} {x : Word} (hx : isFloat t = false → Finite64 x) :
    typeWord t x = .ok (valueWord t x) := by
  cases t with
  | f32 | f64 => rfl
  | flag | u8 | s8 | u16 | s16 | u32 | s32 | u64 | s64 => exact typeWord_integer rfl (hx rfl)

/-- A narrowed pattern has 32 bits. -/
theorem narrow32_toNat_lt (x : Word) : (narrow32 x).toNat < 2 ^ 32 := by
  have hsigned (neg : Bool) {rest : Nat} (hrest : rest < 2 ^ 31) :
      (BitVec.ofNat 64 (binary32.signed neg rest)).toNat < 2 ^ 32 := by
    rw [binary32_signed_toNat neg hrest]
    cases neg <;> simp <;> omega
  unfold narrow32
  split_ifs
  · rw [nan64to32_eq]
    generalize x.extractLsb' 29 23 ||| 0x400000 = g
    have hg := g.isLt
    have hsign := (x.extractLsb' 63 1).isLt
    rw [toNat_append_eq_add, toNat_append_eq_add, toNat_append_eq_add]
    simp
    omega
  · exact hsigned _ (by decide)
  · exact hsigned _ (binary32_roundTo_lt _ _)

/-- A type-width word has its type's width (40_codec_datapath.md R143). -/
theorem typeWord_toNat_lt {t : DataType} {x w : Word} (h : typeWord t x = .ok w) : w.toNat < 2 ^ typeWidth t := by
  cases t with
  | f32 =>
    cases h
    exact narrow32_toNat_lt x
  | f64 => exact w.isLt
  | flag | u8 | s8 | u16 | s16 | u32 | s32 | u64 | s64 =>
    simp only [typeWord] at h
    split_ifs at h
    cases h
    exact toNat_ofNat_emod_lt _ _

/-! ## The Motorola swap -/

/-- A type that is swapped is a whole number of bytes wide, at most eight. -/
theorem typeWidth_of_swapApplies {m : MotoSwap} {t : DataType} {e : Endian} (h : swapApplies m t e = true) :
    typeWidth t / 8 ≤ 8 ∧ 8 * (typeWidth t / 8) = typeWidth t := by
  obtain ⟨-, hwide, -⟩ := (swapApplies_iff m t e).1 h
  cases t with
  | flag | u8 | s8 => exact absurd hwide (by decide)
  | u16 | s16 | u32 | s32 | u64 | s64 | f32 | f64 => decide

/-- The swap keeps a word within its type's width. -/
theorem motoSwapWord_toNat_lt {m : MotoSwap} {t : DataType} {e : Endian} {w : Word} (hw : w.toNat < 2 ^ typeWidth t) :
    (motoSwapWord m t e w).toNat < 2 ^ typeWidth t := by
  unfold motoSwapWord
  split
  next h =>
    obtain ⟨hbytes, hwidth⟩ := typeWidth_of_swapApplies h
    have := bswap_toNat_lt hbytes w
    rwa [hwidth] at this
  next => exact hw

/-- The swap after extraction undoes the swap before placement (40_codec_datapath.md R163). -/
theorem motoSwapWord_motoSwapWord {m : MotoSwap} {t : DataType} {e : Endian} {w : Word}
    (hw : w.toNat < 2 ^ typeWidth t) : motoSwapWord m t e (motoSwapWord m t e w) = w := by
  unfold motoSwapWord
  split
  next h =>
    obtain ⟨hbytes, hwidth⟩ := typeWidth_of_swapApplies h
    rw [bswap_bswap hbytes, hwidth, and_lowMask_of_lt hw]
  next => rfl

/-- A stored word is a type-width word, swapped where the build swaps. -/
theorem storedWord_eq_ok {m : MotoSwap} {f : FieldSpec} {x w : Word} :
    storedWord m f x = .ok w ↔ ∃ v, typeWord f.dtype x = .ok v ∧ w = motoSwapWord m f.dtype f.endian v := by
  unfold storedWord
  cases typeWord f.dtype x with
  | error e => simp
  | ok v => simp [eq_comm]

/-- A stored word has its type's width. -/
theorem storedWord_toNat_lt {m : MotoSwap} {f : FieldSpec} {x w : Word} (h : storedWord m f x = .ok w) :
    w.toNat < 2 ^ typeWidth f.dtype := by
  obtain ⟨v, hv, rfl⟩ := storedWord_eq_ok.1 h
  exact motoSwapWord_toNat_lt (typeWord_toNat_lt hv)

/-! ## Encoding and decoding a field in range -/

/-- An encode of a field in range places the type-width word, swapped where the build swaps. -/
theorem encodeWord_of_typeWord {m : MotoSwap} {c : Cfg} {t : DataType} {x v : Word} (ht : dataTypeOf c.dtype = some t)
    (hlegal : (c.field t).Legal) (hv : typeWord t x = .ok v) :
    encodeWord m c x = .ok (place (c.field t) (motoSwapWord m t c.endian v)) := by
  have hstored : storedWord m (c.field t) x = .ok (motoSwapWord m t c.endian v) := storedWord_eq_ok.2 ⟨v, hv, rfl⟩
  simp only [encodeWord, checkSpec_ok ht hlegal, hstored]

/-- A decode of a field in range reads the field's word as its type. -/
theorem decodeWord_of_legal {m : MotoSwap} {c : Cfg} {t : DataType} (p : Word) (ht : dataTypeOf c.dtype = some t)
    (hlegal : (c.field t).Legal) :
    decodeWord m c p
      = .ok (resultWordOf t (fieldWord m (c.field t) p), resultValueOf t (fieldWord m (c.field t) p)) := by
  simp only [decodeWord, checkSpec_ok ht hlegal]
  rfl

/-- ENCODE_FRAME of a field in range and an id that fits completes with the placed word (41_codec_commands.md R193). -/
theorem exec_encodeFrame_of_typeWord {s : State} {t : DataType} {v : Word} (ht : dataTypeOf s.cfg.dtype = some t)
    (hlegal : (s.cfg.field t).Legal) (hv : typeWord t s.value = .ok v)
    (hid : s.cfg.sigExt = false → s.cfg.sigId.toNat ≤ 0x7FF) :
    exec .encodeFrame s = .next
      { s with
        payloadOut := place (s.cfg.field t) (motoSwapWord s.params.motoSwap t s.cfg.endian v)
        frameId := s.cfg.sigId
        frameCtl := ⟨8, s.cfg.sigExt, false⟩
        frameData := place (s.cfg.field t) (motoSwapWord s.params.motoSwap t s.cfg.endian v)
        frameTs := s.tsIn
        status := ⟨0, 0, 0x03, s.status.sticky⟩ } := by
  simp only [exec, execEncodeFrame, encodeWord_of_typeWord ht hlegal hv, idTooWide_eq_false hid, Bool.false_eq_true,
    if_false, State.finish_ok]
  rfl

/-- An ENCODE_FRAME that leaves CODE 0 has encoded VALUE, under an id that fits. -/
theorem execEncodeFrame_of_code_zero {s t : State} (h : execEncodeFrame s = .next t) (hcode : t.status.code = 0) :
    ∃ p, encodeWord s.params.motoSwap s.cfg s.value = .ok p ∧ idTooWide s.cfg.sigExt s.cfg.sigId = false
      ∧ t = State.complete
          { s with
            payloadOut := p
            frameId := s.cfg.sigId
            frameCtl := { dlc := 8, ext := s.cfg.sigExt, rtr := false }
            frameData := p
            frameTs := s.tsIn } 0x03 := by
  rcases execEncodeFrame_cases h with hdone | ⟨e, _, rfl⟩ | ⟨_, _, _, rfl⟩
  · exact hdone
  · exact absurd hcode e.code.number_ne_zero
  · exact absurd hcode ErrorCode.frameInvalid.number_ne_zero

/-! ## Values that come back -/

/-- A word of n bits is whole under a mask that covers them. -/
theorem and_eq_of_covers {m w : Word} {n : Nat} (hcover : m &&& lowMask n = lowMask n) (hw : w.toNat < 2 ^ n) :
    w &&& m = w := by
  rw [← and_lowMask_of_lt hw, BitVec.and_assoc, BitVec.and_comm _ m, hcover]

/-- R15's rounding leaves an integer as it is. -/
theorem roundHalfAwayQ_intCast (n : ℤ) : roundHalfAwayQ (n : ℚ) = n := by
  have hfloor (k : ℤ) : ⌊(k : ℚ) + 1 / 2⌋ = k := by
    rw [Int.floor_intCast_add]
    norm_num
  unfold roundHalfAwayQ
  split
  · exact hfloor n
  · rw [← Int.cast_neg, hfloor, neg_neg]

/-- The integers of a type's range, with the model's widths and classes (40_codec_datapath.md R168). -/
theorem inTypeRange_iff (t : DataType) (n : ℤ) :
    inTypeRange t n
      ↔ if isSigned t then -(2 ^ (typeWidth t - 1)) ≤ n ∧ n < 2 ^ (typeWidth t - 1)
        else 0 ≤ n ∧ n < 2 ^ typeWidth t := by
  simp only [inTypeRange, typeRow_eq, isSigned_iff]

/-- An integer of any type's range has at most 65 bits. -/
theorem abs_le_of_inTypeRange {t : DataType} {n : ℤ} (h : inTypeRange t n) : |n| ≤ 2 ^ 64 := by
  have hpow {k : Nat} (hk : k ≤ 64) : (2 : ℤ) ^ k ≤ 2 ^ 64 := pow_le_pow_right₀ (by decide) hk
  have hwidth := hpow (typeWidth_le t)
  have hhalf := hpow ((Nat.sub_le (typeWidth t) 1).trans (typeWidth_le t))
  rw [inTypeRange_iff] at h
  rw [abs_le]
  split at h <;> constructor <;> linarith

/-- The word of an integer of its type's range is decoded to that integer (40_codec_datapath.md R164, R165). -/
theorem decoded_integer {t : DataType} {n : ℤ} (ht : isFloat t = false) (hn : inTypeRange t n) :
    resultWordOf t (BitVec.ofNat 64 (n % 2 ^ typeWidth t).toNat) = BitVec.ofInt 64 n
      ∧ resultValueOf t (BitVec.ofNat 64 (n % 2 ^ typeWidth t).toNat) = toBinary64 n := by
  have hfloat : t ∉ [DataType.f32, .f64] := by
    rw [← isFloat_iff, ht]
    decide
  rw [inTypeRange_iff] at hn
  rw [resultValueOf_integer hfloat, resultWordOf]
  cases hs : isSigned t with
  | true =>
    rw [hs, if_pos rfl] at hn
    have hw := toNat_ofNat_emod_lt n (typeWidth t)
    have hint : (BitVec.ofInt (typeWidth t) n).toInt = n := BitVec.toInt_ofInt_eq_self (typeWidth_pos t) hn.1 hn.2
    rw [if_pos rfl, if_pos rfl, sext64_eq_signExtend (typeWidth_pos t) (typeWidth_le t) hw,
      signedOf_eq_toInt (typeWidth_pos t) hw, ofNat_emod_eq, BitVec.setWidth_setWidth_of_le _ (typeWidth_le t),
      BitVec.setWidth_eq, BitVec.signExtend, hint]
    exact ⟨rfl, rfl⟩
  | false =>
    rw [hs, if_neg Bool.false_ne_true] at hn
    obtain ⟨hnonneg, hlt⟩ := hn
    rw [if_neg Bool.false_ne_true, if_neg Bool.false_ne_true, Int.emod_eq_of_lt hnonneg hlt]
    obtain ⟨k, rfl⟩ := Int.eq_ofNat_of_zero_le hnonneg
    have hk : k < 2 ^ 64 :=
      (show k < 2 ^ typeWidth t by exact_mod_cast hlt).trans_le (Nat.pow_le_pow_right (by decide) (typeWidth_le t))
    rw [Int.toNat_natCast, BitVec.toNat_ofNat, Nat.mod_eq_of_lt hk, BitVec.ofInt_natCast]
    exact ⟨rfl, rfl⟩

/-- An integer of its type's range that VALUE holds is its own rounding (40_codec_datapath.md R145). -/
theorem typeWord_toBinary64 {t : DataType} {n : ℤ} (ht : isFloat t = false) (hn : inTypeRange t n)
    (hreal : real64 (toBinary64 n) = n) :
    typeWord t (toBinary64 n) = .ok (BitVec.ofNat 64 (n % 2 ^ typeWidth t).toNat) := by
  have hfinite : Finite64 (toBinary64 n) :=
    (binary64_signed (decide (n < 0)) (roundTo_natAbs_lt (abs_le_of_inTypeRange hn))).1
  rw [typeWord_integer ht hfinite, hreal, roundHalfAwayQ_intCast]

end Sys2Proof.Machine
end

section
namespace Sys2Proof.Proofs

open Sys2Proof Sys2Proof.Machine

/-- Settles O28: the encode places the value's type-width word (`encodeWord_of_typeWord`), which is
`typeWord_eq_valueWord`. -/
theorem encodeWritesPayload : Obligations.EncodeWritesPayload := by
  unfold Obligations.EncodeWritesPayload
  intro s t ht hlegal hfinite
  have hencode := encodeWord_of_typeWord (m := s.params.motoSwap) ht hlegal (typeWord_eq_valueWord hfinite)
  simp only [exec, execEncode, hencode, State.finish_ok]
  rfl

/-- Settles O29: the command is `exec_encodeFrame_of_typeWord`, of the word `typeWord_eq_valueWord`. -/
theorem encodeFrameBuildsFrame : Obligations.EncodeFrameBuildsFrame := by
  unfold Obligations.EncodeFrameBuildsFrame
  exact fun s t ht hlegal hfinite hid => exec_encodeFrame_of_typeWord ht hlegal (typeWord_eq_valueWord hfinite) hid

/-- Settles O30: the decode of PAYLOAD_IN passes the field check (`decodeWord_of_legal`). -/
theorem decodeReadsPayload : Obligations.DecodeReadsPayload := by
  unfold Obligations.DecodeReadsPayload
  intro s t ht hlegal
  simp only [exec, execDecode, decodeInto, decodeWord_of_legal s.payloadIn ht hlegal, State.finish_ok]
  rfl

/-- Settles O31: the decode of FRAME_DATA passes the field check (`decodeWord_of_legal`). -/
theorem decodeFrameReadsFrame : Obligations.DecodeFrameReadsFrame := by
  unfold Obligations.DecodeFrameReadsFrame
  intro s t ht hlegal
  simp only [exec, execDecodeFrame, decodeInto, decodeWord_of_legal s.frameData ht hlegal, State.finish_ok]
  rfl

/-- Settles O46: the frame's payload is the stored word placed (`encodeWord_eq_ok`), the decode extracts it again
(`placedWordRoundTrip`) and reads it (`decodeFrameReadsFrame`). -/
theorem frameCodecRoundTrip : Obligations.FrameCodecRoundTrip := by
  unfold Obligations.FrameCodecRoundTrip
  intro s t ty w hty h hcode hw
  obtain ⟨p, hp, -, rfl⟩ := execEncodeFrame_of_code_zero h hcode
  obtain ⟨ty', w', hty', hlegal, hw', rfl⟩ := encodeWord_eq_ok hp
  obtain rfl : ty = ty' := Option.some.inj (hty.symm.trans hty')
  obtain rfl : w = w' := Except.ok.inj (hw.symm.trans hw')
  obtain ⟨-, hback⟩ := placedWordRoundTrip (s.cfg.field ty) w hlegal (storedWord_toNat_lt hw)
  refine ⟨_, decodeFrameReadsFrame _ ty hty hlegal, rfl, ?_, ?_⟩
  · exact congrArg (fun v => resultWordOf ty (motoSwapWord s.params.motoSwap ty s.cfg.endian v)) hback
  · exact congrArg (fun v => resultValueOf ty (motoSwapWord s.params.motoSwap ty s.cfg.endian v)) hback

/-- A type-width word comes back whole from a field whose kept mask covers its type: the mask takes nothing away
(`and_eq_of_covers`), and the second swap undoes the first. -/
theorem typeWord_round_trip {s : State} {t : DataType} {v : Word} (ht : dataTypeOf s.cfg.dtype = some t)
    (hlegal : (s.cfg.field t).Legal)
    (hcover : keptMask (s.cfg.field t) &&& lowMask (typeWidth t) = lowMask (typeWidth t))
    (hv : typeWord t s.value = .ok v) (hid : s.cfg.sigExt = false → s.cfg.sigId.toNat ≤ 0x7FF) :
    ∃ a b, exec .encodeFrame s = .next a ∧ exec .decodeFrame a = .next b ∧ a.status.code = 0 ∧ b.status.code = 0
      ∧ b.resultWord = resultWordOf t v ∧ b.resultValue = resultValueOf t v := by
  have hencode := exec_encodeFrame_of_typeWord ht hlegal hv hid
  have hstored : storedWord s.params.motoSwap (s.cfg.field t) s.value
      = .ok (motoSwapWord s.params.motoSwap t s.cfg.endian v) := storedWord_eq_ok.2 ⟨v, hv, rfl⟩
  have hlt := typeWord_toNat_lt hv
  obtain ⟨b, hb, hcode, hword, hvalue⟩ := frameCodecRoundTrip s _ t _ ht hencode rfl hstored
  rw [and_eq_of_covers hcover (motoSwapWord_toNat_lt hlt), motoSwapWord_motoSwapWord hlt] at hword hvalue
  exact ⟨_, b, hencode, hb, rfl, hcode, hword, hvalue⟩

/-- Settles O47: the integer is its own type-width word (`typeWord_toBinary64`), which comes back
(`typeWord_round_trip`) and is decoded to the integer (`decoded_integer`). -/
theorem integerValuesRoundTrip : Obligations.IntegerValuesRoundTrip := by
  unfold Obligations.IntegerValuesRoundTrip
  intro s ty n hty hint hlegal hcover hn hvalue hreal hid
  have hword : typeWord ty s.value = .ok (BitVec.ofNat 64 (n % 2 ^ typeWidth ty).toNat) := by
    rw [hvalue] at hreal ⊢
    exact typeWord_toBinary64 hint hn hreal
  obtain ⟨t, u, ht, hu, htcode, hucode, huword, huvalue⟩ := typeWord_round_trip hty hlegal hcover hword hid
  obtain ⟨hdecodedWord, hdecodedValue⟩ := decoded_integer hint hn
  exact ⟨t, u, ht, hu, htcode, hucode, by rw [huvalue, hdecodedValue, hvalue], by rw [huword, hdecodedWord]⟩

/-- Settles O48: a float type's word is the pattern, narrowed for F32 (`narrow32_widen32`), and it comes back
(`typeWord_round_trip`). -/
theorem floatPatternsRoundTrip : Obligations.FloatPatternsRoundTrip := by
  unfold Obligations.FloatPatternsRoundTrip
  intro s ty p hty hlegal hcover hid
  refine ⟨?_, ?_⟩
  · rintro rfl hp hnan hvalue
    have hword : typeWord .f32 s.value = .ok p := by rw [hvalue, typeWord, narrow32_widen32 hp hnan]
    obtain ⟨t, u, ht, hu, -, hucode, huword, huvalue⟩ := typeWord_round_trip hty hlegal hcover hword hid
    exact ⟨t, u, ht, hu, hucode, huword, huvalue.trans hvalue.symm⟩
  · rintro rfl
    obtain ⟨t, u, ht, hu, -, hucode, huword, huvalue⟩ := typeWord_round_trip hty hlegal hcover rfl hid
    exact ⟨t, u, ht, hu, hucode, huword, huvalue⟩

end Sys2Proof.Proofs
end

/-! # Commands and accesses: decoding (30_encoding.md section 2), the registers' words and map (10_state.md), the
lines of a host program that set up operands (30_encoding.md section 4), and what every command reads and writes -/

section
namespace Sys2Proof.Machine

/-! ## Decoding -/

/-- OP selects a command exactly when it is the command's (30_encoding.md R112). -/
theorem instrOfOp_eq_some {op : Byte} {i : Instr} : instrOfOp op = some i ↔ op = opcodeOf i := by
  constructor
  · intro h
    unfold instrOfOp at h
    split at h <;> cases h <;> exact BitVec.eq_of_toNat_eq ‹_›
  · rintro rfl
    cases i <;> rfl

/-- The decoder answers a command when RSV is 0 and OP is the command's (30_encoding.md R111, R112). -/
theorem decode_eq_ok {v : Word} {i : Instr} : decode v = .ok i ↔ rsvField v = 0 ∧ opField v = opcodeOf i := by
  unfold decode
  split_ifs with hrsv
  · exact iff_of_false (by simp) fun h => hrsv h.1
  · rw [not_not] at hrsv
    rw [← instrOfOp_eq_some]
    cases instrOfOp (opField v) <;> simp [hrsv]

/-- A CMD value is its two fields (30_encoding.md R110). -/
theorem word_eq_of_fields {v w : Word} (hrsv : rsvField v = rsvField w) (hop : opField v = opField w) : v = w := by
  have hhigh := congrArg BitVec.toNat hrsv
  have hlow := congrArg BitVec.toNat hop
  simp only [rsvField, opField, BitVec.extractLsb'_toNat, Nat.shiftRight_eq_div_pow] at hhigh hlow
  have hv := v.isLt
  have hw := w.isLt
  apply BitVec.eq_of_toNat_eq
  omega

/-- The CMD value of a command has its opcode in OP and 0 in RSV (30_encoding.md R112). -/
theorem encode_fields (i : Instr) : rsvField (encode i) = 0 ∧ opField (encode i) = opcodeOf i := by
  cases i <;> exact ⟨rfl, rfl⟩

/-! ## The register map -/

/-- A register is found at its own offset only (10_state.md R33). -/
theorem offset_of_regAt {off : Nat} {r : Reg} (h : regAt off = some r) : off = r.offset := by
  unfold regAt at h
  split at h <;> cases h <;> rfl

/-! ## The words of registers of one field -/

/-- A field of n bits stands in the low n bits of its register. -/
theorem extractLsb'_setWidth {n : Nat} (x : BitVec n) (hn : n ≤ 64) : (x.setWidth 64).extractLsb' 0 n = x := by
  apply BitVec.eq_of_toNat_eq
  have hle : 2 ^ n ≤ 2 ^ 64 := Nat.pow_le_pow_right (by decide) hn
  have hlt := x.isLt
  rw [BitVec.extractLsb'_toNat, BitVec.toNat_setWidth, Nat.shiftRight_zero,
    Nat.mod_eq_of_lt (by omega : x.toNat < 2 ^ 64),
    Nat.mod_eq_of_lt hlt]

/-- The registers of a present FSER unit read as they are (10_state.md R60). -/
theorem State.fserWord_present {s : State} (w : Word) (h : s.params.hasFser = true) : s.fserWord w = w := by
  rw [State.fserWord, if_pos h]

/-- The fields of CFG stand at their bits (10_state.md R41 to R46). -/
theorem Cfg.word_fields (c : Cfg) :
    c.word.extractLsb' 0 4 = c.dtype ∧ (c.word.getLsbD 4 = true ↔ c.endian = .motorola)
      ∧ c.word.extractLsb' 8 8 = c.start ∧ c.word.extractLsb' 16 8 = c.len ∧ c.word.getLsbD 31 = c.sigExt
      ∧ c.word.extractLsb' 32 29 = c.sigId := by
  have hfields := c.ofWord_word
  have hendian : endianOf (c.word.getLsbD 4) = c.endian := congrArg Cfg.endian hfields
  refine ⟨congrArg Cfg.dtype hfields, ?_, congrArg Cfg.start hfields, congrArg Cfg.len hfields,
    congrArg Cfg.sigExt hfields, congrArg Cfg.sigId hfields⟩
  rw [← hendian]
  cases c.word.getLsbD 4 <;> simp [endianOf]

/-- The fields of FRAME_CTL stand at their bits (10_state.md R55, R56). -/
theorem FrameCtl.word_fields (c : FrameCtl) :
    c.word.extractLsb' 0 4 = c.dlc ∧ c.word.getLsbD 8 = c.ext ∧ c.word.getLsbD 9 = c.rtr :=
  have hfields := c.ofWord_word
  ⟨congrArg FrameCtl.dlc hfields, congrArg FrameCtl.ext hfields, congrArg FrameCtl.rtr hfields⟩

/-! ## A build without FSER -/

/-- The registers of an absent FSER unit read 0 (10_state.md R60). -/
theorem readReg_of_fser_absent {s : State} {r : Reg} (h : s.params.hasFser = false) (hr : isFserReg r = true) :
    readReg r s = 0 := by
  have hzero (w : Word) : s.fserWord w = 0 := by rw [State.fserWord, if_neg (h ▸ Bool.false_ne_true)]
  cases r with
  | txLen | rxLen | txLine0 | txLine1 | txLine2 | txLine3 | rxLine0 | rxLine1 | rxLine2 | rxLine3 => exact hzero _
  | caps | cmd | status | cfg | value | payloadIn | payloadOut | resultWord | resultValue | tsIn => cases hr
  | frameId | frameCtl | frameData | frameTs => cases hr

/-- The registers of an absent FSER unit ignore host writes (10_state.md R60). -/
theorem writeReg_of_fser_absent {s : State} {r : Reg} (v : Word) (h : s.params.hasFser = false)
    (hr : isFserReg r = true) : writeReg r v s = s := by
  have hsame (t : State) : s.ifFser t = s := by rw [State.ifFser, if_neg (h ▸ Bool.false_ne_true)]
  cases r with
  | txLen | txLine0 | txLine1 | txLine2 | txLine3 => rfl
  | rxLen | rxLine0 | rxLine1 | rxLine2 | rxLine3 => exact hsame _
  | caps | cmd | status | cfg | value | payloadIn | payloadOut | resultWord | resultValue | tsIn => cases hr
  | frameId | frameCtl | frameData | frameTs => cases hr

/-! ## Line buffers -/

/-- Line byte i stands in byte i mod 8 of line register i/8 (10_state.md R63, R64). -/
theorem LineBuf.bytes_getElem? (b : LineBuf) {i : Nat} (hi : i < 32) :
    b.bytes[i]? = some ((([b.w0, b.w1, b.w2, b.w3] : List Word)[i / 8]?.getD 0).extractLsb' (8 * (i % 8)) 8) := by
  have hskip (w : Word) (l : List Byte) (j : Nat) : (bytesOf 8 w ++ l)[8 + j]? = l[j]? := by
    rw [List.getElem?_append_right (by simp)]
    simp
  have hhere (w : Word) {r : Nat} (hr : r < 8) (l : List Byte) :
      (bytesOf 8 w ++ l)[r]? = some (w.extractLsb' (8 * r) 8) := by
    rw [List.getElem?_append_left (by simpa using hr), bytesOf_getElem?, if_pos hr]
  obtain ⟨r, hr, hi⟩ : ∃ r < 8, i = r ∨ i = 8 + r ∨ i = 8 + (8 + r) ∨ i = 8 + (8 + (8 + r)) :=
    ⟨i % 8, Nat.mod_lt _ (by decide), by omega⟩
  have hmod : i % 8 = r := by omega
  rw [hmod]
  rcases hi with rfl | rfl | rfl | rfl
  · rw [LineBuf.bytes, hhere _ hr, Nat.div_eq_of_lt hr]
    rfl
  · rw [LineBuf.bytes, hskip, hhere _ hr, show (8 + r) / 8 = 1 by omega]
    rfl
  · rw [LineBuf.bytes, hskip, hskip, hhere _ hr, show (8 + (8 + r)) / 8 = 2 by omega]
    rfl
  · rw [LineBuf.bytes, hskip, hskip, hskip, ← List.append_nil (bytesOf 8 b.w3), hhere _ hr,
      show (8 + (8 + (8 + r))) / 8 = 3 by omega]
    rfl

@[simp] theorem LineBuf.bytes_length (b : LineBuf) : b.bytes.length = 32 := by simp [LineBuf.bytes]

/-- The line registers of a line hold its bytes, eight each. -/
theorem LineBuf.ofBytes_words (l : List Byte) {q : Nat} (hq : q < 4) :
    ([(LineBuf.ofBytes l).w0, (LineBuf.ofBytes l).w1, (LineBuf.ofBytes l).w2,
        (LineBuf.ofBytes l).w3] : List Word)[q]?.getD 0
      = wordOf ((l.drop (8 * q)).take 8) := by
  interval_cases q <;> rfl

/-- A line of at most 32 bytes stands in its buffer with 0 after it (10_state.md R63). -/
theorem LineBuf.bytes_ofBytes {l : List Byte} (hl : l.length ≤ 32) :
    (LineBuf.ofBytes l).bytes = l ++ List.replicate (32 - l.length) 0 := by
  apply List.ext_getElem?
  intro i
  rcases lt_or_ge i 32 with hi | hi
  · have hq : i / 8 < 4 := by omega
    have hr : i % 8 < 8 := Nat.mod_lt _ (by decide)
    rw [LineBuf.bytes_getElem? _ hi, LineBuf.ofBytes_words l hq, extract_wordOf _ hr, List.getElem?_take_of_lt hr,
      List.getElem?_drop, Nat.div_add_mod, List.getElem?_append, List.getElem?_replicate]
    split
    next h => simp [List.getElem?_eq_getElem h]
    next h => rw [List.getElem?_eq_none (by omega), if_pos (by omega)]; rfl
  · rw [List.getElem?_eq_none (by simpa using hi), List.getElem?_eq_none (by simp; omega)]

/-- The first bytes of the buffer of a line, as many as its length says, are the line, and the others are 0. -/
theorem LineBuf.take_drop_ofBytes {l : List Byte} (hl : l.length ≤ 32) :
    (LineBuf.ofBytes l).bytes.take (BitVec.ofNat 8 l.length).toNat = l
      ∧ ∀ b ∈ (LineBuf.ofBytes l).bytes.drop (BitVec.ofNat 8 l.length).toNat, b = 0 := by
  have hlen : (BitVec.ofNat 8 l.length).toNat = l.length := Nat.mod_eq_of_lt (by omega)
  rw [hlen, LineBuf.bytes_ofBytes hl]
  exact ⟨List.take_left, by simp⟩

/-! ## The lines of a host program -/

/-- The CFG value of a `cfg` line whose arguments fit their fields is below 2^64 (30_encoding.md R123). -/
theorem cfgImm_toNat (t : DataType) (e : Endian) {start len id : Nat} (ext : Bool) (hstart : start < 256)
    (hlen : len < 256) (hid : id < 2 ^ 29) :
    (cfgImm t e start len ext.toNat id).toNat
      = (typeCode t).toNat + 16 * (endianCode e).toNat + 256 * start + 65536 * len + 2 ^ 31 * ext.toNat
        + 2 ^ 32 * id := by
  have htype := (typeCode t).isLt
  have hendian := (endianCode e).isLt
  have hext := Bool.toNat_lt ext
  rw [cfgImm, BitVec.toNat_ofNat, Nat.mod_eq_of_lt]
  omega

/-- The `cfg` line writes each argument to its field (30_encoding.md R123). -/
theorem ofWord_cfgImm (t : DataType) (e : Endian) {start len id : Nat} (ext : Bool) (hstart : start < 256)
    (hlen : len < 256) (hid : id < 2 ^ 29) :
    Cfg.ofWord (cfgImm t e start len ext.toNat id)
      = ⟨typeCode t, e, BitVec.ofNat 8 start, BitVec.ofNat 8 len, ext, BitVec.ofNat 29 id⟩ := by
  have himm := cfgImm_toNat t e ext hstart hlen hid
  have htype := (typeCode t).isLt
  have hendian := (endianCode e).isLt
  have hext := Bool.toNat_lt ext
  have hbit4 : (cfgImm t e start len ext.toNat id).getLsbD 4 = (endianCode e).getLsbD 0 := by
    rw [BitVec.getLsbD, BitVec.getLsbD, himm, Nat.testBit_eq_decide_div_mod_eq, Nat.testBit_eq_decide_div_mod_eq,
      decide_eq_decide]
    omega
  have hbit31 : (cfgImm t e start len ext.toNat id).getLsbD 31 = ext := by
    rw [BitVec.getLsbD, himm, Nat.testBit_eq_decide_div_mod_eq]
    cases ext <;> simp <;> omega
  simp only [Cfg.ofWord, hbit4, hbit31, endianOf_endianCode, Cfg.mk.injEq, true_and]
  refine ⟨?_, ?_, ?_, ?_⟩
  all_goals
    apply BitVec.eq_of_toNat_eq
    simp only [BitVec.extractLsb'_toNat, BitVec.toNat_ofNat, himm, Nat.shiftRight_eq_div_pow]
    omega

/-- A host that issues a write of a register other than CMD, and then the rest. -/
theorem issue_writeOf_cons {r : Reg} (v : Word) (rest : List HostAccess) (s : State) (hr : r ≠ .cmd) :
    issue (writeOf r v :: rest) s = issue rest (writeReg r v { s with hostQueue := [], hostData := none }) := by
  have hstep := step_write (s := { s with hostQueue := [writeOf r v] }) hr rfl
  simp only [issue, hstep]

/-- The low byte of a number's word is the number's byte. -/
theorem extractLsb'_ofNat (n : Nat) : (BitVec.ofNat 64 n).extractLsb' 0 8 = BitVec.ofNat 8 n := by
  apply BitVec.eq_of_toNat_eq
  simp

/-- The `line` line leaves the line in RXLINE and its length in RXLEN (30_encoding.md R123). -/
theorem issue_line {s : State} (text : List Byte) (h : s.params.hasFser = true) :
    ∃ as, (HostLine.line text).accesses = some as
      ∧ issue as s = .next
        { s with
          hostQueue := []
          hostData := none
          rxLine := LineBuf.ofBytes text
          rxLen := BitVec.ofNat 8 text.length } := by
  refine ⟨_, rfl, ?_⟩
  rw [issue_writeOf_cons _ _ _ (by decide), issue_writeOf_cons _ _ _ (by decide), issue_writeOf_cons _ _ _ (by decide),
    issue_writeOf_cons _ _ _ (by decide), issue_writeOf_cons _ _ _ (by decide), issue]
  simp only [writeReg, State.ifFser, h, if_true, extractLsb'_ofNat]

/-! ## What a command reads and writes

A command is a function from the registers it reads to its outputs or an error; ending it stores the outputs, all or
none (41_codec_commands.md R190). -/

/-- The frame registers, as a command that builds a frame writes them (10_state.md R54 to R59). -/
structure FrameRegs where
  id : BitVec 29
  ctl : FrameCtl
  data : Word
  ts : Word

/-- The outputs of a command, the "Writes" column of the opcode map (30_encoding.md section 2). -/
def Outputs : Instr → Type
  | .encode => Word
  | .decode => Word × Word
  | .encodeFrame => FrameRegs
  | .decodeFrame => Word × Word
  | .frameSerialize => LineBuf × Byte
  | .frameParse => FrameRegs

/-- The state with a command's outputs written. -/
def State.store (s : State) : (i : Instr) → Outputs i → State
  | .encode, p => { s with payloadOut := p }
  | .decode, (rw, rv) => { s with resultWord := rw, resultValue := rv }
  | .encodeFrame, f =>
    { s with payloadOut := f.data, frameId := f.id, frameCtl := f.ctl, frameData := f.data, frameTs := f.ts }
  | .decodeFrame, (rw, rv) => { s with resultWord := rw, resultValue := rv }
  | .frameSerialize, (line, len) => { s with txLine := line, txLen := len }
  | .frameParse, f => { s with frameId := f.id, frameCtl := f.ctl, frameData := f.data, frameTs := f.ts }

/-- A result of the FSER unit, which is ILLEGAL_COMMAND with INFO 3 in a build without it (42_frame_serializer.md
R230). -/
def State.ofFser {α : Type} (s : State) (r : Except Raised α) : Except Raised α :=
  if s.params.hasFser then r else .error { code := .illegalCommand, info := 3 }

/-- An absent FSER unit has no result. -/
theorem State.ofFser_absent {α : Type} {s : State} (r : Except Raised α) (h : s.params.hasFser = false) :
    s.ofFser r = .error { code := .illegalCommand, info := 3 } := by
  rw [State.ofFser, if_neg (h ▸ Bool.false_ne_true)]

/-- What a command computes from the registers it reads, the "Reads" column of the opcode map (30_encoding.md section
2). -/
def State.outcome (s : State) : (i : Instr) → Except Raised (Outputs i)
  | .encode => encodeWord s.params.motoSwap s.cfg s.value
  | .decode => decodeWord s.params.motoSwap s.cfg s.payloadIn
  | .encodeFrame =>
    (encodeWord s.params.motoSwap s.cfg s.value).bind fun p =>
      if idTooWide s.cfg.sigExt s.cfg.sigId then .error { code := .frameInvalid, info := 2 }
      else .ok { id := s.cfg.sigId, ctl := ⟨8, s.cfg.sigExt, false⟩, data := p, ts := s.tsIn }
  | .decodeFrame => decodeWord s.params.motoSwap s.cfg s.frameData
  | .frameSerialize =>
    s.ofFser ((checkFrame s.frameId s.frameCtl).map fun _ =>
      (LineBuf.ofBytes (frameLine s.frameId s.frameCtl s.frameData),
        BitVec.ofNat 8 (frameLine s.frameId s.frameCtl s.frameData).length))
  | .frameParse =>
    s.ofFser
      (if 32 < s.rxLen.toNat then .error { code := .lineMalformed, info := 0xFF }
      else
        match parseLine (rxBytes s) with
        | .error q => .error { code := .lineMalformed, info := BitVec.ofNat 8 q }
        | .ok f =>
          .ok
            { id := BitVec.ofNat 29 f.id, ctl := ⟨BitVec.ofNat 4 f.data.length, f.ext, false⟩, data := wordOf f.data
              ts := s.tsIn })

/-- Every command ends with its outcome: it stores its outputs and completes, or raises. -/
theorem exec_eq_outcome (i : Instr) (s : State) : exec i s = s.finish (opcodeOf i) ((s.outcome i).map (s.store i)) := by
  cases i with
  | encode =>
    simp only [exec, execEncode, State.outcome]
    cases encodeWord s.params.motoSwap s.cfg s.value <;> rfl
  | decode =>
    simp only [exec, execDecode, decodeInto, State.outcome]
    cases decodeWord s.params.motoSwap s.cfg s.payloadIn <;> rfl
  | encodeFrame =>
    simp only [exec, execEncodeFrame, State.outcome]
    cases encodeWord s.params.motoSwap s.cfg s.value with
    | error e => rfl
    | ok p => cases idTooWide s.cfg.sigExt s.cfg.sigId <;> rfl
  | decodeFrame =>
    simp only [exec, execDecodeFrame, decodeInto, State.outcome]
    cases decodeWord s.params.motoSwap s.cfg s.frameData <;> rfl
  | frameSerialize =>
    simp only [exec, execFrameSerialize, State.outcome, withFser, State.ofFser]
    cases s.params.hasFser with
    | false => rfl
    | true => cases checkFrame s.frameId s.frameCtl <;> rfl
  | frameParse =>
    simp only [exec, execFrameParse, State.outcome, withFser, State.ofFser, rxBytes]
    cases s.params.hasFser with
    | false => rfl
    | true =>
      rw [if_pos rfl, if_pos rfl]
      split
      · rfl
      · cases parseLine (s.rxLine.bytes.take s.rxLen.toNat) <;> rfl

/-- A command whose outcome is outputs completes with them. -/
theorem exec_of_outcome_ok {i : Instr} {s : State} {o : Outputs i} (h : s.outcome i = .ok o) :
    exec i s = .next ((s.store i o).complete (opcodeOf i)) := by
  rw [exec_eq_outcome, h]
  rfl

/-- A command whose outcome is an error raises it. -/
theorem exec_of_outcome_error {i : Instr} {s : State} {e : Raised} (h : s.outcome i = .error e) :
    exec i s = .next (s.raise (opcodeOf i) e) := by
  rw [exec_eq_outcome, h]
  rfl

/-- A command has stored its outputs and completed, or it has raised. -/
theorem exec_outcome_cases {i : Instr} {s t : State} (h : exec i s = .next t) :
    (∃ o, s.outcome i = .ok o ∧ t = (s.store i o).complete (opcodeOf i))
      ∨ ∃ e, s.outcome i = .error e ∧ t = s.raise (opcodeOf i) e := by
  cases ho : s.outcome i with
  | ok o => exact .inl ⟨o, rfl, (Host.Outcome.next.inj ((exec_of_outcome_ok ho).symm.trans h)).symm⟩
  | error e => exact .inr ⟨e, rfl, (Host.Outcome.next.inj ((exec_of_outcome_error ho).symm.trans h)).symm⟩

/-- The registers a command reads, and the parameters, are the same in both states. -/
def SameInputs (i : Instr) (s s' : State) : Prop :=
  s.params = s'.params
    ∧ match i with
      | .encode => s.cfg = s'.cfg ∧ s.value = s'.value
      | .decode => s.cfg = s'.cfg ∧ s.payloadIn = s'.payloadIn
      | .encodeFrame => s.cfg = s'.cfg ∧ s.value = s'.value ∧ s.tsIn = s'.tsIn
      | .decodeFrame => s.cfg = s'.cfg ∧ s.frameData = s'.frameData
      | .frameSerialize => s.frameId = s'.frameId ∧ s.frameCtl = s'.frameCtl ∧ s.frameData = s'.frameData
      | .frameParse => rxBytes s = rxBytes s' ∧ s.rxLen = s'.rxLen ∧ s.tsIn = s'.tsIn

/-- A command's outcome depends on its inputs alone. -/
theorem outcome_congr {i : Instr} {s s' : State} (h : SameInputs i s s') : s.outcome i = s'.outcome i := by
  obtain ⟨hparams, h⟩ := h
  cases i with
  | encode =>
    obtain ⟨hcfg, hvalue⟩ := h
    show encodeWord _ _ _ = encodeWord _ _ _
    rw [hparams, hcfg, hvalue]
  | decode =>
    obtain ⟨hcfg, hpayload⟩ := h
    show decodeWord _ _ _ = decodeWord _ _ _
    rw [hparams, hcfg, hpayload]
  | encodeFrame =>
    obtain ⟨hcfg, hvalue, hts⟩ := h
    simp only [State.outcome, hparams, hcfg, hvalue, hts]
  | decodeFrame =>
    obtain ⟨hcfg, hdata⟩ := h
    show decodeWord _ _ _ = decodeWord _ _ _
    rw [hparams, hcfg, hdata]
  | frameSerialize =>
    obtain ⟨hid, hctl, hdata⟩ := h
    simp only [State.outcome, State.ofFser, hparams, hid, hctl, hdata]
  | frameParse =>
    obtain ⟨hrx, hlen, hts⟩ := h
    simp only [State.outcome, State.ofFser, hparams, hrx, hlen, hts]

/-- STATUS is no input of any command (10_state.md R69). -/
theorem sameInputs_status (i : Instr) (s : State) (st : Status) : SameInputs i { s with status := st } s := by
  cases i with
  | encode | decode | decodeFrame => exact ⟨rfl, rfl, rfl⟩
  | encodeFrame | frameSerialize | frameParse => exact ⟨rfl, rfl, rfl, rfl⟩

/-- No command reads what it writes (41_codec_commands.md section "Properties common to the codec commands"). -/
theorem sameInputs_complete_store (i : Instr) (s : State) (o : Outputs i) (op : Byte) :
    SameInputs i ((s.store i o).complete op) s := by
  cases i with
  | encode | decode | decodeFrame => exact ⟨rfl, rfl, rfl⟩
  | encodeFrame | frameSerialize | frameParse => exact ⟨rfl, rfl, rfl, rfl⟩

/-- From states with the same inputs a command leaves the same CODE and INFO; where it completes from the one it
completes from the other, with the same outputs, and so with all that they tell (`agree`). -/
theorem exec_congr {i : Instr} {s s' t : State} {agree : State → Prop} (hs : SameInputs i s s')
    (h : exec i s = .next t)
    (hagree : ∀ o, t = (s.store i o).complete (opcodeOf i) → agree ((s'.store i o).complete (opcodeOf i))) :
    ∃ t', exec i s' = .next t' ∧ t'.status.code = t.status.code ∧ t'.status.info = t.status.info
      ∧ (t.status.code = 0 → agree t') := by
  have hsame := outcome_congr hs
  rcases exec_outcome_cases h with ⟨o, ho, rfl⟩ | ⟨e, he, rfl⟩
  · exact ⟨_, exec_of_outcome_ok (hsame ▸ ho), rfl, rfl, fun _ => hagree o rfl⟩
  · exact ⟨_, exec_of_outcome_error (hsame ▸ he), rfl, rfl, fun hcode => absurd hcode e.code.number_ne_zero⟩

/-! ## Runs -/

/-- A run begins with a step. -/
theorem run_succ_of_step {s u : State} (n : Nat) (h : step s = .next u) :
    Sys2Proof.core.run (n + 1) s = Sys2Proof.core.run n u := by
  have hcore : Sys2Proof.core.step s = .next u := h
  simp only [Host.Core.run, hcore]

/-- A CMD write leaves the accesses after it pending. -/
theorem runCommand_hostQueue {v : Word} {s t : State} (h : runCommand v s = .next t) : t.hostQueue = s.hostQueue := by
  rcases runCommand_cases h with ⟨i, _, hi⟩ | ⟨_, rfl⟩ | ⟨_, rfl⟩
  · exact (exec_host_frame hi).2.1
  · rfl
  · rfl

/-- STICKY after a CMD write is 1 exactly when it was before or the command raised (10_state.md R39). -/
theorem runCommand_sticky_iff {v : Word} {s t : State} (h : runCommand v s = .next t) :
    t.status.sticky = true ↔ s.status.sticky = true ∨ t.status.code ≠ 0 := by
  obtain ⟨hraise, hdone⟩ := runCommand_sticky h
  by_cases hcode : t.status.code = 0
  · rw [hdone hcode]
    exact (or_iff_left (not_not.2 hcode)).symm
  · exact iff_of_true (hraise hcode) (.inr hcode)

end Sys2Proof.Machine
end

section
namespace Sys2Proof.Proofs

open Sys2Proof Sys2Proof.Machine

/-- Settles O2: OP and RSV are the command's (`decode_eq_ok`), and they are all of the value (`word_eq_of_fields`). -/
theorem decodeExactlyTheSixWords : Obligations.DecodeExactlyTheSixWords := by
  unfold Obligations.DecodeExactlyTheSixWords
  intro v i
  obtain ⟨hrsv, hop⟩ := encode_fields i
  rw [decode_eq_ok]
  refine ⟨fun ⟨hrsv', hop'⟩ => word_eq_of_fields (hrsv'.trans hrsv.symm) (hop'.trans hop.symm), ?_⟩
  rintro rfl
  exact ⟨hrsv, hop⟩

/-- Settles O1: the value is the one of O2. -/
theorem opcodeRoundTrip : Obligations.OpcodeRoundTrip := by
  unfold Obligations.OpcodeRoundTrip
  exact fun i _ => (decodeExactlyTheSixWords _ i).2 rfl

/-- Settles O3: the six values are those of O2, and the two illegal ones are refused for OP and for RSV. -/
theorem commandWordsDecode : Obligations.CommandWordsDecode := by
  unfold Obligations.CommandWordsDecode
  exact ⟨opcodeRoundTrip .encode rfl, opcodeRoundTrip .decode rfl, opcodeRoundTrip .encodeFrame rfl,
    opcodeRoundTrip .decodeFrame rfl, opcodeRoundTrip .frameSerialize rfl, opcodeRoundTrip .frameParse rfl,
    decode_of_unassigned (by decide) (by decide), decode_of_reserved (by decide)⟩

/-- Settles O5: the step runs the value written (`step_command`), which selects the command (`runCommand_of_decode`). -/
theorem stepRunsDecodedCommand : Obligations.StepRunsDecodedCommand := by
  unfold Obligations.StepRunsDecodedCommand
  intro s v i rest hq hv _
  rw [step_command hq, runCommand_of_decode _ hv]

/-- Settles O15: register by register, and offset by offset. -/
theorem windowMap : Obligations.WindowMap := by
  unfold Obligations.WindowMap
  refine ⟨fun r => ?_, fun off r => offset_of_regAt, fun off h8 hoff => ?_⟩
  · cases r <;> exact ⟨rfl, rfl, by decide, by decide⟩
  · obtain ⟨k, rfl⟩ := Nat.dvd_of_mod_eq_zero h8
    have hk : k < 32 := by omega
    interval_cases k <;> decide

/-- Settles O18: every command ends (`exec_next`). -/
theorem everyCommandAnswers : Obligations.EveryCommandAnswers := exec_next

/-- Settles O11: each register's word has its fields at their bits (`Status.word_fields`, `Cfg.word_fields`,
`FrameCtl.word_fields`) and nothing else (`readReg_reserved`). -/
theorem reservedBitsReadZero : Obligations.ReservedBitsReadZero := by
  unfold Obligations.ReservedBitsReadZero
  intro s
  obtain ⟨hdlc, hext, hrtr⟩ := s.frameCtl.word_fields
  refine ⟨fun r => readReg_reserved r s, rfl, s.status.word_fields, s.cfg.word_fields,
    ⟨extractLsb'_setWidth _ (by decide), hdlc, hext, hrtr⟩, ⟨rfl, rfl, rfl, rfl, rfl, rfl, rfl, rfl⟩, fun hfser => ?_⟩
  simp only [readReg, State.fserWord_present _ hfser]
  exact ⟨extractLsb'_setWidth _ (by decide), extractLsb'_setWidth _ (by decide), trivial, trivial⟩

/-- Settles O17: `cfg` writes the one register (`ofWord_cfgImm`), `line` the four line registers and RXLEN
(`issue_line`), which hold the text and 0 after it (`LineBuf.bytes_ofBytes`). -/
theorem notationSetsUpOperands : Obligations.NotationSetsUpOperands := by
  unfold Obligations.NotationSetsUpOperands
  refine ⟨fun s t e start len id ext hstart hlen hid => ⟨_, rfl, ?_⟩, fun s text hfser hlen => ?_⟩
  · rw [issue_writeOf_cons _ _ _ (by decide), issue, writeReg, ofWord_cfgImm t e ext hstart hlen hid]
  · obtain ⟨as, has, hissue⟩ := issue_line text hfser
    obtain ⟨htake, -⟩ := LineBuf.take_drop_ofBytes hlen
    refine ⟨as, _, has, hissue, htake, ?_, rfl⟩
    simp [LineBuf.bytes_ofBytes hlen]

/-- Settles O23: each codec command stores its outputs and completes, or raises (`exec_outcome_cases`). -/
theorem codecCommandFrames : Obligations.CodecCommandFrames := by
  unfold Obligations.CodecCommandFrames
  intro s t
  refine ⟨fun h => ?_, fun h => ?_, fun h => ?_, fun h => ?_⟩
  all_goals rcases exec_outcome_cases h with ⟨o, -, rfl⟩ | ⟨e, -, rfl⟩ <;> rfl

/-- Settles O24: each FSER command stores its outputs and completes, or raises (`exec_outcome_cases`). -/
theorem fserCommandFrames : Obligations.FserCommandFrames := by
  unfold Obligations.FserCommandFrames
  intro s t
  refine ⟨fun h => ?_, fun h => ?_⟩
  all_goals rcases exec_outcome_cases h with ⟨o, -, rfl⟩ | ⟨e, -, rfl⟩ <;> rfl

/-- Settles O14: the registers read 0 and ignore writes (`readReg_of_fser_absent`, `writeReg_of_fser_absent`); a codec
command writes none of them, and an FSER command has no outputs (`State.ofFser_absent`). -/
theorem fserAbsentUnit : Obligations.FserAbsentUnit := by
  unfold Obligations.FserAbsentUnit
  intro s habsent
  refine ⟨fun r hr => readReg_of_fser_absent habsent hr, fun r v rest hr hq => ?_, fun i t h => ?_⟩
  · have hcmd : r ≠ .cmd := by
      rintro rfl
      cases hr
    have hsame := writeReg_of_fser_absent (s := { s with hostQueue := rest, hostData := none }) v habsent hr
    rw [step_write hcmd hq, hsame]
  · rcases exec_outcome_cases h with ⟨o, ho, rfl⟩ | ⟨e, -, rfl⟩
    · cases i with
      | encode | decode | encodeFrame | decodeFrame => exact ⟨rfl, rfl, rfl, rfl⟩
      | frameSerialize => cases ho.symm.trans (State.ofFser_absent _ habsent)
      | frameParse => cases ho.symm.trans (State.ofFser_absent _ habsent)
    · exact ⟨rfl, rfl, rfl, rfl⟩

/-- Settles O19: the value selects a command with its OP (`decode_eq_ok`), which completes or raises
(`exec_outcome_cases`); a value that selects none raises. -/
theorem statusOfEveryCommand : Obligations.StatusOfEveryCommand := by
  unfold Obligations.StatusOfEveryCommand
  intro s t v rest hq hstep
  rw [step_command hq] at hstep
  have hraised (op : Byte) (e : Raised) (hop : op = opField v)
      (ht : t = { s with hostQueue := rest, hostData := none, status := Status.raised op e }) :
      t.status.lastOp = v.extractLsb' 0 8
        ∧ (t.status.code = 0 → t.status.info = 0 ∧ t.status.sticky = s.status.sticky)
        ∧ (t.status.code ≠ 0 → t.status.sticky = true
            ∧ t = { s with hostQueue := rest, hostData := none, status := t.status }) := by
    subst hop ht
    exact ⟨rfl, fun hcode => absurd hcode e.code.number_ne_zero, fun _ => ⟨rfl, rfl⟩⟩
  rcases runCommand_cases hstep with ⟨i, hi, hexec⟩ | ⟨-, ht⟩ | ⟨-, ht⟩
  · obtain ⟨-, hop⟩ := decode_eq_ok.1 hi
    rcases exec_outcome_cases hexec with ⟨o, -, ht⟩ | ⟨e, -, ht⟩
    · have hstatus : t.status = s.status.completed (opField v) := by
        subst ht
        rw [hop]
        cases i <;> rfl
      rw [hstatus]
      exact ⟨rfl, fun _ => ⟨rfl, rfl⟩, fun hcode => absurd rfl hcode⟩
    · exact hraised _ e hop.symm ht
  · exact hraised _ _ rfl ht
  · exact hraised _ _ rfl ht

/-- Settles O20: the outcome is the same (`sameInputs_status`), the outputs are stored in the same registers, and a
raise leaves nothing of STATUS. -/
theorem statusNeverInfluences : Obligations.StatusNeverInfluences := by
  unfold Obligations.StatusNeverInfluences
  intro i s st t h
  have hsame := outcome_congr (sameInputs_status i s st)
  rcases exec_outcome_cases h with ⟨o, ho, rfl⟩ | ⟨e, he, rfl⟩
  · refine ⟨st.sticky, (exec_of_outcome_ok (hsame.trans ho)).trans ?_⟩
    cases i <;> rfl
  · exact ⟨true, exec_of_outcome_error (hsame.trans he)⟩

/-- Settles O21: a command does not read what it writes (`sameInputs_complete_store`), so its outcome is the same, and
storing the same outputs again changes nothing. -/
theorem commandsAreRepeatable : Obligations.CommandsAreRepeatable := by
  unfold Obligations.CommandsAreRepeatable
  intro i s t h
  rcases exec_outcome_cases h with ⟨o, ho, rfl⟩ | ⟨e, he, rfl⟩
  · refine (exec_of_outcome_ok ((outcome_congr (sameInputs_complete_store i s o _)).trans ho)).trans ?_
    cases i <;> rfl
  · exact exec_of_outcome_error ((outcome_congr (sameInputs_status i s _)).trans he)

/-- Settles O22: each clause is `exec_congr` for the inputs it names. -/
theorem commandsDependOnTheirInputs : Obligations.CommandsDependOnTheirInputs := by
  unfold Obligations.CommandsDependOnTheirInputs
  intro s s' t hparams
  refine ⟨fun hcfg hvalue h => ?_, fun hcfg hpayload h => ?_, fun hcfg hvalue hts h => ?_, fun hcfg hdata h => ?_,
    fun hid hctl hdata h => ?_, fun hrx hlen hts h => ?_⟩
  · exact exec_congr (i := .encode) ⟨hparams, hcfg, hvalue⟩ h fun _ ht => ht ▸ rfl
  · exact exec_congr (i := .decode) ⟨hparams, hcfg, hpayload⟩ h fun _ ht => ht ▸ ⟨rfl, rfl⟩
  · exact exec_congr (i := .encodeFrame) ⟨hparams, hcfg, hvalue, hts⟩ h fun _ ht => ht ▸ ⟨rfl, rfl, rfl, rfl, rfl⟩
  · exact exec_congr (i := .decodeFrame) ⟨hparams, hcfg, hdata⟩ h fun _ ht => ht ▸ ⟨rfl, rfl⟩
  · exact exec_congr (i := .frameSerialize) ⟨hparams, hid, hctl, hdata⟩ h fun _ ht => ht ▸ ⟨rfl, rfl⟩
  · exact exec_congr (i := .frameParse) ⟨hparams, hrx, hlen, hts⟩ h fun _ ht => ht ▸ ⟨rfl, rfl, rfl, rfl⟩

/-- Settles O60, by induction on the batch: the first command sets STICKY or keeps it (`runCommand_sticky_iff`), and the
others start from there. -/
theorem stickyRecordsAnyRaise : Obligations.StickyRecordsAnyRaise := by
  unfold Obligations.StickyRecordsAnyRaise
  intro vs
  induction vs with
  | nil =>
    intro s t _ hrun
    cases hrun
    simp
  | cons v vs ih =>
    intro s t hq hrun
    obtain ⟨u, hu⟩ := runCommand_next v { s with hostQueue := vs.map (HostAccess.write 64 0x08), hostData := none }
    have hstep : step s = .next u := (step_command hq).trans hu
    have hsticky := runCommand_sticky_iff hu
    rw [List.length_cons, run_succ_of_step _ hstep] at hrun
    rw [ih u t (runCommand_hostQueue hu) hrun, hsticky, List.length_cons, or_assoc]
    refine or_congr_right ⟨?_, ?_⟩
    · rintro (hcode | ⟨k, hk, w, hw, hcode⟩)
      · exact ⟨0, Nat.succ_pos _, u, (run_succ_of_step 0 hstep).trans rfl, hcode⟩
      · exact ⟨k + 1, Nat.succ_lt_succ hk, w, (run_succ_of_step _ hstep).trans hw, hcode⟩
    · rintro ⟨k, hk, w, hw, hcode⟩
      rw [run_succ_of_step _ hstep] at hw
      cases k with
      | zero =>
        cases hw
        exact .inl hcode
      | succ k => exact .inr ⟨k, Nat.lt_of_succ_lt_succ hk, w, hw, hcode⟩

end Sys2Proof.Proofs
end

/-! # Frames, frame lines and the machine's invariant (10_state.md section 8, 42_frame_serializer.md, 60_exceptions.md
section 1) -/

section
namespace Sys2Proof.Machine

/-! ## Serializing -/

/-- The frames the frame check passes (42_frame_serializer.md R236). -/
theorem checkFrame_eq_ok {id : BitVec 29} {c : FrameCtl} (h : checkFrame id c = .ok ()) :
    c.dlc.toNat ≤ 8 ∧ (c.ext = false → id.toNat ≤ 0x7FF) ∧ c.rtr = false := by
  unfold checkFrame at h
  split_ifs at h with hdlc hid hrtr
  refine ⟨not_lt.1 hdlc, fun hext => ?_, by simpa using hrtr⟩
  by_contra hwide
  exact hid (idTooWide_iff.2 ⟨hext, not_le.1 hwide⟩)

/-- A line of at most 8 data bytes has at most 27 bytes (42_frame_serializer.md R237). -/
theorem lineLength_le (ext : Bool) {dlc : Nat} (h : dlc ≤ 8) : (if ext then 11 else 6) + 2 * dlc ≤ 27 := by
  cases ext <;> simp <;> omega

/-- The length of a line of the grammar. -/
theorem lineOf_length {ext : Bool} {ids ds : List Byte} {dlc : Nat} (h : PartsOk ext ids dlc ds) :
    (lineOf ext ids dlc ds).length = (if ext then 11 else 6) + 2 * dlc := by
  obtain ⟨hids, -, -, hds, -⟩ := h
  cases ext <;> simp [lineOf, hids, hds] <;> omega

/-- FRAME_SERIALIZE of a frame the check passes completes with the frame's line (42_frame_serializer.md R236, R237). -/
theorem exec_frameSerialize_of_valid {s : State} (hfser : s.params.hasFser = true) (hdlc : s.frameCtl.dlc.toNat ≤ 8)
    (hid : s.frameCtl.ext = false → s.frameId.toNat ≤ 0x7FF) (hrtr : s.frameCtl.rtr = false) :
    exec .frameSerialize s = .next
      { s with
        txLine := LineBuf.ofBytes (frameLine s.frameId s.frameCtl s.frameData)
        txLen := BitVec.ofNat 8 ((if s.frameCtl.ext then 11 else 6) + 2 * s.frameCtl.dlc.toNat)
        status := ⟨0, 0, 0x10, s.status.sticky⟩ } := by
  rw [← frameLine_length s.frameId s.frameCtl s.frameData]
  simp only [exec, execFrameSerialize, withFser_present _ hfser, checkFrame_ok hdlc (idTooWide_eq_false hid) hrtr,
    State.finish_ok]
  rfl

/-- Where FRAME_SERIALIZE completes, TXLINE and TXLEN hold the line of the frame, and 0 after it
(42_frame_serializer.md R237). -/
theorem exec_frameSerialize_line {s t : State} (h : exec .frameSerialize s = .next t) (hcode : t.status.code = 0) :
    ∃ ids ds, PartsOk s.frameCtl.ext ids s.frameCtl.dlc.toNat ds ∧ hexNumber ids = s.frameId.toNat
      ∧ hexNumber ids ≤ idLimit s.frameCtl.ext ∧ pairBytes ds = bytesOf s.frameCtl.dlc.toNat s.frameData
      ∧ (∀ b ∈ ids ++ ds, upperHex b = b) ∧ txBytes t = lineOf s.frameCtl.ext ids s.frameCtl.dlc.toNat ds
      ∧ t.txLen.toNat = (if s.frameCtl.ext then 11 else 6) + 2 * s.frameCtl.dlc.toNat
      ∧ ∀ b ∈ t.txLine.bytes.drop t.txLen.toNat, b = 0 := by
  rcases execFrameSerialize_cases h with ⟨-, hcheck, rfl⟩ | ⟨-, e, -, rfl⟩ | ⟨-, rfl⟩
  · obtain ⟨hdlc, hid, -⟩ := checkFrame_eq_ok hcheck
    obtain ⟨ids, ds, hparts, hnumber, hlimit, hdata, hupper, hline⟩ := frameLine_spec s.frameData hdlc hid
    have hlen := frameLine_length s.frameId s.frameCtl s.frameData
    have hmax := lineLength_le s.frameCtl.ext hdlc
    obtain ⟨htake, hdrop⟩ := LineBuf.take_drop_ofBytes (l := frameLine s.frameId s.frameCtl s.frameData) (by omega)
    refine ⟨ids, ds, hparts, hnumber, hlimit, hdata, hupper, htake.trans hline, ?_, hdrop⟩
    rw [State.complete_txLen, hlen, BitVec.toNat_ofNat, Nat.mod_eq_of_lt (by omega)]
  · exact absurd hcode e.code.number_ne_zero
  · exact absurd hcode ErrorCode.illegalCommand.number_ne_zero

/-- The low bytes of a word, in payload order (20_memory.md R86). -/
theorem bytesOf_eq_map (n : Nat) (w : Word) : bytesOf n w = (List.range n).map fun k => w.extractLsb' (8 * k) 8 := by
  apply List.ext_getElem?
  intro k
  rw [bytesOf_getElem?, List.getElem?_map]
  split
  next h => rw [List.getElem?_range h]; rfl
  next h => rw [List.getElem?_eq_none (by simpa using h)]; rfl

/-! ## Parsing -/

/-- FRAME_PARSE of a line of the grammar with an id in range completes with the frame it spells (42_frame_serializer.md
R238). -/
theorem exec_frameParse_of_line {s : State} {ext : Bool} {ids ds : List Byte} {dlc : Nat}
    (hfser : s.params.hasFser = true) (hlen : s.rxLen.toNat ≤ 32) (hline : rxBytes s = lineOf ext ids dlc ds)
    (hparts : PartsOk ext ids dlc ds) (hid : hexNumber ids ≤ idLimit ext) :
    exec .frameParse s = .next
      { s with
        frameId := BitVec.ofNat 29 (hexNumber ids)
        frameCtl := ⟨BitVec.ofNat 4 dlc, ext, false⟩
        frameData := wordOf (pairBytes ds)
        frameTs := s.tsIn
        status := ⟨0, 0, 0x11, s.status.sticky⟩ } := by
  have hparse : parseLine (s.rxLine.bytes.take s.rxLen.toNat) = .ok ⟨ext, hexNumber ids, pairBytes ds⟩ :=
    parseLine_ok.2 ⟨ext, ids, dlc, ds, hparts, hid, hline, rfl⟩
  obtain ⟨-, -, -, hds, -⟩ := hparts
  simp only [exec, execFrameParse, withFser_present _ hfser, if_neg (not_lt.2 hlen), hparse, State.finish_ok,
    pairBytes_length dlc ds hds]
  rfl

/-- Where FRAME_PARSE completes, RXLINE holds a line of the grammar with an id in range, and the frame is the one it
spells. -/
theorem exec_frameParse_frame {s t : State} (h : exec .frameParse s = .next t) (hcode : t.status.code = 0) :
    s.params.hasFser = true ∧ ∃ ext ids dlc ds, PartsOk ext ids dlc ds ∧ hexNumber ids ≤ idLimit ext
      ∧ rxBytes s = lineOf ext ids dlc ds
      ∧ t = { s with
          frameId := BitVec.ofNat 29 (hexNumber ids)
          frameCtl := ⟨BitVec.ofNat 4 dlc, ext, false⟩
          frameData := wordOf (pairBytes ds)
          frameTs := s.tsIn
          status := ⟨0, 0, 0x11, s.status.sticky⟩ } := by
  have hfser : s.params.hasFser = true := by
    by_contra habsent
    rw [Bool.not_eq_true] at habsent
    cases (exec_of_raises (.noUnit rfl habsent)).symm.trans h
    exact ErrorCode.illegalCommand.number_ne_zero hcode
  obtain ⟨hlen, ext, ids, dlc, ds, hparts, hid, hline⟩ :=
    (Proofs.frameParseAcceptsExactlyTheGrammar s t hfser h).1 hcode
  have hexec := exec_frameParse_of_line hfser hlen hline hparts hid
  exact ⟨hfser, ext, ids, dlc, ds, hparts, hid, hline, Host.Outcome.next.inj (h.symm.trans hexec)⟩

/-- An id in range fits FRAME_ID (10_state.md R54). -/
theorem toNat_ofNat_id {ext : Bool} {n : Nat} (h : n ≤ idLimit ext) :
    (BitVec.ofNat 29 n).toNat = n ∧ (ext = false → n ≤ 0x7FF) := by
  cases ext <;> simp [idLimit] at h ⊢ <;> omega

/-- A data length fits FRAME_CTL.DLC (10_state.md R55). -/
theorem toNat_ofNat_dlc {dlc : Nat} (h : dlc ≤ 8) : (BitVec.ofNat 4 dlc).toNat = dlc :=
  Nat.mod_eq_of_lt (by omega)

/-! ## Digits that come back in upper case -/

/-- Hex digits after the number `acc` spell a number between `acc` and the next, scaled. -/
theorem foldl_hexNibble_div {ds : List Byte} (hhex : ∀ b ∈ ds, IsHex b) (acc : Nat) :
    ds.foldl (fun a b => 16 * a + hexNibble b) acc / 16 ^ ds.length = acc := by
  induction ds generalizing acc with
  | nil => simp
  | cons d ds ih =>
    rw [List.forall_mem_cons] at hhex
    have hnibble := (upperHex_eq hhex.1).2
    rw [List.foldl_cons, List.length_cons, pow_succ, ← Nat.div_div_eq_div_mul, ih hhex.2]
    omega

/-- The digits of the number that hex digits spell are these digits in upper case (42_frame_serializer.md R233). -/
theorem hexDigits_foldl {ds : List Byte} (hhex : ∀ b ∈ ds, IsHex b) (acc : Nat) :
    hexDigits ds.length (ds.foldl (fun a b => 16 * a + hexNibble b) acc) = ds.map upperHex := by
  induction ds generalizing acc with
  | nil => rfl
  | cons d ds ih =>
    rw [List.forall_mem_cons] at hhex
    obtain ⟨hupper, hnibble⟩ := upperHex_eq hhex.1
    have hdigit : (16 * acc + hexNibble d) % 16 = hexNibble d := by omega
    rw [List.foldl_cons, List.length_cons, hexDigits, foldl_hexNibble_div hhex.2, ih hhex.2, hdigit, ← hupper,
      List.map_cons]

/-- The digit pairs of the bytes that digit pairs spell are these pairs in upper case (42_frame_serializer.md R234). -/
theorem hexPairs_pairBytes : ∀ (n : Nat) {ds : List Byte}, ds.length = 2 * n → (∀ b ∈ ds, IsHex b) →
    hexPairs (pairBytes ds) = ds.map upperHex
  | 0, [], _, _ => rfl
  | n + 1, a :: b :: ds, hlen, hhex => by
    rw [List.forall_mem_cons, List.forall_mem_cons] at hhex
    obtain ⟨ha, hb, hds⟩ := hhex
    obtain ⟨haUpper, haNibble⟩ := upperHex_eq ha
    obtain ⟨hbUpper, hbNibble⟩ := upperHex_eq hb
    have hbyte : (BitVec.ofNat 8 (16 * hexNibble a + hexNibble b)).toNat = 16 * hexNibble a + hexNibble b :=
      Nat.mod_eq_of_lt (by omega)
    have hhigh : (16 * hexNibble a + hexNibble b) / 16 = hexNibble a := by omega
    have hlow : (16 * hexNibble a + hexNibble b) % 16 = hexNibble b := by omega
    have hrest := hexPairs_pairBytes n (by simpa [Nat.mul_succ] using hlen) hds
    rw [pairBytes, hexPairs, hbyte, hhigh, hlow, hrest, ← haUpper, ← hbUpper, List.map_cons, List.map_cons]

/-- Marker, length digit and CR have no lower-case hex digit to raise. -/
theorem upperHex_marker (ext : Bool) : upperHex (marker ext) = marker ext := by cases ext <;> decide

theorem upperHex_dlcDigit {dlc : Nat} (h : dlc ≤ 8) : upperHex (dlcDigit dlc) = dlcDigit dlc := by
  interval_cases dlc <;> decide

/-- The line of the frame that a line spells is that line in upper case. -/
theorem frameLine_of_parts {ext : Bool} {ids ds : List Byte} {dlc : Nat} (hparts : PartsOk ext ids dlc ds)
    (hid : hexNumber ids ≤ idLimit ext) :
    frameLine (BitVec.ofNat 29 (hexNumber ids)) ⟨BitVec.ofNat 4 dlc, ext, false⟩ (wordOf (pairBytes ds))
      = (lineOf ext ids dlc ds).map upperHex := by
  obtain ⟨hids, hidhex, hdlc, hds, hdhex⟩ := hparts
  have hdata := pairBytes_length dlc ds hds
  have hbytes : bytesOf dlc (wordOf (pairBytes ds)) = pairBytes ds := by
    rw [bytesOf_wordOf hdlc _ hdata.le, hdata, Nat.sub_self, List.replicate_zero, List.append_nil]
  have hdigits : hexDigits (idDigits ext) (hexNumber ids) = ids.map upperHex := by
    rw [show idDigits ext = ids.length from hids.symm]
    exact hexDigits_foldl hidhex 0
  have hcr : upperHex carriageReturn = carriageReturn := by decide
  simp only [frameLine, (toNat_ofNat_id hid).1, toNat_ofNat_dlc hdlc, hbytes, hdigits, hexPairs_pairBytes dlc hds hdhex,
    lineOf_eq, List.map_cons, List.map_append, upperHex_marker, upperHex_dlcDigit hdlc, hcr, List.map_nil]
  rfl

/-! ## What STATUS holds -/

/-- The commands and the INFO values of each error (60_exceptions.md R271). -/
def ErrorCode.Allowed (op info : Byte) : ErrorCode → Prop
  | .invalidFieldSpec => info ∈ [1, 2, 3] ∧ op ∈ [0x01, 0x02, 0x03, 0x04]
  | .valueNotFinite => info ∈ [1, 2] ∧ op ∈ [0x01, 0x03]
  | .illegalCommand => info ∈ [1, 2, 3]
  | .frameInvalid => (info = 1 ∧ op = 0x10) ∨ (info = 2 ∧ op ∈ [0x03, 0x10])
  | .frameUnsupported => info = 1 ∧ op = 0x10
  | .lineMalformed => (info.toNat ≤ 27 ∨ info = 0xFF) ∧ op = 0x11

/-- An error of the table leaves a legal STATUS. -/
theorem Status.legal_raised {op : Byte} {e : Raised} (h : e.code.Allowed op e.info) : (Status.raised op e).Legal := by
  rcases e with ⟨c, info⟩
  cases c <;> simp [Status.Legal, Status.raised, ErrorCode.number] <;> simpa [ErrorCode.Allowed] using h

/-- A command that completes leaves a legal STATUS. -/
theorem Status.legal_completed (st : Status) (i : Instr) : (st.completed (opcodeOf i)).Legal := by
  cases i <;> simp [Status.Legal, Status.completed, opcodeOf]

/-- A line is refused at one of its first 28 bytes, the longest line having 27 (42_frame_serializer.md R241). -/
theorem parseLine_error_le {bs : List Byte} {q : Nat} (h : parseLine bs = .error q) : q ≤ 27 := by
  rcases firstBreak_of_parseLine_error h with hid | ⟨hle, ⟨more, ext, ids, dlc, ds, hparts, hline⟩, -, -⟩
  · cases h.symm.trans (parseLine_of_idOutOfRange hid)
    decide
  · have hlen := congrArg List.length hline
    have ⟨_, _, hdlc, _, _⟩ := hparts
    have hmax := lineLength_le ext hdlc
    rw [lineOf_length hparts, List.length_append, List.length_take] at hlen
    omega

/-- The frame check of FRAME_SERIALIZE raises what the table allows. -/
theorem checkFrame_error_allowed {id : BitVec 29} {c : FrameCtl} {e : Raised} (h : checkFrame id c = .error e) :
    e.code.Allowed (opcodeOf .frameSerialize) e.info := by
  unfold checkFrame at h
  split_ifs at h
  · cases h
    exact .inl ⟨rfl, rfl⟩
  · cases h
    exact .inr ⟨rfl, by decide⟩
  · cases h
    exact ⟨rfl, rfl⟩

/-- Every error a command raises is one the table allows (60_exceptions.md R271). -/
theorem State.Raises.allowed {s : State} {i : Instr} {e : Raised} (h : s.Raises i e) :
    e.code.Allowed (opcodeOf i) e.info := by
  cases h with
  | field hi h =>
    obtain ⟨hcode, hinfo, -⟩ := checkSpec_error h
    rw [hcode]
    refine ⟨hinfo, ?_⟩
    cases i with
    | encode | decode | encodeFrame | decodeFrame => decide
    | frameSerialize | frameParse => cases hi
  | value hi _ h =>
    have hop : opcodeOf i ∈ [0x01, 0x03] := by
      simp only [List.mem_cons, List.not_mem_nil, or_false] at hi
      rcases hi with rfl | rfl <;> decide
    obtain ⟨-, ⟨-, rfl⟩ | ⟨-, rfl⟩⟩ := typeWord_error h
    · exact ⟨by decide, hop⟩
    · exact ⟨by decide, hop⟩
  | signalId => exact .inr ⟨rfl, by decide⟩
  | frame _ h => exact checkFrame_error_allowed h
  | longLine => exact ⟨.inr rfl, rfl⟩
  | line _ _ h =>
    have hle := parseLine_error_le h
    exact ⟨.inl ((Nat.mod_le _ _).trans hle), rfl⟩
  | noUnit => exact (by decide : (3 : Byte) ∈ [1, 2, 3])

/-! ## The invariant -/

/-- The invariant is about registers: it does not depend on the host port. -/
theorem inv_host_iff (s : State) (q : List HostAccess) (d : Option Word) :
    State.Inv { s with hostQueue := q, hostData := d } ↔ s.Inv := Iff.rfl

/-- What TXLINE and TXLEN may hold depends on them alone. -/
theorem TxLegal.congr {s t : State} (h : TxLegal s) (hlen : t.txLen = s.txLen) (hline : t.txLine = s.txLine) :
    TxLegal t := by
  simpa only [TxLegal, txBytes, hlen, hline] using h

/-- The reset state meets the invariant, in a build with any parameters. -/
theorem reset_inv (p : Params) : State.Inv { State.reset with params := p } :=
  have hstatus : State.reset.status.Legal := by decide
  have htx : TxLegal State.reset := ⟨.inl rfl, (LineBuf.take_drop_ofBytes (l := []) (by decide)).2⟩
  ⟨hstatus, htx.congr rfl rfl, fun _ => ⟨rfl, rfl, rfl, rfl⟩⟩

/-- A raise of an error of the table keeps the invariant. -/
theorem raise_keeps_inv {s : State} {op : Byte} {e : Raised} (hs : s.Inv) (h : e.code.Allowed op e.info) :
    (s.raise op e).Inv := by
  obtain ⟨-, htx, habsent⟩ := hs
  exact ⟨Status.legal_raised h, htx.congr rfl rfl, habsent⟩

/-- Only FRAME_SERIALIZE writes TXLINE and TXLEN, and only when it completes (30_encoding.md section 2). -/
theorem exec_tx_frame {i : Instr} {s t : State} (h : exec i s = .next t) :
    (t.txLen = s.txLen ∧ t.txLine = s.txLine) ∨ (i = .frameSerialize ∧ t.status.code = 0) := by
  rcases exec_outcome_cases h with ⟨o, -, rfl⟩ | ⟨e, -, rfl⟩
  · cases i with
    | encode | decode | encodeFrame | decodeFrame | frameParse => exact .inl ⟨rfl, rfl⟩
    | frameSerialize => exact .inr ⟨rfl, rfl⟩
  · exact .inl ⟨rfl, rfl⟩

/-- Every command keeps the invariant. -/
theorem exec_keeps_inv {i : Instr} {s t : State} (hs : s.Inv) (h : exec i s = .next t) : t.Inv := by
  obtain ⟨-, htx, habsent⟩ := hs
  refine ⟨?_, ?_, fun hfser => ?_⟩
  · rcases State.completes_or_raises h with hdone | ⟨e, he, rfl⟩
    · exact hdone ▸ Status.legal_completed s.status i
    · exact Status.legal_raised he.allowed
  · rcases exec_tx_frame h with ⟨hlen, hline⟩ | ⟨rfl, hcode⟩
    · exact htx.congr hlen hline
    · obtain ⟨ids, ds, hparts, -, hlimit, -, hupper, hline, hlen, hzero⟩ := exec_frameSerialize_line h hcode
      exact ⟨.inr ⟨_, ids, _, ds, hparts, hlimit, hupper, hlen, hline⟩, hzero⟩
  · rw [(exec_host_frame h).1] at hfser
    obtain ⟨-, -, hkeep⟩ := Proofs.fserAbsentUnit s hfser
    obtain ⟨htxLen, hrxLen, htxLine, hrxLine⟩ := hkeep i t h
    rw [htxLen, hrxLen, htxLine, hrxLine]
    exact habsent hfser

/-- Every CMD write keeps the invariant: a value that selects no command raises ILLEGAL_COMMAND. -/
theorem runCommand_keeps_inv {v : Word} {s t : State} (hs : s.Inv) (h : runCommand v s = .next t) : t.Inv := by
  rcases runCommand_cases h with ⟨i, -, hi⟩ | ⟨-, rfl⟩ | ⟨-, rfl⟩
  · exact exec_keeps_inv hs hi
  · exact raise_keeps_inv hs (by decide : (2 : Byte) ∈ [1, 2, 3])
  · exact raise_keeps_inv hs (by decide : (1 : Byte) ∈ [1, 2, 3])

/-- What a store by the host leaves of STATUS and of the line written (10_state.md R40, R61, R63). -/
theorem writeReg_keeps_status_tx (r : Reg) (v : Word) (s : State) :
    (writeReg r v s).status.code = s.status.code ∧ (writeReg r v s).status.info = s.status.info
      ∧ (writeReg r v s).status.lastOp = s.status.lastOp ∧ (writeReg r v s).txLen = s.txLen
      ∧ (writeReg r v s).txLine = s.txLine := by
  cases r with
  | rxLen | rxLine0 | rxLine1 | rxLine2 | rxLine3 =>
    simp only [writeReg, State.ifFser]
    split <;> exact ⟨rfl, rfl, rfl, rfl, rfl⟩
  | caps | cmd | status | cfg | value | payloadIn | payloadOut | resultWord => exact ⟨rfl, rfl, rfl, rfl, rfl⟩
  | resultValue | tsIn | frameId | frameCtl | frameData | frameTs => exact ⟨rfl, rfl, rfl, rfl, rfl⟩
  | txLen | txLine0 | txLine1 | txLine2 | txLine3 => exact ⟨rfl, rfl, rfl, rfl, rfl⟩

/-- A store to a register outside the FSER unit leaves the line read as it was. -/
theorem writeReg_keeps_rx {r : Reg} (v : Word) (s : State) (hr : isFserReg r = false) :
    (writeReg r v s).rxLen = s.rxLen ∧ (writeReg r v s).rxLine = s.rxLine := by
  cases r with
  | txLen | rxLen | txLine0 | txLine1 | txLine2 | txLine3 | rxLine0 | rxLine1 | rxLine2 | rxLine3 => cases hr
  | caps | cmd | status | cfg | value | payloadIn | payloadOut | resultWord => exact ⟨rfl, rfl⟩
  | resultValue | tsIn | frameId | frameCtl | frameData | frameTs => exact ⟨rfl, rfl⟩

/-- Every store by the host keeps the invariant. -/
theorem writeReg_keeps_inv {s : State} (r : Reg) (v : Word) (hs : s.Inv) : (writeReg r v s).Inv := by
  obtain ⟨hstatus, htx, habsent⟩ := hs
  obtain ⟨hcode, hinfo, hop, htxLen, htxLine⟩ := writeReg_keeps_status_tx r v s
  refine ⟨?_, htx.congr htxLen htxLine, fun hfser => ?_⟩
  · simpa only [Status.Legal, hcode, hinfo, hop] using hstatus
  · rw [(writeReg_frame r v s).1] at hfser
    cases hr : isFserReg r with
    | true => exact (writeReg_of_fser_absent v hfser hr).symm ▸ habsent hfser
    | false =>
      obtain ⟨hrxLen, hrxLine⟩ := writeReg_keeps_rx v s hr
      rw [htxLen, hrxLen, htxLine, hrxLine]
      exact habsent hfser

end Sys2Proof.Machine
end

section
namespace Sys2Proof.Proofs

open Sys2Proof Sys2Proof.Machine

/-- Settles O49: the bytes of a buffer are `LineBuf.bytes_getElem?`, and those of a line written
`LineBuf.bytes_ofBytes`. -/
theorem lineBufferLayout : Obligations.LineBufferLayout := by
  unfold Obligations.LineBufferLayout
  exact ⟨fun b i hi => b.bytes_getElem? hi, LineBuf.bytes_length, fun l hl => LineBuf.bytes_ofBytes hl⟩

/-- Settles O50: the frame passes the check (`exec_frameSerialize_of_valid`). -/
theorem frameSerializeWritesLine : Obligations.FrameSerializeWritesLine := by
  unfold Obligations.FrameSerializeWritesLine
  exact fun s => exec_frameSerialize_of_valid

/-- Settles O51: the line is `exec_frameSerialize_line`, its data bytes the payload's in order (`bytesOf_eq_map`). -/
theorem serializedLineShape : Obligations.SerializedLineShape := by
  unfold Obligations.SerializedLineShape
  intro s t _ h hcode
  obtain ⟨ids, ds, hparts, hnumber, -, hdata, hupper, hline, hlen, hzero⟩ := exec_frameSerialize_line h hcode
  exact ⟨ids, ds, hparts, hnumber, by rw [hdata, bytesOf_eq_map], hupper, hline, hlen, hzero⟩

/-- Settles O52: the parser accepts the line and answers what it spells (`exec_frameParse_of_line`). -/
theorem frameParseReadsLine : Obligations.FrameParseReadsLine := by
  unfold Obligations.FrameParseReadsLine
  exact fun s ext ids dlc ds => exec_frameParse_of_line

/-- Settles O55: the line written is a line of the grammar that spells the id and the first DLC bytes
(`exec_frameSerialize_line`), and it is what FRAME_PARSE reads (`exec_frameParse_of_line`). -/
theorem serializeThenParse : Obligations.SerializeThenParse := by
  unfold Obligations.SerializeThenParse
  intro s hfser hdlc hid hrtr
  have hserialize := exec_frameSerialize_of_valid hfser hdlc hid hrtr
  obtain ⟨ids, ds, hparts, hnumber, hlimit, hdata, -, hline, hlen, -⟩ := exec_frameSerialize_line hserialize rfl
  have hmax := lineLength_le s.frameCtl.ext hdlc
  refine ⟨_, _, hserialize, exec_frameParse_of_line hfser (hlen.trans_le (by omega)) hline hparts hlimit,
    rfl, ?_, ?_, rfl, fun k => ?_⟩
  · simp only [hnumber, BitVec.ofNat_toNat, BitVec.setWidth_eq]
  · simp only [BitVec.ofNat_toNat, BitVec.setWidth_eq, ← hrtr]
  · rw [hdata, extract_wordOf _ k.isLt, bytesOf_getElem?]
    split <;> rfl

/-- Settles O56: the frame parsed is the one the line spells (`exec_frameParse_frame`), the wire carries it, and its
line is the line in upper case (`frameLine_of_parts`). -/
theorem parseThenSerialize : Obligations.ParseThenSerialize := by
  unfold Obligations.ParseThenSerialize
  intro s t _ h hcode
  obtain ⟨hfser, ext, ids, dlc, ds, hparts, hlimit, hline, rfl⟩ := exec_frameParse_frame h hcode
  obtain ⟨hnumber, hshort⟩ := toNat_ofNat_id hlimit
  have ⟨_, _, hdlc, _, _⟩ := hparts
  have hbytes : ((lineOf ext ids dlc ds).map upperHex).length = (if ext then 11 else 6) + 2 * dlc := by
    rw [List.length_map, lineOf_length hparts]
  have hmax := lineLength_le ext hdlc
  obtain ⟨htake, -⟩ := LineBuf.take_drop_ofBytes (hbytes.trans_le (by omega))
  rw [hbytes] at htake
  refine ⟨_, exec_frameSerialize_of_valid hfser ?_ ?_ rfl, rfl, ?_⟩
  · simp only [toNat_ofNat_dlc hdlc, hdlc]
  · simpa only [hnumber] using hshort
  · simp only [txBytes, toNat_ofNat_dlc hdlc, hline, frameLine_of_parts hparts hlimit, htake]

/-- Settles O57: ENCODE_FRAME completes under an id that fits, with a data length of 8 (`execEncodeFrame_of_code_zero`);
FRAME_PARSE with the frame of a line, whose bytes beyond its data are 0 (`exec_frameParse_frame`). -/
theorem builtFramesValid : Obligations.BuiltFramesValid := by
  unfold Obligations.BuiltFramesValid
  intro i s t hi h hcode
  simp only [List.mem_cons, List.not_mem_nil, or_false] at hi
  rcases hi with rfl | rfl
  · obtain ⟨p, -, hid, rfl⟩ := execEncodeFrame_of_code_zero h hcode
    refine ⟨⟨fun hext => ?_, le_rfl, fun k hk => absurd hk (not_le.2 k.isLt)⟩, rfl, rfl⟩
    by_contra hwide
    cases hid.symm.trans (idTooWide_iff.2 ⟨hext, not_le.1 hwide⟩)
  · obtain ⟨-, ext, ids, dlc, ds, hparts, hlimit, -, rfl⟩ := exec_frameParse_frame h hcode
    obtain ⟨hnumber, hshort⟩ := toNat_ofNat_id hlimit
    obtain ⟨-, -, hdlc, hds, -⟩ := hparts
    refine ⟨⟨?_, ?_, fun k hk => ?_⟩, rfl, rfl⟩
    · simpa only [hnumber] using hshort
    · simp only [toNat_ofNat_dlc hdlc, hdlc]
    · simp only [toNat_ofNat_dlc hdlc] at hk
      rw [extract_wordOf _ k.isLt, List.getElem?_eq_none (by rw [pairBytes_length dlc ds hds]; exact hk)]
      rfl

/-- Settles O59: the registers are all 0 (`reset_inv`). -/
theorem resetMeetsInvariant : Obligations.ResetMeetsInvariant := by
  unfold Obligations.ResetMeetsInvariant
  exact ⟨reset_inv Params.default, reset_inv⟩

/-- Settles O58, by the cases of a step (`step_cases`): a command (`runCommand_keeps_inv`), a store
(`writeReg_keeps_inv`) and reset (`reset_inv`) keep the invariant; the others change no register. -/
theorem stepKeepsInvariant : Obligations.StepKeepsInvariant := by
  unfold Obligations.StepKeepsInvariant
  intro s t hs h
  rcases step_cases h with
    ⟨-, rfl⟩ | ⟨a, rest, -, ⟨-, rfl⟩ | ⟨off, -, -, -, rfl⟩ | ⟨off, v, -, -, -, ⟨-, hcmd⟩ | ⟨r, -, -, rfl⟩ | ⟨-, rfl⟩⟩⟩
  · exact hs
  · exact (inv_host_iff _ rest none).2 (reset_inv s.params)
  · exact (inv_host_iff s _ _).2 hs
  · exact runCommand_keeps_inv ((inv_host_iff s _ _).2 hs) hcmd
  · exact writeReg_keeps_inv r v ((inv_host_iff s _ _).2 hs)
  · exact (inv_host_iff s _ _).2 hs

end Sys2Proof.Proofs
end
